-- ==== Sys2Proof/Word.lean ====
section
/-! DEFINITION. The words GDFX is made of: bytes, 32-bit words, and the 32-bit words read as binary32
values (20_memory.md R54, R55), with the filter's coefficient set. -/

namespace Sys2Proof

/-- A byte of a 32-bit word, as a bus that exposes bytes shows it (R54). -/
abbrev Byte := BitVec 8

/-- A register, a sample word or a command word: 32 bits (R54, R74). -/
abbrev Word := BitVec 32

/-- A binary32 value, held as its bit pattern: bit 31 sign, bits 30:23 biased exponent, bits 22:0
fraction (R11, R55). -/
abbrev F32 := BitVec 32

/-- A micro-op word (R80). -/
abbrev MicroWord := BitVec 8

/-- A coefficient set `(b0, b1, b2, a1, a2)`, normalised to leading output coefficient 1
(10_state.md R30). -/
structure Coef where
  b0 : F32
  b1 : F32
  b2 : F32
  a1 : F32
  a2 : F32
  deriving DecidableEq, Repr, Inhabited

end Sys2Proof
end

