-- ==== Sys2Proof/Machine/Float.lean ====
section
/-! DEFINITION. binary32 arithmetic: classification, the four rounded primitives `add32`, `sub32`,
`mul32`, `div32` (00_scope.md R12), flushing of subnormals (R13), comparison, `abs32` and `clamp32`
(R14).  Two things a primitive cannot decide are arguments: `flush` is FLUSH_SUBNORMALS, and `nan` is
the NaN the primitive answers where the result is a NaN (93_implementation_defined.md: the payload and
sign of a NaN result are any value).

A finite value is exact as an integer number of units of 2^-149, the smallest subnormal.  Every
primitive computes the exact result in those units, as a fraction, and rounds once. -/

namespace Sys2Proof.Machine

/-! ## The fields of a binary32 word (R55) -/

/-- Bit 31. -/
def signBit (v : F32) : Bool := v.msb

/-- Bits 30:0 as a number; it grows with the magnitude of the value. -/
def magBits (v : F32) : Nat := v.toNat % 2 ^ 31

/-- The word with a given sign and bits 30:0. -/
def ofSignMag (negative : Bool) (mag : Nat) : F32 :=
  BitVec.ofNat 32 ((if negative then 2 ^ 31 else 0) + mag)

/-- Bits 30:0 of an infinity; larger ones are NaNs. -/
def infMag : Nat := 0x7F800000

/-- Bits 30:0 of the smallest normal value. -/
def minNormalMag : Nat := 0x00800000

def isNaN (v : F32) : Bool := decide (infMag < magBits v)
def isInf (v : F32) : Bool := decide (magBits v = infMag)
def isFinite (v : F32) : Bool := decide (magBits v < infMag)
def isZero (v : F32) : Bool := decide (magBits v = 0)
def isSubnormal (v : F32) : Bool := decide (0 < magBits v ∧ magBits v < minNormalMag)

/-- `-v`: the sign bit inverted. -/
def neg32 (v : F32) : F32 := ofSignMag (!signBit v) (magBits v)

/-- `abs32(v)` clears the sign bit (R14). -/
def abs32 (v : F32) : F32 := ofSignMag false (magBits v)

/-! ## Constants of the pseudocode -/

def plusZero : F32 := 0x00000000#32
def minusZero : F32 := 0x80000000#32
def one : F32 := 0x3F800000#32
def minusOne : F32 := 0xBF800000#32
def plusInf : F32 := 0x7F800000#32
def minusInf : F32 := 0xFF800000#32
/-- 12.0, the shaping constant K (R7, R98). -/
def shapingK : F32 := 0x41400000#32
/-- 20.0: the default cutoff, the lower clamp bound (Hz), and the divisor of GAINCALC. -/
def twenty : F32 := 0x41A00000#32
/-- 20000.0, the upper clamp bound (Hz). -/
def twentyThousand : F32 := 0x469C4000#32
/-- 24.0 and -24.0, the ends of the OUTGAIN range (dB). -/
def twentyFour : F32 := 0x41C00000#32
def minusTwentyFour : F32 := 0xC1C00000#32

/-! ## Exact values and rounding -/

/-- The magnitude of a finite value in units of 2^-149. -/
def magUnits (v : F32) : Nat :=
  let e := magBits v / 2 ^ 23
  let f := magBits v % 2 ^ 23
  if e = 0 then f else (2 ^ 23 + f) * 2 ^ (e - 1)

/-- A finite value in units of 2^-149. -/
def units (v : F32) : Int := if signBit v then -(magUnits v : Int) else magUnits v

/-- The integer nearest `num / den`, ties to even. -/
def roundHalfEven (num den : Nat) : Nat :=
  let n := num / den
  let r := num % den
  if 2 * r < den then n
  else if den < 2 * r then n + 1
  else n + n % 2

/-- How many bits of an exact magnitude, whose integer part in units is `q`, lie below the last place
of the binary32 result: 0 for a subnormal or for the first normal binade. -/
def dropBits (q : Nat) : Nat := Nat.log2 q - 23

/-- Bits 30:0 of the binary32 magnitude nearest `num / den` units, ties to even, with an infinity from
the overflow threshold on (R12). -/
def roundMag (num den : Nat) : Nat :=
  let k := dropBits (num / den)
  min (k * 2 ^ 23 + roundHalfEven num (den * 2 ^ k)) infMag

/-- R13: a subnormal is read, or written, as a zero of its sign when `flush` is set. -/
def flushSub (flush : Bool) (v : F32) : F32 :=
  if flush && isSubnormal v then ofSignMag (signBit v) 0 else v

/-! ## The four primitives (R12) -/

/-- The sum before flushing. -/
def addCore (nan a b : F32) : F32 :=
  if isNaN a || isNaN b then nan
  else if isInf a then (if isInf b && (signBit a != signBit b) then nan else a)
  else if isInf b then b
  else
    let z := units a + units b
    if z = 0 then ofSignMag (signBit a && signBit b) 0
    else ofSignMag (decide (z < 0)) (roundMag z.natAbs 1)

/-- `add32(a, b)`. -/
def add32 (flush : Bool) (nan a b : F32) : F32 :=
  flushSub flush (addCore nan (flushSub flush a) (flushSub flush b))

/-- `sub32(a, b)`. -/
def sub32 (flush : Bool) (nan a b : F32) : F32 := add32 flush nan a (neg32 b)

/-- The product before flushing. -/
def mulCore (nan a b : F32) : F32 :=
  let s := signBit a ^^ signBit b
  if isNaN a || isNaN b then nan
  else if isInf a || isInf b then (if isZero a || isZero b then nan else ofSignMag s infMag)
  else ofSignMag s (roundMag (magUnits a * magUnits b) (2 ^ 149))

/-- `mul32(a, b)`: R13 is applied to every operand and result.  DESIGN CHOICE (unsafe, assumption 19): where
`flush` is set and `a` is a subnormal value, a product with an infinity is that of a zero with an infinity, a NaN,
although 41_waveshaper.md R103 says ±inf "for `d > 0`". -/
def mul32 (flush : Bool) (nan a b : F32) : F32 :=
  flushSub flush (mulCore nan (flushSub flush a) (flushSub flush b))

/-- The quotient before flushing. -/
def divCore (nan a b : F32) : F32 :=
  let s := signBit a ^^ signBit b
  if isNaN a || isNaN b then nan
  else if isInf a then (if isInf b then nan else ofSignMag s infMag)
  else if isInf b then ofSignMag s 0
  else if isZero b then (if isZero a then nan else ofSignMag s infMag)
  else ofSignMag s (roundMag (magUnits a * 2 ^ 149) (magUnits b))

/-- `div32(a, b)`. -/
def div32 (flush : Bool) (nan a b : F32) : F32 :=
  flushSub flush (divCore nan (flushSub flush a) (flushSub flush b))

/-! ## Comparison and clamping (R14) -/

/-- The order of the non-NaN values as an integer order; both zeros have key 0. -/
def orderKey (v : F32) : Int := if signBit v then -(magBits v : Int) else magBits v

/-- `a < b`; false with a NaN operand. -/
def lt32 (a b : F32) : Bool := !isNaN a && !isNaN b && decide (orderKey a < orderKey b)

/-- `a <= b`; false with a NaN operand. -/
def le32 (a b : F32) : Bool := !isNaN a && !isNaN b && decide (orderKey a ≤ orderKey b)

/-- `clamp32(v, lo, hi)` is `if v < lo then lo else if v > hi then hi else v`. -/
def clamp32 (v lo hi : F32) : F32 := if lt32 v lo then lo else if lt32 hi v then hi else v

/-! ## The primitives of one sample's computation -/

/-- What the primitives of one sample's computation use: FLUSH_SUBNORMALS, and the NaN that the operation
at each place of the computation answers where its result is a NaN. -/
structure Fp where
  flush : Bool
  nan : Nat → F32

def Fp.add (e : Fp) (site : Nat) (a b : F32) : F32 := add32 e.flush (e.nan site) a b
def Fp.sub (e : Fp) (site : Nat) (a b : F32) : F32 := sub32 e.flush (e.nan site) a b
def Fp.mul (e : Fp) (site : Nat) (a b : F32) : F32 := mul32 e.flush (e.nan site) a b
def Fp.div (e : Fp) (site : Nat) (a b : F32) : F32 := div32 e.flush (e.nan site) a b

/-! ## The small lemmas of the definitions above -/

theorem magBits_lt (v : F32) : magBits v < 2 ^ 31 := Nat.mod_lt _ (by norm_num)

theorem signBit_eq (v : F32) : signBit v = decide (2 ^ 31 ≤ v.toNat) := by
  simp [signBit, BitVec.msb_eq_decide]

theorem toNat_ofSignMag (b : Bool) {m : Nat} (h : m < 2 ^ 31) :
    (ofSignMag b m).toNat = (if b then 2 ^ 31 else 0) + m := by
  unfold ofSignMag
  rw [BitVec.toNat_ofNat]
  split <;> omega

theorem signBit_ofSignMag (b : Bool) {m : Nat} (h : m < 2 ^ 31) : signBit (ofSignMag b m) = b := by
  rw [signBit_eq, toNat_ofSignMag b h]
  cases b <;> simp
  omega

theorem magBits_ofSignMag (b : Bool) {m : Nat} (h : m < 2 ^ 31) : magBits (ofSignMag b m) = m := by
  unfold magBits
  rw [toNat_ofSignMag b h]
  cases b
  · simpa using h
  · simp only [if_true]
    omega

theorem ofSignMag_eta (v : F32) : ofSignMag (signBit v) (magBits v) = v := by
  apply BitVec.eq_of_toNat_eq
  rw [toNat_ofSignMag _ (magBits_lt v), signBit_eq, magBits]
  have := v.isLt
  by_cases h : 2 ^ 31 ≤ v.toNat
  · rw [if_pos (by simpa using h)]
    omega
  · rw [if_neg (by simpa using h)]
    omega

/-- Two words are equal when their signs and their other bits are. -/
theorem word_ext {v w : F32} (hs : signBit v = signBit w) (hm : magBits v = magBits w) : v = w := by
  rw [← ofSignMag_eta v, ← ofSignMag_eta w, hs, hm]

@[simp] theorem signBit_neg32 (v : F32) : signBit (neg32 v) = !signBit v :=
  signBit_ofSignMag _ (magBits_lt v)

@[simp] theorem magBits_neg32 (v : F32) : magBits (neg32 v) = magBits v :=
  magBits_ofSignMag _ (magBits_lt v)

@[simp] theorem signBit_abs32 (v : F32) : signBit (abs32 v) = false :=
  signBit_ofSignMag _ (magBits_lt v)

@[simp] theorem magBits_abs32 (v : F32) : magBits (abs32 v) = magBits v :=
  magBits_ofSignMag _ (magBits_lt v)

@[simp] theorem isNaN_neg32 (v : F32) : isNaN (neg32 v) = isNaN v := by simp [isNaN]

@[simp] theorem isFinite_neg32 (v : F32) : isFinite (neg32 v) = isFinite v := by simp [isFinite]

@[simp] theorem orderKey_neg32 (v : F32) : orderKey (neg32 v) = -orderKey v := by
  cases h : signBit v <;> simp [orderKey, h]

theorem neg32_neg32 (v : F32) : neg32 (neg32 v) = v := word_ext (by simp) (by simp)

end Sys2Proof.Machine
end

