-- ==== Sys2Proof/Syntax.lean ====
section
/-! DEFINITION. The instructions of GDFX: the two host commands and the eleven micro-ops of the
sequencer, one constructor for each row of spec/opcode_table.json (30_encoding.md R73, R75, R80). -/

namespace Sys2Proof

/-- A filter kind `k`: LP = 0, HP = 1 (R7, R109). -/
inductive Kind where
  | lp
  | hp
  deriving DecidableEq, Repr

/-- A channel index `c`, 0 or 1 (R7). -/
inductive Chan where
  | ch0
  | ch1
  deriving DecidableEq, Repr

/-- A parameter index `p`: 0 DRIVE, 1 TONE, 2 HPF, 3 MIX, 4 OUTGAIN (10_state.md R34). -/
inductive Param where
  | drive
  | tone
  | hpf
  | mix
  | outgain
  deriving DecidableEq, Repr

/-- An instruction.  The operands of PROCESS_BLOCK are the unsigned integers of the command word's
fields, legal or not (R77, R78): a word with an illegal operand decodes and then faults (R89). -/
inductive Instr where
  /-- PREPARE, a host command (R132). -/
  | prepare
  /-- PROCESS_BLOCK with NIN, NOUT and LEN, a host command (R133). -/
  | processBlock (nin nout len : Nat)
  /-- END (R139). -/
  | endCommand
  /-- SILENCE c (R137). -/
  | silence (c : Chan)
  /-- SNAP p (R91). -/
  | snap (p : Param)
  /-- DRYCOPY c (R138). -/
  | dryCopy (c : Chan)
  /-- SHAPE c (R98). -/
  | shape (c : Chan)
  /-- UPD k (R110). -/
  | upd (k : Kind)
  /-- RUN k,c (R114). -/
  | run (k : Kind) (c : Chan)
  /-- MIX c (R121). -/
  | mix (c : Chan)
  /-- GAINCALC (R126). -/
  | gainCalc
  /-- GAIN c (R128). -/
  | gain (c : Chan)
  /-- PREP (R136). -/
  | prep
  deriving DecidableEq, Repr

end Sys2Proof
end

