-- ==== Sys2Proof/Machine/Functions.lean ====
section
/-! DEFINITION. The properties a model may assume of the three configuration functions: T1 to T6 of
`Tanh32` (00_scope.md R15), P1 to P4 of `Pow10_32` (R16), and DS2 of `Design` (42_filter_stage.md R104 to
R107); DS1 is that `Design` is a function, and DS3 that nothing more is assumed of it.  The
`…Example` functions only show that the properties can be met together. -/

namespace Sys2Proof.Machine

/-! ## What the accuracy properties compare with -/

/-- The finite value `v` is the real number `r`. -/
def Denotes (v : F32) (r : ℝ) : Prop := isFinite v = true ∧ r * 2 ^ 149 = (units v : ℝ)

/-- `u` is one unit in the last place of binary32 at the real number `r`: `2^(e-23)` where
`2^e ≤ |r| < 2^(e+1)`, and 2^-149 below the smallest normal value. -/
def UlpAt (r u : ℝ) : Prop :=
  (|r| < (2 : ℝ) ^ (-126 : ℤ) ∧ u = (2 : ℝ) ^ (-149 : ℤ)) ∨
  ∃ e : ℤ, -126 ≤ e ∧ (2 : ℝ) ^ e ≤ |r| ∧ |r| < (2 : ℝ) ^ (e + 1) ∧ u = (2 : ℝ) ^ (e - 23)

/-- `v` is a finite value at most `ulps` units in the last place away from the real number `r`. -/
def WithinUlps (ulps : Nat) (v : F32) (r : ℝ) : Prop :=
  ∃ x : ℝ, Denotes v x ∧ ∀ u : ℝ, UlpAt r u → |x - r| ≤ ulps * u

/-! ## `Tanh32` (R15) -/

/-- T1: odd. -/
def TanhOdd (fn : F32 → F32) : Prop := ∀ v, isNaN v = false → fn (neg32 v) = neg32 (fn v)

/-- T2: zeros. -/
def TanhZeros (fn : F32 → F32) : Prop := fn plusZero = plusZero ∧ fn minusZero = minusZero

/-- T3: bounded, and ±1 at the infinities. -/
def TanhBounded (fn : F32 → F32) : Prop :=
  (∀ v, isNaN v = false → le32 minusOne (fn v) = true ∧ le32 (fn v) one = true) ∧
  fn plusInf = one ∧ fn minusInf = minusOne

/-- T4: monotone. -/
def TanhMonotone (fn : F32 → F32) : Prop := ∀ v w, le32 v w = true → le32 (fn v) (fn w) = true

/-- T5: a NaN gives a NaN. -/
def TanhNaN (fn : F32 → F32) : Prop := ∀ v, isNaN v = true → isNaN (fn v) = true

/-- T6: accuracy. -/
def TanhAccurate (ulps : Nat) (fn : F32 → F32) : Prop :=
  ∀ v x, Denotes v x → WithinUlps ulps (fn v) (Real.tanh x)

/-! ## `Pow10_32` (R16) -/

/-- 0x3F99999A, the f32 nearest 1.2: the end of the range of P2 and P4. -/
def pow10Limit : F32 := 0x3F99999A#32

/-- P1: unity at both zeros. -/
def Pow10Unity (fn : F32 → F32) : Prop := fn plusZero = one ∧ fn minusZero = one

/-- P2: finite and positive in the range. -/
def Pow10Positive (fn : F32 → F32) : Prop :=
  ∀ v, isFinite v = true → le32 (abs32 v) pow10Limit = true →
    isFinite (fn v) = true ∧ lt32 plusZero (fn v) = true

/-- P3: monotone. -/
def Pow10Monotone (fn : F32 → F32) : Prop := ∀ v w, le32 v w = true → le32 (fn v) (fn w) = true

/-- P4: accuracy in the range. -/
def Pow10Accurate (ulps : Nat) (fn : F32 → F32) : Prop :=
  ∀ v x, Denotes v x → le32 (abs32 v) pow10Limit = true → WithinUlps ulps (fn v) ((10 : ℝ) ^ x)

/-! ## `Design` (R104 to R107) -/

/-- `Valid(f, fs)` on the real values of a finite `f` and `fs`: `fs > 0`, `f > 0`, `2 f < fs` (R107). -/
def ValidDesign (f fs : F32) : Prop :=
  isFinite f = true ∧ isFinite fs = true ∧ 0 < units fs ∧ 0 < units f ∧ 2 * units f < units fs

/-- `(b0, b1, b2, a1, a2)` are the reference coefficients of R105 for the real cutoff `f` and sample rate
`fs`, with Q_FILTER = 1/√2 (R106). -/
def ReferenceCoef (k : Kind) (f fs b0 b1 b2 a1 a2 : ℝ) : Prop :=
  let w0 := 2 * Real.pi * f / fs
  let cw := Real.cos w0
  let alpha := Real.sin w0 / (2 * (1 / Real.sqrt 2))
  let A0 := 1 + alpha
  let A1 := -2 * cw
  let A2 := 1 - alpha
  a1 = A1 / A0 ∧ a2 = A2 / A0 ∧
  match k with
  | .lp => b0 = (1 - cw) / 2 / A0 ∧ b1 = (1 - cw) / A0 ∧ b2 = (1 - cw) / 2 / A0
  | .hp => b0 = (1 + cw) / 2 / A0 ∧ b1 = -(1 + cw) / A0 ∧ b2 = (1 + cw) / 2 / A0

/-- A coefficient `d` is finite and within the tolerance of its reference value `r` (R104). -/
def WithinTolerance (epsRel epsAbs : ℝ) (d : F32) (r : ℝ) : Prop :=
  ∃ x : ℝ, Denotes d x ∧ |x - r| ≤ epsRel * |r| + epsAbs

/-- DS2: accuracy of a valid design. -/
def DesignAccurate (epsRel epsAbs : ℝ) (fn : Kind → F32 → F32 → Coef) : Prop :=
  ∀ k f fs xf xfs b0 b1 b2 a1 a2, ValidDesign f fs → Denotes f xf → Denotes fs xfs →
    ReferenceCoef k xf xfs b0 b1 b2 a1 a2 →
    WithinTolerance epsRel epsAbs (fn k f fs).b0 b0 ∧ WithinTolerance epsRel epsAbs (fn k f fs).b1 b1 ∧
    WithinTolerance epsRel epsAbs (fn k f fs).b2 b2 ∧ WithinTolerance epsRel epsAbs (fn k f fs).a1 a1 ∧
    WithinTolerance epsRel epsAbs (fn k f fs).a2 a2

/-! ## The properties can be met -/

theorem ulpAt_ge {r u : ℝ} (h : UlpAt r u) : (2 : ℝ) ^ (-149 : ℤ) ≤ u := by
  rcases h with ⟨-, rfl⟩ | ⟨e, he, -, -, rfl⟩
  · exact le_refl _
  · exact zpow_le_zpow_right₀ (by norm_num) (by omega)

/-- Enough units in the last place cover any distance up to 32. -/
theorem withinUlps_coarse {v : F32} {x r : ℝ} (hv : Denotes v x) (h : |x - r| ≤ 32) :
    WithinUlps (2 ^ 154) v r := by
  refine ⟨x, hv, fun u hu => h.trans ?_⟩
  have h1 := ulpAt_ge hu
  have h2 : ((2 ^ 154 : Nat) : ℝ) * (2 : ℝ) ^ (-149 : ℤ) = 32 := by
    push_cast
    rw [zpow_neg]
    norm_num
  calc (32 : ℝ) = ((2 ^ 154 : Nat) : ℝ) * (2 : ℝ) ^ (-149 : ℤ) := h2.symm
    _ ≤ ((2 ^ 154 : Nat) : ℝ) * u := by gcongr

def tanhExample (v : F32) : F32 := clamp32 v minusOne one
def tanhExampleUlps : Nat := 2 ^ 154
def pow10Example (_ : F32) : F32 := one
def designExample (_ : Kind) (_ _ : F32) : Coef :=
  { b0 := plusZero, b1 := plusZero, b2 := plusZero, a1 := plusZero, a2 := plusZero }

theorem isNaN_eq_false_iff (v : F32) : isNaN v = false ↔ magBits v ≤ infMag := by simp [isNaN]

theorem le32_iff (a b : F32) :
    le32 a b = true ↔ isNaN a = false ∧ isNaN b = false ∧ orderKey a ≤ orderKey b := by
  simp [le32, and_assoc]

theorem lt32_iff (a b : F32) :
    lt32 a b = true ↔ isNaN a = false ∧ isNaN b = false ∧ orderKey a < orderKey b := by
  simp [lt32, and_assoc]

/-- Clamping between two ordered non-NaN bounds clamps the order key. -/
theorem clamp32_spec {v lo hi : F32} (hv : isNaN v = false) (hlo : isNaN lo = false)
    (hhi : isNaN hi = false) (hle : orderKey lo ≤ orderKey hi) :
    isNaN (clamp32 v lo hi) = false ∧
    orderKey (clamp32 v lo hi) = max (orderKey lo) (min (orderKey v) (orderKey hi)) := by
  simp only [clamp32, lt32, hv, hlo, hhi, Bool.not_false, Bool.true_and, decide_eq_true_eq]
  split
  · exact ⟨hlo, by omega⟩
  · split
    · exact ⟨hhi, by omega⟩
    · exact ⟨hv, by omega⟩

theorem tanhExample_spec {v : F32} (hv : isNaN v = false) :
    isNaN (tanhExample v) = false ∧
    orderKey (tanhExample v) = max (-0x3F800000) (min (orderKey v) 0x3F800000) :=
  clamp32_spec (lo := minusOne) (hi := one) hv (by decide) (by decide) (by decide)

theorem tanhExample_odd : TanhOdd tanhExample := by
  intro v hv
  have hk := orderKey_neg32 v
  have h1 : orderKey one = 0x3F800000 := by decide
  have h2 : orderKey minusOne = -0x3F800000 := by decide
  have h3 : isNaN one = false := by decide
  have h4 : isNaN minusOne = false := by decide
  simp only [tanhExample, clamp32, lt32, isNaN_neg32, hv, hk, h1, h2, h3, h4, Bool.not_false,
    Bool.true_and, decide_eq_true_eq]
  split
  · rw [if_neg (by omega), if_pos (by omega)]
    decide
  · split
    · rw [if_pos (by omega)]
      decide
    · rw [if_neg (by omega), if_neg (by omega)]

theorem tanhExample_zeros : TanhZeros tanhExample := ⟨by decide, by decide⟩

theorem tanhExample_bounded : TanhBounded tanhExample := by
  refine ⟨fun v hv => ?_, by decide, by decide⟩
  have h := tanhExample_spec hv
  have h1 : orderKey one = 0x3F800000 := by decide
  have h2 : orderKey minusOne = -0x3F800000 := by decide
  rw [le32_iff, le32_iff, h1, h2, h.2]
  exact ⟨⟨by decide, h.1, by omega⟩, h.1, by decide, by omega⟩

theorem tanhExample_monotone : TanhMonotone tanhExample := by
  intro v w h
  rw [le32_iff] at h ⊢
  have hv := tanhExample_spec h.1
  have hw := tanhExample_spec h.2.1
  exact ⟨hv.1, hw.1, by rw [hv.2, hw.2]; omega⟩

theorem tanhExample_nan : TanhNaN tanhExample := by
  intro v hv
  simp [tanhExample, clamp32, lt32, hv]

/-- A value whose order key is at most that of 1.0 in magnitude is at most 2^149 units. -/
theorem units_le_of_orderKey {v : F32} (h : magBits v ≤ 0x3F800000) :
    isFinite v = true ∧ |units v| ≤ 2 ^ 149 := by
  refine ⟨decide_eq_true (h.trans_lt (by decide)), ?_⟩
  have hm : magUnits v ≤ 2 ^ 149 := by
    unfold magUnits
    simp only
    split
    · have : magBits v % 2 ^ 23 < 2 ^ 23 := Nat.mod_lt _ (by norm_num)
      exact this.le.trans (by norm_num)
    · rcases Nat.lt_or_ge (magBits v / 2 ^ 23) 127 with h2 | h2
      · calc (2 ^ 23 + magBits v % 2 ^ 23) * 2 ^ (magBits v / 2 ^ 23 - 1)
            ≤ 2 ^ 24 * 2 ^ 125 := by
              gcongr
              · have : magBits v % 2 ^ 23 < 2 ^ 23 := Nat.mod_lt _ (by norm_num)
                omega
              · norm_num
              · omega
          _ = 2 ^ 149 := by norm_num
      · have : magBits v = 0x3F800000 := by omega
        rw [this]
        decide
  unfold units
  split
  · rw [abs_neg, Nat.abs_cast]
    exact_mod_cast hm
  · rw [Nat.abs_cast]
    exact_mod_cast hm

/-- A value of magnitude at most 1.0 is a real number of magnitude at most 1. -/
theorem denotes_of_small {v : F32} (h : magBits v ≤ 0x3F800000) : ∃ x : ℝ, Denotes v x ∧ |x| ≤ 1 := by
  obtain ⟨hf, hu⟩ := units_le_of_orderKey h
  refine ⟨(units v : ℝ) / 2 ^ 149, ⟨hf, by field_simp⟩, ?_⟩
  rw [abs_div, abs_of_pos (by positivity : (0 : ℝ) < 2 ^ 149), div_le_one (by positivity)]
  exact_mod_cast hu

theorem magBits_of_orderKey {v : F32} {n : Nat} (h : -(n : Int) ≤ orderKey v) (h' : orderKey v ≤ n) :
    magBits v ≤ n := by
  unfold orderKey at h h'
  split at h <;> simp_all

theorem isNaN_of_isFinite {v : F32} (h : isFinite v = true) : isNaN v = false := by
  simp [isFinite, isNaN] at *
  omega

theorem tanhExample_accurate : TanhAccurate tanhExampleUlps tanhExample := by
  intro v x hv
  have hs := tanhExample_spec (isNaN_of_isFinite hv.1)
  obtain ⟨y, hy, hy1⟩ := denotes_of_small (v := tanhExample v)
    (magBits_of_orderKey (by rw [hs.2]; omega) (by rw [hs.2]; omega))
  refine withinUlps_coarse hy ?_
  have ht := (Real.abs_tanh_lt_one x).le
  calc |y - Real.tanh x| ≤ |y| + |Real.tanh x| := abs_sub _ _
    _ ≤ 32 := by linarith

theorem pow10Example_unity : Pow10Unity pow10Example := ⟨rfl, rfl⟩

theorem pow10Example_positive : Pow10Positive pow10Example := by
  intro v _ _
  rw [pow10Example]
  decide

theorem pow10Example_monotone : Pow10Monotone pow10Example := by
  intro v w _
  rw [pow10Example, pow10Example]
  decide

/-- The range of P2 and P4 lies between -1.25 and 1.25. -/
theorem pow10Range {v : F32} {x : ℝ} (hv : Denotes v x) (h : le32 (abs32 v) pow10Limit = true) :
    x ≤ 5 / 4 := by
  have hm : magBits v ≤ 0x3F99999A := by
    have := ((le32_iff _ _).1 h).2.2
    have h1 : orderKey pow10Limit = 0x3F99999A := by decide
    rw [h1] at this
    simpa [orderKey] using this
  have hu : units v ≤ 5 * 2 ^ 147 := by
    have h2 : magUnits v ≤ 5 * 2 ^ 147 := by
      unfold magUnits
      simp only
      split
      · have : magBits v % 2 ^ 23 < 2 ^ 23 := Nat.mod_lt _ (by norm_num)
        exact this.le.trans (by norm_num)
      · rcases Nat.lt_or_ge (magBits v / 2 ^ 23) 127 with h2 | h2
        · calc (2 ^ 23 + magBits v % 2 ^ 23) * 2 ^ (magBits v / 2 ^ 23 - 1)
              ≤ 2 ^ 24 * 2 ^ 125 := by
                gcongr
                · have : magBits v % 2 ^ 23 < 2 ^ 23 := Nat.mod_lt _ (by norm_num)
                  omega
                · norm_num
                · omega
            _ ≤ 5 * 2 ^ 147 := by norm_num
        · have h3 : magBits v / 2 ^ 23 = 127 := by omega
          rw [h3]
          have h4 : magBits v % 2 ^ 23 ≤ 2 ^ 21 := by omega
          calc (2 ^ 23 + magBits v % 2 ^ 23) * 2 ^ (127 - 1) ≤ (2 ^ 23 + 2 ^ 21) * 2 ^ 126 := by gcongr
            _ ≤ 5 * 2 ^ 147 := by norm_num
    unfold units
    split
    · have : (0 : Int) ≤ magUnits v := by positivity
      calc -(magUnits v : Int) ≤ 0 := by omega
        _ ≤ 5 * 2 ^ 147 := by norm_num
    · exact_mod_cast h2
  have hx : x * 2 ^ 149 ≤ 5 * 2 ^ 147 := by
    rw [hv.2]
    exact_mod_cast hu
  have h5 : (5 : ℝ) * 2 ^ 147 = 5 / 4 * 2 ^ 149 := by norm_num
  rw [h5] at hx
  exact le_of_mul_le_mul_right hx (by positivity)

theorem pow10Example_accurate : Pow10Accurate tanhExampleUlps pow10Example := by
  intro v x hv hr
  have h1 : Denotes (pow10Example v) 1 := by
    have h : units one = 2 ^ 149 := by decide
    refine ⟨by rw [pow10Example]; decide, ?_⟩
    rw [pow10Example, h]
    norm_num
  refine withinUlps_coarse h1 ?_
  have hp : (0 : ℝ) < (10 : ℝ) ^ x := Real.rpow_pos_of_pos (by norm_num) x
  have hq : (10 : ℝ) ^ x ≤ 32 := by
    have h2 : (10 : ℝ) ^ x ≤ (10 : ℝ) ^ (5 / 4 : ℝ) :=
      Real.rpow_le_rpow_of_exponent_le (by norm_num) (pow10Range hv hr)
    have h3 : (10 : ℝ) ^ (5 / 4 : ℝ) ≤ 32 := by
      have h4 : ((10 : ℝ) ^ (5 / 4 : ℝ)) ^ 4 = 10 ^ 5 := by
        rw [← Real.rpow_natCast, ← Real.rpow_mul (by norm_num), ← Real.rpow_natCast]
        norm_num
      by_contra hc
      have h5 : (32 : ℝ) ^ 4 < ((10 : ℝ) ^ (5 / 4 : ℝ)) ^ 4 :=
        pow_lt_pow_left₀ (not_le.1 hc) (by norm_num) (by norm_num)
      rw [h4] at h5
      norm_num at h5
    exact h2.trans h3
  rw [abs_le]
  constructor <;> linarith

theorem designExample_accurate : DesignAccurate 1 0 designExample := by
  intro k f fs xf xfs b0 b1 b2 a1 a2 _ _ _ _
  have h0 : ∀ r : ℝ, WithinTolerance 1 0 plusZero r := fun r =>
    ⟨0, ⟨by decide, by
      have : units plusZero = 0 := by decide
      rw [this]
      simp⟩, by simp⟩
  exact ⟨h0 _, h0 _, h0 _, h0 _, h0 _⟩

end Sys2Proof.Machine
end

