-- ==== Sys2Proof/Config.lean ====
section
/-! DEFINITION. What the platform or the implementation fixes and the spec leaves open (00_scope.md R7,
R13, R15, R16, R17; 20_memory.md R50; 42_filter_stage.md R104; 92_eei_decisions.md, "Open parameters"),
and the free values.

Everything open is an `opaque` constant with no body: no proof can see what it is, so a claim holds for
every choice.  The three configuration functions come with the properties the spec lets a model assume
of them, as fields of a structure.  The default values of those fields only show that such a function
exists; the opaque constant is not known to be that one. -/

namespace Sys2Proof

open Machine

/-- A hyperbolic tangent the spec admits: `Tanh32` and TANH_ULPS with T1 to T6 (R15). -/
structure TanhFunction where
  ulps : Nat := tanhExampleUlps
  fn : F32 → F32 := tanhExample
  odd : TanhOdd fn := by exact tanhExample_odd
  zeros : TanhZeros fn := by exact tanhExample_zeros
  bounded : TanhBounded fn := by exact tanhExample_bounded
  monotone : TanhMonotone fn := by exact tanhExample_monotone
  nan : TanhNaN fn := by exact tanhExample_nan
  accurate : TanhAccurate ulps fn := by exact tanhExample_accurate
  deriving Inhabited

/-- A power of ten the spec admits: `Pow10_32` and POW10_ULPS with P1 to P4 (R16). -/
structure Pow10Function where
  ulps : Nat := tanhExampleUlps
  fn : F32 → F32 := pow10Example
  unity : Pow10Unity fn := by exact pow10Example_unity
  positive : Pow10Positive fn := by exact pow10Example_positive
  monotone : Pow10Monotone fn := by exact pow10Example_monotone
  accurate : Pow10Accurate ulps fn := by exact pow10Example_accurate
  deriving Inhabited

/-- A coefficient design the spec admits: `Design`, EPS_REL and EPS_ABS with DS2 (R104). -/
structure DesignFunction where
  epsRel : ℝ := 1
  epsAbs : ℝ := 0
  fn : Kind → F32 → F32 → Coef := designExample
  epsRel_nonneg : 0 ≤ epsRel := by norm_num
  epsAbs_nonneg : 0 ≤ epsAbs := by norm_num
  accurate : DesignAccurate epsRel epsAbs fn := by exact designExample_accurate
  deriving Inhabited

namespace Config

/-! ## Parameters -/

/-- FLUSH_SUBNORMALS (R13). -/
opaque flushSubnormals : Bool

/-- The upper fifteen bits of BASE. -/
opaque baseIndex : BitVec 15

/-- BASE, a 32-bit bus address that is a multiple of 0x20000 (R50). -/
def base : BitVec 32 := baseIndex ++ 0#17

/-! ## Configuration functions: total functions of their operands alone (R17) -/

/-- `Tanh32` with its properties. -/
opaque tanhFunction : TanhFunction

/-- `Pow10_32` with its properties. -/
opaque pow10Function : Pow10Function

/-- `Design` with its property. -/
opaque designFunction : DesignFunction

/-- `Tanh32 : f32 -> f32` (R15). -/
def tanh32 (v : F32) : F32 := tanhFunction.fn v

/-- `Pow10_32 : f32 -> f32` (R16). -/
def pow10 (v : F32) : F32 := pow10Function.fn v

/-- `Design(k, f, fs)` (R104). -/
def design (k : Kind) (f fs : F32) : Coef := designFunction.fn k f fs

/-! ## Free values

Each is indexed by the draw counter of the state, by the sample the step is at and by the place in the
sample's computation, so that no two uses are known to agree. -/

/-- The sign of a NaN result (93_implementation_defined.md: any value). -/
opaque nanSign : Nat → Nat → Nat → Bool

/-- The fraction, less one, of a NaN result: every nonzero fraction is possible. -/
opaque nanPayload : Nat → Nat → Nat → Fin 0x7FFFFF

/-- The NaN a primitive answers: any NaN. -/
def nan (draw sample site : Nat) : F32 :=
  ofSignMag (nanSign draw sample site) (infMag + 1 + (nanPayload draw sample site).val)

/-- What a micro-op reads from a storage word that holds no value, in a state no run reaches: any
word. -/
opaque unwrittenWord : Nat → Nat → Nat → Word

end Config

end Sys2Proof
end

