-- ==== Sys2Proof/WellFormed.lean ====
section
/-! DEFINITION. Which instructions the encoding can carry: each operand of PROCESS_BLOCK fits its field
of the command word (30_encoding.md R74).  The operands of the micro-ops have no other values than the
encodable ones, by their types. -/

namespace Sys2Proof

/-- NIN and NOUT fit two bits and LEN fits fourteen (R74, R78).  Whether the values are LEGAL is no
matter of encoding: PROCESS_BLOCK checks that when it is issued (R77, R89). -/
def Instr.wellFormed : Instr → Bool
  | .processBlock nin nout len => decide (nin < 4) && decide (nout < 4) && decide (len < 16384)
  | .prepare | .endCommand | .silence _ | .snap _ | .dryCopy _ | .shape _ | .upd _ | .run _ _
  | .mix _ | .gainCalc | .gain _ | .prep => true

end Sys2Proof
end

