-- ==== Sys2Proof/Decode.lean ====
section
/-! DEFINITION. The decoder of both encoding spaces, the 32-bit command words and the 8-bit micro-op
words, total and rejecting by name (30_encoding.md R73 to R82, R89), and the encoder written from the
same tables. -/

namespace Sys2Proof

/-! ## The numbers of the operands -/

/-- The bit K of a filter kind: 0 LP, 1 HP (R80). -/
def Kind.index : Kind → Nat
  | .lp => 0
  | .hp => 1

/-- The number of a channel. -/
def Chan.index : Chan → Nat
  | .ch0 => 0
  | .ch1 => 1

/-- The number of a parameter (R34). -/
def Param.index : Param → Nat
  | .drive => 0
  | .tone => 1
  | .hpf => 2
  | .mix => 3
  | .outgain => 4

/-- The kind of the bit K. -/
def Kind.ofIndex : Nat → Option Kind
  | 0 => some .lp
  | 1 => some .hp
  | _ => none

/-- The channel of a number, none above 1. -/
def Chan.ofIndex : Nat → Option Chan
  | 0 => some .ch0
  | 1 => some .ch1
  | _ => none

/-- The parameter of a number; 5 to 7 are reserved (R82). -/
def Param.ofIndex : Nat → Option Param
  | 0 => some .drive
  | 1 => some .tone
  | 2 => some .hpf
  | 3 => some .mix
  | 4 => some .outgain
  | _ => none

/-- Bits `hi` down to `lo` of an unsigned word, as an unsigned integer (00_scope.md R8); no field of
GDFX is sign-extended (R78). -/
def bitField {w : Nat} (v : BitVec w) (hi lo : Nat) : Nat := v.toNat / 2 ^ lo % 2 ^ (hi + 1 - lo)

/-! ## Decoding -/

/-- Why a word has no instruction. -/
inductive DecodeError where
  /-- A reserved command word (R79). -/
  | reservedCommand (w : Word)
  /-- A reserved micro-op word (R82). -/
  | reservedMicroOp (u : MicroWord)
  /-- Bytes that are neither one micro-op word nor one command word: GDFX has no other length (R73). -/
  | noSuchLength (bytes : Nat)
  deriving DecidableEq, Repr

/-- The command word: PREPARE if `w = 0x00000001`, PROCESS_BLOCK if `w & 0xFFC0000F = 0x00000002`,
reserved otherwise (R79). -/
def decodeCommand (w : Word) : Except DecodeError Instr :=
  if w = 0x00000001#32 then .ok .prepare
  else if w &&& 0xFFC0000F#32 = 0x00000002#32 then
    .ok (.processBlock (bitField w 5 4) (bitField w 7 6) (bitField w 21 8))
  else .error (.reservedCommand w)

/-- A micro-op without operands: K and OPD are zero. -/
def bare (i : Instr) (k opd : Nat) : Option Instr := if k = 0 ∧ opd = 0 then some i else none

/-- A micro-op with a channel operand: K and OPD[2:1] are zero. -/
def onChannel (f : Chan → Instr) (k opd : Nat) : Option Instr :=
  if k = 0 then (Chan.ofIndex opd).map f else none

/-- The fields CLASS, K and OPD of a micro-op word, as an instruction (R80); none for the reserved words
of R82. -/
def decodeFields (cls k opd : Nat) : Option Instr :=
  match cls with
  | 0x0 => bare .endCommand k opd
  | 0x1 => onChannel .silence k opd
  | 0x2 => if k = 0 then (Param.ofIndex opd).map .snap else none
  | 0x3 => onChannel .dryCopy k opd
  | 0x4 => onChannel .shape k opd
  | 0x5 => if opd = 0 then (Kind.ofIndex k).map .upd else none
  | 0x6 => (Kind.ofIndex k).bind fun kind => (Chan.ofIndex opd).map (.run kind)
  | 0x7 => onChannel .mix k opd
  | 0x8 => bare .gainCalc k opd
  | 0x9 => onChannel .gain k opd
  | 0xA => bare .prep k opd
  | _ => none

/-- The micro-op word `u` with CLASS = u[7:4], K = u[3] and OPD = u[2:0] (R80). -/
def decodeMicro (u : MicroWord) : Except DecodeError Instr :=
  match decodeFields (bitField u 7 4) (bitField u 3 3) (bitField u 2 0) with
  | some i => .ok i
  | none => .error (.reservedMicroOp u)

/-- Four bytes as the word they hold, little-endian (20_memory.md R54). -/
def wordOfBytes (b0 b1 b2 b3 : Byte) : Word := b3 ++ b2 ++ b1 ++ b0

/-- An instruction from its bytes: one byte is a micro-op word, four are a command word in the byte
order of R54; GDFX has no other length (R73). -/
def decodeBytes : List Byte → Except DecodeError Instr
  | [u] => decodeMicro u
  | [b0, b1, b2, b3] => decodeCommand (wordOfBytes b0 b1 b2 b3)
  | bs => .error (.noSuchLength bs.length)

/-! ## Encoding -/

/-- A word of one of the two encoding spaces (R73). -/
inductive Encoded where
  | command (w : Word)
  | micro (u : MicroWord)
  deriving DecidableEq, Repr

/-- The command word of its fields: RSV = 0, LEN, NOUT, NIN, OP from bit 31 down (R74). -/
def commandWord (op nin nout len : Nat) : Word :=
  0#10 ++ BitVec.ofNat 14 len ++ BitVec.ofNat 2 nout ++ BitVec.ofNat 2 nin ++ BitVec.ofNat 4 op

/-- The micro-op word `{CLASS, K, OPD}` (R80). -/
def microWord (cls k opd : Nat) : MicroWord := BitVec.ofNat 4 cls ++ BitVec.ofNat 1 k ++ BitVec.ofNat 3 opd

/-- The word of an instruction, from the tables of R74 and R80. -/
def encode : Instr → Encoded
  | .prepare => .command (commandWord 0x1 0 0 0)
  | .processBlock nin nout len => .command (commandWord 0x2 nin nout len)
  | .endCommand => .micro (microWord 0x0 0 0)
  | .silence c => .micro (microWord 0x1 0 c.index)
  | .snap p => .micro (microWord 0x2 0 p.index)
  | .dryCopy c => .micro (microWord 0x3 0 c.index)
  | .shape c => .micro (microWord 0x4 0 c.index)
  | .upd k => .micro (microWord 0x5 k.index 0)
  | .run k c => .micro (microWord 0x6 k.index c.index)
  | .mix c => .micro (microWord 0x7 0 c.index)
  | .gainCalc => .micro (microWord 0x8 0 0)
  | .gain c => .micro (microWord 0x9 0 c.index)
  | .prep => .micro (microWord 0xA 0 0)

/-- The decoder of a word of either space. -/
def decode : Encoded → Except DecodeError Instr
  | .command w => decodeCommand w
  | .micro u => decodeMicro u

/-- The bytes of an encoded word; a command word is little-endian (R54). -/
def Encoded.bytes : Encoded → List Byte
  | .command w => [w.extractLsb' 0 8, w.extractLsb' 8 8, w.extractLsb' 16 8, w.extractLsb' 24 8]
  | .micro u => [u]

/-- The instructions of the sequencer: all but the two host commands (R73). -/
def Instr.isMicroOp : Instr → Bool
  | .prepare | .processBlock _ _ _ => false
  | .endCommand | .silence _ | .snap _ | .dryCopy _ | .shape _ | .upd _ | .run _ _ | .mix _ | .gainCalc
  | .gain _ | .prep => true

/-- The micro-op word of an instruction, as it stands in SEQ; for a command, which is never in SEQ, the
low byte of its word. -/
def Instr.seqWord (i : Instr) : MicroWord :=
  match encode i with
  | .command w => w.setWidth 8
  | .micro u => u

/-- The 32-bit word of an instruction, as a fault record shows it; a micro-op word is zero-extended. -/
def Instr.word (i : Instr) : Word :=
  match encode i with
  | .command w => w
  | .micro u => u.setWidth 32

/-! ## The opcode table's numbering -/

/-- The first `n` bytes of a number, least significant first. -/
def bytesOf : Nat → Nat → List Byte
  | 0, _ => []
  | n + 1, w => BitVec.ofNat 8 w :: bytesOf n (w / 256)

/-- The instruction the decoder reads from a row of spec/opcode_table.json: `nbits` bits numbered from
the least significant, laid out as bytes in the order of R54. -/
def decodeTableWord (nbits w : Nat) : Option Instr := (decodeBytes (bytesOf ((nbits + 7) / 8) w)).toOption

end Sys2Proof
end

