-- ==== Sys2Proof/Machine/State.lean ====
section
/-! DEFINITION. The state of GDFX as plain data (10_state.md R48), the reasons a step can stop, and the
state after a hardware reset (R45, 70_reset_and_hazards.md R171). -/

namespace Sys2Proof.Machine

/-! ## The parts of the state -/

/-- MODE (R28). -/
inductive Mode where
  | unprepared
  | prepared
  deriving DecidableEq, Repr

/-- One value for each filter kind. -/
structure PerKind (α : Type) where
  lp : α
  hp : α
  deriving DecidableEq, Repr

/-- One value for each channel. -/
structure PerChan (α : Type) where
  ch0 : α
  ch1 : α
  deriving DecidableEq, Repr

/-- One value for each parameter. -/
structure PerParam (α : Type) where
  drive : α
  tone : α
  hpf : α
  mix : α
  outgain : α
  deriving DecidableEq, Repr

/-- The delay memory of one filter state: the previous two inputs and the previous two outputs (R32). -/
structure Delay where
  x1 : F32
  x2 : F32
  y1 : F32
  y2 : F32
  deriving DecidableEq, Repr

/-- CUR, the context of the command in progress (R37).  Its fourth part B is `max(NIN, NOUT)`: it is
computed, `Cur.b`. -/
structure Cur where
  nin : Nat
  nout : Nat
  len : Nat
  deriving DecidableEq, Repr

/-- Storage by byte: (address, byte) pairs, the addresses strictly rising.  An address that is not
listed holds no value: its written tag is false (R27). -/
abbrev Memory := List Host.Cell

/-! ## Agents, bus accesses and turns (20_memory.md R64, R65) -/

/-- The agents that take steps (R64). -/
inductive Agent where
  | host
  | paramWriter
  | sequencer
  deriving DecidableEq, Repr

/-- What a bus access does; the word of a write matters only for a 32-bit access. -/
inductive BusOp where
  | read
  | write (v : Word)
  deriving DecidableEq, Repr

/-- One bus access to the window: its width in bits, the byte offset from BASE, and what it does (R50,
R56, R59). -/
structure Access where
  width : Nat
  off : BitVec 17
  op : BusOp
  deriving DecidableEq, Repr

/-- Whose step comes next in the total order of all steps (R65), or the reset input (R171). -/
inductive Turn where
  | host (x : Access)
  | paramWriter (x : Access)
  | sequencer
  | reset
  deriving DecidableEq, Repr

/-! ## Model faults (60_exceptions.md R152 to R154) -/

/-- The eight fault codes (R153). -/
inductive FaultCode where
  | unpreparedProcess
  | reservedCommand
  | channelConfig
  | blockTooLong
  | paramRange
  | hostBusyAccess
  | busAccess
  | unwrittenRead
  deriving DecidableEq, Repr

/-- The value a fault records, the last column of R153. -/
inductive FaultDetail where
  /-- The command word. -/
  | command (w : Word)
  /-- p and the word read. -/
  | parameterValue (p : Param) (v : F32)
  /-- p. -/
  | parameter (p : Param)
  /-- The offset of the word that holds no value. -/
  | offset (off : Nat)
  /-- The offset, and read or write. -/
  | busy (off : Nat) (isWrite : Bool)
  /-- The offset, the width in bits, and read or write. -/
  | bus (off width : Nat) (isWrite : Bool)
  deriving DecidableEq, Repr

/-- What FAULT holds once a fault is raised: the code, the agent that took the faulting step, and the
recorded value (R154). -/
structure FaultRecord where
  code : FaultCode
  agent : Agent
  detail : FaultDetail
  deriving DecidableEq, Repr

/-! ## The state -/

/-- The state record of R48, and below the line the fields of the model's own. -/
structure State where
  /-- MODE (R28). -/
  mode : Mode
  /-- BUSY (R25). -/
  busy : Bool
  /-- SEQ, the micro-op words the current command still has to perform (R19, R81). -/
  seq : List MicroWord
  /-- FAULT (R38). -/
  fault : Option FaultRecord
  /-- CUR (R37). -/
  cur : Cur
  /-- SAMPLE_RATE with its written tag: `none` is unwritten, a word that holds no value (R26, R27). -/
  sampleRate : Option F32
  /-- PARAM[0..4] with their written tags (R27, R33). -/
  param : PerParam (Option F32)
  /-- SR (R29). -/
  sr : F32
  /-- COEF[k] (R30). -/
  coef : PerKind Coef
  /-- CACHED[k] (R31). -/
  cached : PerKind F32
  /-- DLY[k][c] (R32). -/
  dly : PerKind (PerChan Delay)
  /-- SNAP[p] (R35). -/
  snap : PerParam F32
  /-- GLIN (R36). -/
  glin : F32
  /-- BUF[c][i], by its byte offset in the window, with its written tags (R42). -/
  buf : Memory
  /-- DRY[c][i], by its byte index in the dry store, which no bus access reaches (R43). -/
  dry : Memory
  /-- The model's own: the turns still to come, in order; past the last one the sequencer moves. -/
  turns : List Turn
  /-- The model's own: the agent whose turn it is, for the record of R154. -/
  actor : Agent
  /-- The model's own: the word the last accepted bus read returned to its agent. -/
  busData : Option Word
  /-- The model's own: how many steps have drawn free values; it indexes them. -/
  draws : Nat
  deriving DecidableEq, Repr

/-! ## Why a step can stop -/

/-- A stuck state: no agent has a step. -/
inductive Fault where
  /-- Raised by `step` in a state whose FAULT is set, unless the reset input comes next: no agent has a
  step, and only a reset leaves the state (R152, R156).  Safe: the spec claims nothing of such a state. -/
  | quiescent (f : FaultRecord)
  /-- Raised by `step` when it is the sequencer's turn, BUSY is 1 and SEQ is empty: the spec gives the
  sequencer no step there, and no run reaches such a state (R81, R139).  Safe. -/
  | emptySequence
  deriving DecidableEq, Repr

/-- A word the model has no meaning for. -/
inductive Refusal where
  /-- Raised by `exec` for an instruction that has no meaning yet.  Safe. -/
  | notModelled (mnemonic : String)
  /-- Raised by `step` for a reserved micro-op word at the head of SEQ: "A model that meets one in `SEQ`
  refuses" (30_encoding.md R82).  Safe: no sequence holds one. -/
  | reservedMicroOp (u : MicroWord)
  deriving DecidableEq, Repr

/-! ## Reset (R45, R171) -/

/-- The delay memory of a filter at rest. -/
def Delay.zero : Delay := { x1 := plusZero, x2 := plusZero, y1 := plusZero, y2 := plusZero }

/-- A coefficient set of zeros. -/
def Coef.zero : Coef :=
  { b0 := plusZero, b1 := plusZero, b2 := plusZero, a1 := plusZero, a2 := plusZero }

/-- The machine right after a hardware reset (R45).  MODE, BUSY, SEQ, FAULT, SAMPLE_RATE, PARAM and BUF
are as R45 says; DESIGN CHOICE (unsafe, assumption 1): the internal registers R45 leaves unspecified are
zero, and CUR is the smallest legal context.  No rule reads them before a micro-op writes them. -/
def State.reset : State :=
  { mode := .unprepared
    busy := false
    seq := []
    fault := none
    cur := { nin := 1, nout := 1, len := 0 }
    sampleRate := none
    param := { drive := none, tone := none, hpf := none, mix := none, outgain := none }
    sr := plusZero
    coef := { lp := Coef.zero, hp := Coef.zero }
    cached := { lp := plusZero, hp := plusZero }
    dly := { lp := { ch0 := Delay.zero, ch1 := Delay.zero }, hp := { ch0 := Delay.zero, ch1 := Delay.zero } }
    snap := { drive := plusZero, tone := plusZero, hpf := plusZero, mix := plusZero, outgain := plusZero }
    glin := plusZero
    buf := []
    dry := []
    turns := []
    actor := .host
    busData := none
    draws := 0 }

end Sys2Proof.Machine
end

