-- ==== Sys2Proof/Machine/Operands.lean ====
section
/-! DEFINITION. The operand forms: a filter kind, a channel, a parameter index, a sample index; where a
sample word lies (20_memory.md R52); the range of a parameter (40_parameter_snapshot.md R93); the operands
of PROCESS_BLOCK (30_encoding.md R77). -/

namespace Sys2Proof.Machine

/-! ## Selecting by kind, channel and parameter -/

def PerKind.get {α : Type} (t : PerKind α) : Kind → α
  | .lp => t.lp
  | .hp => t.hp

def PerKind.set {α : Type} (t : PerKind α) (k : Kind) (v : α) : PerKind α :=
  match k with
  | .lp => { t with lp := v }
  | .hp => { t with hp := v }

def PerChan.get {α : Type} (t : PerChan α) : Chan → α
  | .ch0 => t.ch0
  | .ch1 => t.ch1

def PerChan.set {α : Type} (t : PerChan α) (c : Chan) (v : α) : PerChan α :=
  match c with
  | .ch0 => { t with ch0 := v }
  | .ch1 => { t with ch1 := v }

def PerParam.get {α : Type} (t : PerParam α) : Param → α
  | .drive => t.drive
  | .tone => t.tone
  | .hpf => t.hpf
  | .mix => t.mix
  | .outgain => t.outgain

def PerParam.set {α : Type} (t : PerParam α) (p : Param) (v : α) : PerParam α :=
  match p with
  | .drive => { t with drive := v }
  | .tone => { t with tone := v }
  | .hpf => { t with hpf := v }
  | .mix => { t with mix := v }
  | .outgain => { t with outgain := v }

/-- The kinds and the parameters in the order of their numbers. -/
def allParams : List Param := [.drive, .tone, .hpf, .mix, .outgain]

/-- The channels `lo, …, hi-1` (45_pipeline.md R134). -/
def channels (lo hi : Nat) : List Chan :=
  [Chan.ch0, Chan.ch1].filter fun c => decide (lo ≤ c.index) && decide (c.index < hi)

/-! ## Sample words -/

/-- MAX_BLOCK_LEN, the samples of a channel (R7, R42). -/
def maxBlockLen : Nat := 8192

/-- The byte offset of `BUF[c][i]` in the window: `0x10000 + 0x8000*c + 4*i` (R52). -/
def bufOffset (c : Chan) (i : Nat) : Nat := 0x10000 + 0x8000 * c.index + 4 * i

/-- The byte index of `DRY[c][i]` in the dry store, which has no offset in the window (R43). -/
def dryIndex (c : Chan) (i : Nat) : Nat := 0x8000 * c.index + 4 * i

/-! ## Parameters -/

/-- `InRange(p, v)` (R93). -/
def inRange (p : Param) (v : F32) : Bool :=
  match p with
  | .drive | .mix => le32 plusZero v && le32 v one
  | .outgain => le32 minusTwentyFour v && le32 v twentyFour
  | .tone | .hpf => !isNaN v

/-- The parameter that controls a filter kind: TONE for LP, HPF for HP (42_filter_stage.md R109). -/
def cutoffParam : Kind → Param
  | .lp => .tone
  | .hp => .hpf

/-! ## PROCESS_BLOCK -/

/-- A legal channel count (R77). -/
def legalChannelCount (n : Nat) : Bool := decide (n = 1 ∨ n = 2)

/-- B, the buffer channels of a block: `max(NIN, NOUT)` (R37). -/
def Cur.b (cur : Cur) : Nat := max cur.nin cur.nout

end Sys2Proof.Machine
end

