-- ==== Sys2Proof/Machine/Flags.lean ====
section
/-! DEFINITION. The two status bits, the only flags GDFX has (10_state.md R20, R23), and the numbers of the
fault codes (60_exceptions.md R153). -/

namespace Sys2Proof.Machine

/-- STATUS bit 0, PREPARED: 1 exactly when MODE = Prepared (R23). -/
def preparedBit (s : State) : Bool := decide (s.mode = .prepared)

/-- STATUS bit 1, BUSY (R23, R25). -/
def busyBit (s : State) : Bool := s.busy

/-- STATUS: bit 0 PREPARED, bit 1 BUSY, bits 31:2 zero (R21, R23). -/
def statusWord (s : State) : Word :=
  0#30 ++ BitVec.ofBool (busyBit s) ++ BitVec.ofBool (preparedBit s)

/-- The number of a fault code (R153). -/
def FaultCode.number : FaultCode → Nat
  | .unpreparedProcess => 1
  | .reservedCommand => 2
  | .channelConfig => 3
  | .blockTooLong => 4
  | .paramRange => 5
  | .hostBusyAccess => 6
  | .busAccess => 7
  | .unwrittenRead => 8

end Sys2Proof.Machine
end

