-- ==== Sys2Proof/Machine/Memory.lean ====
section
/-! DEFINITION. Storage: the canonical form, reading and writing a byte, a little-endian word of four bytes
(20_memory.md R54), and the sample loops that rewrite a run of words in increasing index order. -/

namespace Sys2Proof.Machine

/-! ## Bytes -/

/-- The canonical form: the addresses strictly rise.  An unlisted address holds no value, and every listed
one holds a byte, so no entry equals what an unlisted address reads as. -/
abbrev Memory.wf (m : Memory) : Prop := m.Pairwise fun x y => x.1 < y.1

/-- The byte at an address; none where nothing has been written. -/
def Memory.byte? : Memory → Nat → Option Byte
  | [], _ => none
  | (k, v) :: rest, a => if k = a then some v else Memory.byte? rest a

/-- Write a byte, keeping the canonical form. -/
def Memory.setByte : Memory → Nat → Byte → Memory
  | [], a, b => [(a, b)]
  | (k, v) :: rest, a, b =>
    if a < k then (a, b) :: (k, v) :: rest
    else if a = k then (a, b) :: rest
    else (k, v) :: Memory.setByte rest a b

/-! ## Words -/

/-- The word at a byte address, little-endian (R54); none while it is unwritten (R27). -/
def Memory.word? (m : Memory) (a : Nat) : Option Word :=
  match m.byte? a, m.byte? (a + 1), m.byte? (a + 2), m.byte? (a + 3) with
  | some b0, some b1, some b2, some b3 => some (wordOfBytes b0 b1 b2 b3)
  | _, _, _, _ => none

/-- Write a word: byte `a + j` gets bits `[8j+7 : 8j]` (R54).  It sets the word's written tag (R27). -/
def Memory.setWord (m : Memory) (a : Nat) (v : Word) : Memory :=
  (((m.setByte a (v.extractLsb' 0 8)).setByte (a + 1) (v.extractLsb' 8 8)).setByte (a + 2)
    (v.extractLsb' 16 8)).setByte (a + 3) (v.extractLsb' 24 8)

/-! ## Sample loops -/

/-- Replace the word at `a` by a function of what it holds. -/
def Memory.updateWord (m : Memory) (a : Nat) (f : Option Word → Word) : Memory := m.setWord a (f (m.word? a))

/-- `for i in 0..n-1`: replace the word at `key i` by `f i` of what it holds. -/
def Memory.mapWords (m : Memory) (key : Nat → Nat) (f : Nat → Option Word → Word) : Nat → Memory
  | 0 => m
  | n + 1 => (m.mapWords key f n).updateWord (key n) (f n)

end Sys2Proof.Machine
end

