-- ==== Sys2Proof/Machine/Ops.lean ====
section
/-! DEFINITION. The operations the meanings share: raising a model fault (60_exceptions.md R152), removing
the head of SEQ (30_encoding.md R81), the free values of a step, and the words of BUF and DRY as a micro-op
reads and writes them (20_memory.md R63).

GDFX has no trap entry and no return (R151, R156): raising a fault is all there is to take. -/

namespace Sys2Proof.Machine

/-- `raise Fault(code)`: FAULT becomes the code, with the agent and the recorded value (R154), if it is
none; a record it holds stays, and nothing else changes (R152). -/
def State.raise (code : FaultCode) (detail : FaultDetail) (s : State) : State :=
  { s with fault := some (s.fault.getD { code := code, agent := s.actor, detail := detail }) }

/-- A micro-op has been performed: the sequencer removes the head of SEQ (R81).  The draw counter moves on,
so that the next step has free values of its own. -/
def State.retire (s : State) : State := { s with seq := s.seq.tail, draws := s.draws + 1 }

/-- The primitives of sample `i` in this step. -/
def State.fp (s : State) (i : Nat) : Fp := { flush := Config.flushSubnormals, nan := Config.nan s.draws i }

/-- `BUF[c][i]` as a micro-op reads it.  Every word a block reads is written (R133, R138); a word that is
not is any value. -/
def State.bufWord (s : State) (c : Chan) (i : Nat) : F32 :=
  (s.buf.word? (bufOffset c i)).getD (Config.unwrittenWord s.draws i 0)

/-- `DRY[c][i]` as a micro-op reads it; MIX reads only what DRYCOPY of the same block wrote (R43). -/
def State.dryWord (s : State) (c : Chan) (i : Nat) : F32 :=
  (s.dry.word? (dryIndex c i)).getD (Config.unwrittenWord s.draws i 1)

/-- `for i in 0..LEN-1: BUF[c][i] <- f i BUF[c][i]`: a micro-op that works on one channel in place. -/
def State.mapBuf (s : State) (c : Chan) (f : Nat → F32 → F32) : State :=
  { s with
    buf := s.buf.mapWords (bufOffset c)
      (fun i old => f i (old.getD (Config.unwrittenWord s.draws i 0))) s.cur.len }

end Sys2Proof.Machine
end

