-- ==== Sys2Proof/Machine/Commands.lean ====
section
/-! DEFINITION. The two host commands, PREPARE (45_pipeline.md R132) and PROCESS_BLOCK (R133), and the
micro-op sequences they load (R134).  They run in the host's write to CMD, after the checks of
20_memory.md R59. -/

namespace Sys2Proof.Machine

/-- The micro-ops PREPARE loads (R132). -/
def prepareSequence : List Instr := [.prep, .endCommand]

/-- `Sequence(NIN, NOUT)`, one line for each step of the source's algorithm (R134). -/
def blockSequence (nin nout : Nat) : List Instr :=
  List.flatten
    [ (channels nin (max nin nout)).map Instr.silence,
      allParams.map Instr.snap,
      (channels 0 (max nin nout)).map Instr.dryCopy,
      (channels 0 nin).map Instr.shape,
      (channels 0 nin).flatMap fun c => [Instr.upd .lp, Instr.run .lp c],
      (channels 0 nin).flatMap fun c => [Instr.upd .hp, Instr.run .hp c],
      (channels 0 (max nin nout)).map Instr.mix,
      [Instr.gainCalc],
      (channels 0 (max nin nout)).map Instr.gain,
      [Instr.endCommand] ]

/-- A sequence as SEQ holds it: micro-op words. -/
def sequenceWords (is : List Instr) : List MicroWord := is.map Instr.seqWord

/-- PREPARE (R132). -/
def execPrepare (s : State) : Host.Outcome State Fault Refusal :=
  .next <|
    match s.sampleRate with
    | none => s.raise .unwrittenRead (.offset 0x008)
    | some _ => { s with busy := true, seq := sequenceWords prepareSequence }

/-- The offset of the first input word of a channel that is unwritten, in index order. -/
def unwrittenIn (m : Memory) (c : Chan) (len : Nat) : Option Nat :=
  ((List.range len).map (bufOffset c)).find? fun a => (m.word? a).isNone

/-- The offset of the first input word of a block that is unwritten: `for c in 0..nin-1: for i in
0..len-1` (R133). -/
def unwrittenInput (m : Memory) (nin len : Nat) : Option Nat :=
  (channels 0 nin).findSome? fun c => unwrittenIn m c len

/-- PROCESS_BLOCK (R133), its checks in the order written. -/
def execProcessBlock (nin nout len : Nat) (s : State) : Host.Outcome State Fault Refusal :=
  .next <|
    let word := FaultDetail.command (Instr.processBlock nin nout len).word
    if s.mode = .unprepared then s.raise .unpreparedProcess word
    else if !(legalChannelCount nin && legalChannelCount nout) then s.raise .channelConfig word
    else if maxBlockLen < len then s.raise .blockTooLong word
    else
      match unwrittenInput s.buf nin len with
      | some a => s.raise .unwrittenRead (.offset a)
      | none =>
        { s with
          cur := { nin := nin, nout := nout, len := len }
          busy := true
          seq := sequenceWords (blockSequence nin nout) }

end Sys2Proof.Machine
end

