-- ==== Sys2Proof/Machine/Filter.lean ====
section
/-! DEFINITION. The filter stages: UPD k (42_filter_stage.md R110) and RUN k,c (R114). -/

namespace Sys2Proof.Machine

/-- The clamped target cutoff of UPD (R110, R113). -/
def targetCutoff (k : Kind) (s : State) : F32 := clamp32 (s.snap.get (cutoffParam k)) twenty twentyThousand

/-- The hysteresis test `abs32(sub32(t, CACHED[k])) > 1.0` (R110, R111). -/
def cutoffMoved (e : Fp) (t cached : F32) : Bool := lt32 one (abs32 (e.sub 0 t cached))

/-- UPD k (R110): COEF[k] and CACHED[k] change when the test holds and stay otherwise. -/
def execUpd (k : Kind) (s : State) : Host.Outcome State Fault Refusal :=
  .next <| State.retire <|
    let t := targetCutoff k s
    let moved := cutoffMoved (s.fp 0) t (s.cached.get k)
    { s with
      coef := if moved then s.coef.set k (Config.design k t s.sr) else s.coef
      cached := if moved then s.cached.set k t else s.cached }

/-- One output of the direct form I recurrence, its products added in the order written (R114). -/
def filterSample (e : Fp) (co : Coef) (d : Delay) (x : F32) : F32 :=
  let s := e.mul 0 co.b0 x
  let s := e.add 2 s (e.mul 1 co.b1 d.x1)
  let s := e.add 4 s (e.mul 3 co.b2 d.x2)
  let s := e.sub 6 s (e.mul 5 co.a1 d.y1)
  e.sub 8 s (e.mul 7 co.a2 d.y2)

/-- The delay memory after one sample: `(x, x1, s, y1)` (R114). -/
def Delay.push (d : Delay) (x y : F32) : Delay := { x1 := x, x2 := d.x1, y1 := y, y2 := d.y1 }

/-- One iteration of RUN: from the delay memory and the sample RAM before sample `i` to those after it. -/
def filterStep (fp : Nat → Fp) (co : Coef) (key : Nat → Nat) (absent : Nat → Word) (i : Nat)
    (r : Delay × Memory) : Delay × Memory :=
  let x := (r.2.word? (key i)).getD (absent i)
  let y := filterSample (fp i) co r.1 x
  (r.1.push x y, r.2.setWord (key i) y)

/-- `for i in 0..n-1` of RUN, in sample order: the recursion is sequential (R114, R186). -/
def filterLoop (fp : Nat → Fp) (co : Coef) (key : Nat → Nat) (absent : Nat → Word) (r : Delay × Memory) :
    Nat → Delay × Memory
  | 0 => r
  | n + 1 => filterStep fp co key absent n (filterLoop fp co key absent r n)

/-- The delay memory after the samples `0, …, n-1` of a channel whose inputs are `x`, as the recurrence
gives it (R115): what the statements about RUN compare the loop with. -/
def delayAfter (fp : Nat → Fp) (co : Coef) (x : Nat → F32) (d : Delay) : Nat → Delay
  | 0 => d
  | n + 1 =>
    (delayAfter fp co x d n).push (x n) (filterSample (fp n) co (delayAfter fp co x d n) (x n))

/-- The output of the recurrence at sample `n` (R115). -/
def filterOutput (fp : Nat → Fp) (co : Coef) (x : Nat → F32) (d : Delay) (n : Nat) : F32 :=
  filterSample (fp n) co (delayAfter fp co x d n) (x n)

/-- RUN k,c (R114). -/
def execRun (k : Kind) (c : Chan) (s : State) : Host.Outcome State Fault Refusal :=
  .next <| State.retire <|
    let r := filterLoop s.fp (s.coef.get k) (bufOffset c) (fun i => Config.unwrittenWord s.draws i 0)
      ((s.dly.get k).get c, s.buf) s.cur.len
    { s with dly := s.dly.set k ((s.dly.get k).set c r.1), buf := r.2 }

end Sys2Proof.Machine
end

