-- ==== Sys2Proof/Machine/Mixer.lean ====
section
/-! DEFINITION. The mixer: MIX c (43_mixer.md R121). -/

namespace Sys2Proof.Machine

/-- `mc <- sub32(1.0, m)`, computed once for the block. -/
def dryWeight (e : Fp) (m : F32) : F32 := e.sub 3 one m

/-- `add32(mul32(dry, mc), mul32(wet, m))`. -/
def mixSample (e : Fp) (m mc dry wet : F32) : F32 := e.add 2 (e.mul 0 dry mc) (e.mul 1 wet m)

/-- MIX c (R121). -/
def execMix (c : Chan) (s : State) : Host.Outcome State Fault Refusal :=
  .next <| State.retire <|
    s.mapBuf c fun i wet =>
      mixSample (s.fp i) s.snap.mix (dryWeight (s.fp 0) s.snap.mix) (s.dryWord c i) wet

end Sys2Proof.Machine
end

