-- ==== Sys2Proof/Machine/Output.lean ====
section
/-! DEFINITION. The output stage: GAINCALC (44_output_stage.md R126) and GAIN c (R128). -/

namespace Sys2Proof.Machine

/-- `Pow10_32(div32(g, 20.0))`. -/
def linearGain (e : Fp) (g : F32) : F32 := Config.pow10 (e.div 0 g twenty)

/-- GAINCALC (R126). -/
def execGainCalc (s : State) : Host.Outcome State Fault Refusal :=
  .next (State.retire { s with glin := linearGain (s.fp 0) s.snap.outgain })

/-- `mul32(BUF[c][i], GLIN)`. -/
def gainSample (e : Fp) (g x : F32) : F32 := e.mul 0 x g

/-- GAIN c (R128). -/
def execGain (c : Chan) (s : State) : Host.Outcome State Fault Refusal :=
  .next (State.retire (s.mapBuf c fun i x => gainSample (s.fp i) s.glin x))

end Sys2Proof.Machine
end

