-- ==== Sys2Proof/Machine/Pipeline.lean ====
section
/-! DEFINITION. The micro-ops of the pipeline that belong to no other unit: PREP, SILENCE c, DRYCOPY c and
END (45_pipeline.md R136 to R139). -/

namespace Sys2Proof.Machine

/-- SAMPLE_RATE as PREP reads it; PREPARE has checked that it is written, and where it is not it is any
value. -/
def latchedRate (s : State) : F32 := s.sampleRate.getD (Config.unwrittenWord s.draws 0 0)

/-- PREP (R136). -/
def execPrep (s : State) : Host.Outcome State Fault Refusal :=
  .next <| State.retire <|
    let fs := latchedRate s
    { s with
      sr := fs
      coef := { lp := Config.design .lp twenty fs, hp := Config.design .hp twenty fs }
      cached := { lp := twenty, hp := twenty }
      dly := { lp := { ch0 := Delay.zero, ch1 := Delay.zero }, hp := { ch0 := Delay.zero, ch1 := Delay.zero } }
      mode := .prepared }

/-- SILENCE c (R137). -/
def execSilence (c : Chan) (s : State) : Host.Outcome State Fault Refusal :=
  .next (State.retire (s.mapBuf c fun _ _ => plusZero))

/-- DRYCOPY c (R138): bit for bit. -/
def execDryCopy (c : Chan) (s : State) : Host.Outcome State Fault Refusal :=
  .next <| State.retire
    { s with dry := s.dry.mapWords (dryIndex c) (fun i _ => s.bufWord c i) s.cur.len }

/-- END (R139). -/
def execEndCommand (s : State) : Host.Outcome State Fault Refusal :=
  .next (State.retire { s with busy := false })

end Sys2Proof.Machine
end

