-- ==== Sys2Proof/Machine/Snapshot.lean ====
section
/-! DEFINITION. The parameter snapshot: SNAP p (40_parameter_snapshot.md R91). -/

namespace Sys2Proof.Machine

/-- SNAP p (R91): fault if PARAM[p] is unwritten or out of range, else SNAP[p] becomes the value read, bit
for bit (R95). -/
def execSnap (p : Param) (s : State) : Host.Outcome State Fault Refusal :=
  .next <|
    match s.param.get p with
    | none => s.raise .unwrittenRead (.parameter p)
    | some v =>
      if inRange p v then State.retire { s with snap := s.snap.set p v }
      else s.raise .paramRange (.parameterValue p v)

end Sys2Proof.Machine
end

