-- ==== Sys2Proof/Machine/Waveshaper.lean ====
section
/-! DEFINITION. The waveshaper: SHAPE c (41_waveshaper.md R98). -/

namespace Sys2Proof.Machine

/-- `Tanh32(mul32(mul32(d, x), 12.0))`.  DESIGN CHOICE (unsafe, assumption 19): a positive subnormal `d` is read as
a zero where FLUSH_SUBNORMALS is set (R13), so `x = ±inf` then gives a NaN, and not the ±1.0 of R103. -/
def shapeSample (e : Fp) (d x : F32) : F32 := Config.tanh32 (e.mul 1 (e.mul 0 d x) shapingK)

/-- SHAPE c (R98). -/
def execShape (c : Chan) (s : State) : Host.Outcome State Fault Refusal :=
  .next (State.retire (s.mapBuf c fun i x => shapeSample (s.fp i) s.snap.drive x))

end Sys2Proof.Machine
end

