-- ==== Sys2Proof/Machine/Dispatch.lean ====
section
/-! DEFINITION. One arm per instruction. -/

namespace Sys2Proof.Machine

def exec (i : Instr) (s : State) : Host.Outcome State Fault Refusal :=
  match i with
  | .prepare => Sys2Proof.Machine.execPrepare s
  | .processBlock nin nout len => Sys2Proof.Machine.execProcessBlock nin nout len s
  | .endCommand => Sys2Proof.Machine.execEndCommand s
  | .silence c => Sys2Proof.Machine.execSilence c s
  | .snap p => Sys2Proof.Machine.execSnap p s
  | .dryCopy c => Sys2Proof.Machine.execDryCopy c s
  | .shape c => Sys2Proof.Machine.execShape c s
  | .upd k => Sys2Proof.Machine.execUpd k s
  | .run k c => Sys2Proof.Machine.execRun k c s
  | .mix c => Sys2Proof.Machine.execMix c s
  | .gainCalc => Sys2Proof.Machine.execGainCalc s
  | .gain c => Sys2Proof.Machine.execGain c s
  | .prep => Sys2Proof.Machine.execPrep s

end Sys2Proof.Machine
end

