-- ==== Sys2Proof/Machine/Bus.lean ====
section
/-! DEFINITION. The host bus: the window and its map (20_memory.md R49 to R53), and the primitives
`MemRead` and `MemWrite` with their checks in the order written (R59, 60_exceptions.md R157). -/

namespace Sys2Proof.Machine

/-! ## The window -/

/-- The offset of a bus address in the window `[BASE, BASE + 0x20000)`; none outside it (R50). -/
def windowOffset? (addr : BitVec 32) : Option (BitVec 17) :=
  if addr.extractLsb' 17 15 = Config.base.extractLsb' 17 15 then some (addr.extractLsb' 0 17) else none

/-- What an aligned offset names (R51 to R53). -/
inductive Target where
  | cmd
  | status
  | sampleRate
  | param (p : Param)
  | sample (c : Chan) (i : Nat)
  | reserved
  deriving DecidableEq, Repr

/-- The sample word at an offset of the sample-RAM region: `c = off[15]`, `i = off[14:2]` (R52). -/
def sampleTarget (off : BitVec 17) : Target :=
  .sample (if bitField off 15 15 = 0 then .ch0 else .ch1) (bitField off 14 2)

/-- The register at an offset of the register region (R51, R53). -/
def registerTarget : Nat → Target
  | 0x000 => .cmd
  | 0x004 => .status
  | 0x008 => .sampleRate
  | 0x010 => .param .drive
  | 0x014 => .param .tone
  | 0x018 => .param .hpf
  | 0x01C => .param .mix
  | 0x020 => .param .outgain
  | _ => .reserved

/-- What an offset names; the sample RAM is the upper half of the window (R49). -/
def target (off : BitVec 17) : Target :=
  if 0x10000 ≤ off.toNat then sampleTarget off else registerTarget off.toNat

/-! ## Access checks -/

/-- Does the access write? -/
def Access.isWrite (x : Access) : Bool :=
  match x.op with
  | .read => false
  | .write _ => true

/-- The checks of width, alignment and reserved offsets: the access is a 32-bit access to an aligned offset
that is not reserved (R53, R56, R57). -/
def Access.accepted (x : Access) : Bool :=
  decide (x.width = 32) && decide (bitField x.off 1 0 = 0) && decide (target x.off ≠ .reserved)

/-- The accesses allowed while BUSY: a read of STATUS, CMD or SAMPLE_RATE, and a read or write of a PARAM
register (70_reset_and_hazards.md R176). -/
def allowedWhileBusy (t : Target) (isWrite : Bool) : Bool :=
  match t with
  | .cmd | .status | .sampleRate => !isWrite
  | .param _ => true
  | .sample _ _ | .reserved => false

/-- What an access does once its checks are made. -/
inductive BusEffect where
  /-- The access is complete. -/
  | done (s : State)
  /-- A write to CMD: the command word is issued. -/
  | issue (w : Word) (s : State)
  deriving DecidableEq, Repr

/-- A read returns a word to its agent. -/
def State.returning (s : State) (v : Word) : State := { s with busData := some v }

/-- A read of a tagged word: UNWRITTEN_READ while it holds no value (R27). -/
def State.readTagged (s : State) (off : BitVec 17) (v : Option Word) : State :=
  match v with
  | some w => s.returning w
  | none => s.raise .unwrittenRead (.offset off.toNat)

/-- The fault of an access of a wrong width or alignment, to a reserved offset, or that writes STATUS. -/
def State.raiseBusAccess (s : State) (x : Access) : State :=
  s.raise .busAccess (.bus x.off.toNat x.width x.isWrite)

/-- The read of a target, after the checks (R59). -/
def busRead (x : Access) (s : State) : State :=
  match target x.off with
  | .cmd => s.returning 0x00000000#32
  | .status => s.returning (statusWord s)
  | .sampleRate => s.readTagged x.off s.sampleRate
  | .param p => s.readTagged x.off (s.param.get p)
  | .sample c i => s.readTagged x.off (s.buf.word? (bufOffset c i))
  | .reserved => s.raiseBusAccess x

/-- The write of a target, after the checks (R59). -/
def busWrite (x : Access) (v : Word) (s : State) : BusEffect :=
  match target x.off with
  | .cmd => .issue v s
  | .status => .done (s.raiseBusAccess x)
  | .sampleRate => .done { s with sampleRate := some v }
  | .param p => .done { s with param := s.param.set p (some v) }
  | .sample c i => .done { s with buf := s.buf.setWord (bufOffset c i) v }
  | .reserved => .done (s.raiseBusAccess x)

/-- A bus access while FAULT is none (R59): the first check that fails decides the fault (R157). -/
def busAccess (x : Access) (s : State) : BusEffect :=
  if !x.accepted then .done (s.raiseBusAccess x)
  else if s.busy && !allowedWhileBusy (target x.off) x.isWrite then
    .done (s.raise .hostBusyAccess (.busy x.off.toNat x.isWrite))
  else
    match x.op with
    | .read => .done (busRead x s)
    | .write v => busWrite x v s

end Sys2Proof.Machine
end

