-- ==== Sys2Proof/Machine/Fetch.lean ====
section
/-! DEFINITION. Whose step comes next and which instruction it runs: the reset input, a bus access of the
host or the parameter writer, or the sequencer's micro-op (20_memory.md R64, R65; 30_encoding.md R81, R82;
70_reset_and_hazards.md R171). -/

namespace Sys2Proof.Machine

/-- What the next step is, before any instruction runs. -/
inductive Fetched where
  /-- It runs an instruction. -/
  | run (i : Instr) (s : State)
  /-- It is complete: an access that issues no command, a reset, or a turn with nothing to do. -/
  | settled (s : State)
  /-- There is no step. -/
  | stuck (f : Fault)
  /-- It would run a word the model has no meaning for. -/
  | refused (r : Refusal)
  deriving DecidableEq, Repr

/-- A command word written to CMD (R79, R89). -/
def issueCommand (w : Word) (s : State) : Fetched :=
  match decodeCommand w with
  | .ok i => .run i s
  | .error _ => .settled (s.raise .reservedCommand (.command w))

/-- The turn of the host or the parameter writer: one bus access, unless FAULT is set (R59, R152). -/
def fetchAccess (x : Access) (s : State) : Fetched :=
  match s.fault with
  | some f => .stuck (.quiescent f)
  | none =>
    match busAccess x s with
    | .done s' => .settled s'
    | .issue w s' => issueCommand w s'

/-- The sequencer's turn: the head of SEQ while BUSY = 1 and FAULT = none (R81).  While BUSY = 0 it has no
step, and GDFX holds all of its state (60_exceptions.md R166). -/
def fetchMicroOp (s : State) : Fetched :=
  match s.fault with
  | some f => .stuck (.quiescent f)
  | none =>
    if s.busy then
      match s.seq with
      | [] => .stuck .emptySequence
      | u :: _ =>
        match decodeMicro u with
        | .ok i => .run i s
        | .error _ => .refused (.reservedMicroOp u)
    else .settled s

/-- Reset: every state element takes its reset value, whatever was in progress (R171).  The turns to come
and the draw counter are the model's own and go on. -/
def State.afterReset (s : State) (rest : List Turn) : State :=
  { State.reset with turns := rest, draws := s.draws }

/-- The next turn. -/
def fetch (s : State) : Fetched :=
  match s.turns with
  | .reset :: rest => .settled (s.afterReset rest)
  | .host x :: rest => fetchAccess x { s with turns := rest, actor := .host }
  | .paramWriter x :: rest => fetchAccess x { s with turns := rest, actor := .paramWriter }
  | .sequencer :: rest => fetchMicroOp { s with turns := rest, actor := .sequencer }
  | [] => fetchMicroOp { s with actor := .sequencer }

/-! ## Placing an instruction where the next step finds it -/

/-- The host's next access writes a command word to CMD, and GDFX is idle and has no fault. -/
def State.placeCommand (s : State) (w : Word) : State :=
  { s with
    fault := none
    busy := false
    seq := []
    turns := .host { width := 32, off := 0x000#17, op := .write w } :: s.turns }

/-- A micro-op word at the head of SEQ, BUSY = 1, no fault, and the sequencer's turn. -/
def State.placeMicroOp (s : State) (u : MicroWord) : State :=
  { s with fault := none, busy := true, seq := u :: s.seq, turns := .sequencer :: s.turns }

/-- An instruction of `nbits` bits, placed: a micro-op word has eight bits, a command word 32 (R73). -/
def State.placeWord (s : State) (nbits w : Nat) : State :=
  if nbits ≤ 8 then s.placeMicroOp (BitVec.ofNat 8 w) else s.placeCommand (BitVec.ofNat 32 w)

end Sys2Proof.Machine
end

