-- ==== Sys2Proof/Machine/Step.lean ====
section
/-! DEFINITION. One step of GDFX: one turn of one agent (20_memory.md R64, R65). -/

namespace Sys2Proof.Machine

/-- One step: what `fetch` finds, and the instruction it runs. -/
def step (s : State) : Host.Outcome State Fault Refusal :=
  match fetch s with
  | .run i s' => exec i s'
  | .settled s' => .next s'
  | .stuck f => .fault f
  | .refused r => .refused r

/-- `s` with an instruction placed so that the very next step runs it: for a command, the host's access
that writes it to CMD; for a micro-op, the head of SEQ with the sequencer's turn (assumption 4). -/
def State.withFetchWord (s : State) (nbits w : Nat) : State := s.placeWord nbits w

end Sys2Proof.Machine
end

