-- ==== Sys2Proof/Safety.lean ====
section
/-! DEFINITION. What counts as a good run and a good state, in the terms the statements use: the end of a
run (45_pipeline.md R149), the launch premise (70_reset_and_hazards.md R174), the duties of
the host (60_exceptions.md R158), and the invariants of the machine. -/

namespace Sys2Proof.Machine

/-! ## Runs -/

/-- A run ends well when the host has performed its last access, BUSY = 0 and FAULT = none (R149).  A reset
begins a new run (R171), so the host's accesses of this run are those before the first reset turn; the parameter
writer may still have turns. -/
def State.endedWell (s : State) : Prop :=
  (∀ x, .host x ∉ s.turns.takeWhile (fun turn => decide (turn ≠ .reset))) ∧ s.busy = false ∧ s.fault = none

/-- The clean launch, the state of R171: what R45 gives a value has that value, and SR, COEF, CACHED, DLY, SNAP,
GLIN and CUR, which it leaves unspecified, hold anything.  The model's own fields hold anything too (R174). -/
def State.cleanLaunch (s : State) : Prop :=
  s.mode = .unprepared ∧ s.busy = false ∧ s.seq = [] ∧ s.fault = none ∧ s.sampleRate = none ∧
  (∀ p, s.param.get p = none) ∧ s.buf = [] ∧ s.dry = []

/-! ## Words of the statements -/

/-- The turn of an outside agent: of the parameter writer, or of the host. -/
def busTurn (writer : Bool) (x : Access) : Turn := if writer then .paramWriter x else .host x

/-- The agent of that turn. -/
def busAgent (writer : Bool) : Agent := if writer then .paramWriter else .host

/-- The head of the turns is a bus access. -/
def State.busAccessNext (s : State) : Prop := ∃ writer x rest, s.turns = busTurn writer x :: rest

/-- It is the sequencer's turn, and `rest` are the turns after it. -/
def State.sequencerNext (s : State) (rest : List Turn) : Prop :=
  s.turns = .sequencer :: rest ∨ (s.turns = [] ∧ rest = [])

/-- No byte outside the words `key 0, …, key (n-1)` differs between two memories. -/
def Memory.sameOutside (m m' : Memory) (key : Nat → Nat) (n : Nat) : Prop :=
  ∀ a, (∀ i, i < n → a < key i ∨ key i + 4 ≤ a) → m'.byte? a = m.byte? a

/-- `r` is the binary32 value nearest the exact `num / den` units of 2^-149, ties to even; from the overflow
threshold `2^128 - 2^103 = (2^25 - 1) * 2^103` on it is an infinity; and it has the sign of an exact value that is no zero (R12). -/
def RoundsTo (r : F32) (num : Int) (den : Nat) : Prop :=
  (isFinite r = true ↔ |num| < (2 ^ 25 - 1) * 2 ^ 252 * den) ∧
  (isFinite r = false → isInf r = true) ∧
  (num ≠ 0 → signBit r = decide (num < 0)) ∧
  (isFinite r = true → ∀ c : F32, isFinite c = true →
    |units r * den - num| ≤ |units c * den - num| ∧
    (|units r * den - num| = |units c * den - num| → units r ≠ units c → r.getLsbD 0 = false))

/-! ## The duties of the host and the parameter writer (60_exceptions.md R158) -/

/-- The duty on the parameters: each is written and in its declared range (R158). -/
def State.paramsInRange (s : State) : Prop := ∀ p, ∃ v, s.param.get p = some v ∧ inRange p v = true

/-- Every input word of a block is written (R133). -/
def State.inputsWritten (s : State) (nin len : Nat) : Prop :=
  ∀ c : Chan, c.index < nin → ∀ i, i < len → s.buf.word? (bufOffset c i) ≠ none

/-- The duties on a command word: a PROCESS_BLOCK comes after a PREPARE, has 1 or 2 channels and at most 8192
samples, and finds its input words written and every parameter written and in range. -/
def State.commandDuty (s : State) (w : Word) : Prop :=
  ∀ nin nout len, decodeCommand w = .ok (.processBlock nin nout len) →
    s.mode = .prepared ∧ legalChannelCount nin = true ∧ legalChannelCount nout = true ∧ len ≤ maxBlockLen ∧
    s.inputsWritten nin len ∧ s.paramsInRange

/-- The duties on one bus access: while BUSY only the accesses R176 allows, a parameter only in its declared range,
and the duties of the command it issues. -/
def State.accessDuty (s : State) (x : Access) : Prop :=
  (s.busy = true → x.accepted = true ∧ allowedWhileBusy (target x.off) x.isWrite = true) ∧
  (x.accepted = true → ∀ v, x.op = .write v →
    (∀ p, target x.off = .param p → inRange p v = true) ∧ (target x.off = .cmd → s.commandDuty v))

/-- If the next turn is a bus access, it keeps the duties. -/
def State.nextAccessDuty (s : State) : Prop :=
  ∀ writer x rest, s.turns = busTurn writer x :: rest → s.accessDuty x

/-- Every access of the run from here on keeps the duties. -/
def State.dutiesKept (s : State) : Prop :=
  ∀ (n : Nat) (t : State), Host.Core.run Sys2Proof.core n s = .next t → t.nextAccessDuty

/-- The launch premise: a clean launch, from which the duties are kept (R174). -/
def State.launchPremise (s : State) : Prop := s.cleanLaunch ∧ s.dutiesKept

/-! ## Invariants -/

/-- The coefficients of each kind are those of its cached cutoff once GDFX is prepared (10_state.md R44). -/
def State.coefMatchesCutoff (s : State) : Prop :=
  s.mode = .prepared → ∀ k, s.coef.get k = Config.design k (s.cached.get k) s.sr

/-- Both stores keep their canonical form. -/
def State.storesCanonical (s : State) : Prop := s.buf.wf ∧ s.dry.wf

/-- A legal context: NIN and NOUT are 1 or 2 and LEN is at most 8192 (10_state.md R37). -/
def Cur.legal (cur : Cur) : Prop :=
  legalChannelCount cur.nin = true ∧ legalChannelCount cur.nout = true ∧ cur.len ≤ maxBlockLen

/-- SEQ is what is left of the sequence of the command in progress, ending with its END, and is empty exactly when
BUSY = 0; the context of a PROCESS_BLOCK in progress is legal (10_state.md R19, R37, 45_pipeline.md R132, R134,
R139). -/
def State.seqInProgress (s : State) : Prop :=
  (s.busy = false ∧ s.seq = []) ∨
  (s.busy = true ∧ s.seq ≠ [] ∧
    (s.seq <:+ sequenceWords prepareSequence ∨
      (s.cur.legal ∧ s.seq <:+ sequenceWords (blockSequence s.cur.nin s.cur.nout))))

/-- While a block is in progress its parameters are written and in range (R158). -/
def State.blockParamsInRange (s : State) : Prop :=
  s.busy = true → s.paramsInRange ∨ s.seq <:+ sequenceWords prepareSequence

/-- Once GDFX is prepared both cached cutoffs lie in [20, 20000] (42_filter_stage.md R110, 45_pipeline.md
R136). -/
def State.cutoffsInRange (s : State) : Prop :=
  s.mode = .prepared → ∀ k, le32 twenty (s.cached.get k) = true ∧ le32 (s.cached.get k) twentyThousand = true

/-- No snapshot register is a NaN (40_parameter_snapshot.md R93). -/
def State.snapshotNumeric (s : State) : Prop := ∀ p, isNaN (s.snap.get p) = false

end Sys2Proof.Machine
end

