-- ==== Sys2Proof/Certificates/Slice0/Obligations.lean ====
section
/-! DEFINITION. The statements about GDFX, from the numbered rules of spec/.

A statement about a micro-op gives the state it leaves as one record update: a field the update does not
name is unchanged.  A micro-op removes the head of SEQ and moves the draw counter on; the words it leaves in
BUF or DRY are given by their values, and every other byte is unchanged. -/

open Sys2Proof Sys2Proof.Machine

/-! ## Encoding -/

/-- R80, with R76, R86 and R87: the words the spec writes out. -/
def Obligations.SpecWordsDecodeToTheirInstructions : Prop :=
  (∀ p ∈ [((0x00000001#32 : Word), Instr.prepare), (0x000200A2#32, .processBlock 2 2 512),
      (0x00200092#32, .processBlock 1 2 8192), (0x00000052#32, .processBlock 1 1 0)],
    decodeCommand p.1 = .ok p.2) ∧
  (∀ p ∈ [((0x00#8 : MicroWord), Instr.endCommand), (0x10#8, .silence .ch0), (0x11#8, .silence .ch1),
      (0x20#8, .snap .drive), (0x21#8, .snap .tone), (0x22#8, .snap .hpf), (0x23#8, .snap .mix),
      (0x24#8, .snap .outgain), (0x30#8, .dryCopy .ch0), (0x31#8, .dryCopy .ch1), (0x40#8, .shape .ch0),
      (0x41#8, .shape .ch1)],
    decodeMicro p.1 = .ok p.2) ∧
  (∀ p ∈ [((0x50#8 : MicroWord), Instr.upd .lp), (0x58#8, .upd .hp), (0x60#8, .run .lp .ch0),
      (0x61#8, .run .lp .ch1), (0x68#8, .run .hp .ch0), (0x69#8, .run .hp .ch1), (0x70#8, .mix .ch0),
      (0x71#8, .mix .ch1), (0x80#8, .gainCalc), (0x90#8, .gain .ch0), (0x91#8, .gain .ch1), (0xA0#8, .prep)],
    decodeMicro p.1 = .ok p.2)

/-- Decoding an encoded well-formed instruction gives it back, as a word and as bytes. -/
def Obligations.DecodeOfEncodeIsInstruction : Prop :=
  ∀ i : Instr, i.wellFormed = true → decode (encode i) = .ok i ∧ decodeBytes (encode i).bytes = .ok i

/-- Each word has one meaning: what a word decodes to is well-formed and encodes to that word. -/
def Obligations.EncodeOfDecodeIsWord : Prop :=
  ∀ (e : Encoded) (i : Instr), decode e = .ok i → i.wellFormed = true ∧ encode i = e

/-- R79: which command words are PREPARE, PROCESS_BLOCK and reserved, with the operand fields of R78. -/
def Obligations.CommandWordsAreClassified : Prop :=
  ∀ w : Word,
    (decodeCommand w = .ok .prepare ↔ w = 0x00000001#32) ∧
    (w &&& 0xFFC0000F#32 = 0x00000002#32 →
      decodeCommand w = .ok (.processBlock (w.extractLsb' 4 2).toNat (w.extractLsb' 6 2).toNat
        (w.extractLsb' 8 14).toNat)) ∧
    (decodeCommand w = .error (.reservedCommand w) ↔
      (w.extractLsb' 0 4 = 0x1#4 ∧ w.extractLsb' 4 28 ≠ 0#28) ∨
      (w.extractLsb' 0 4 = 0x2#4 ∧ w.extractLsb' 22 10 ≠ 0#10) ∨
      (w.extractLsb' 0 4 ≠ 0x1#4 ∧ w.extractLsb' 0 4 ≠ 0x2#4))

/-- R82: exactly the listed micro-op words are reserved, and one at the head of SEQ is refused. -/
def Obligations.ReservedMicroOpWordsAreRefused : Prop :=
  ∀ u : MicroWord,
    (decodeMicro u = .error (.reservedMicroOp u) ↔
      (0xB ≤ (u.extractLsb' 4 4).toNat ∨
       (u.extractLsb' 3 1 ≠ 0#1 ∧ u.extractLsb' 4 4 ≠ 0x5#4 ∧ u.extractLsb' 4 4 ≠ 0x6#4) ∨
       (u.extractLsb' 1 2 ≠ 0#2 ∧ u.extractLsb' 4 4 ≠ 0x2#4) ∨
       (u.extractLsb' 4 4 = 0x2#4 ∧ 5 ≤ (u.extractLsb' 0 3).toNat) ∨
       (u.extractLsb' 0 3 ≠ 0#3 ∧
        (u.extractLsb' 4 4 = 0x0#4 ∨ u.extractLsb' 4 4 = 0x5#4 ∨ u.extractLsb' 4 4 = 0x8#4 ∨
         u.extractLsb' 4 4 = 0xA#4)))) ∧
    (decodeMicro u = .error (.reservedMicroOp u) →
      ∀ (s : State) (rest : List Turn) (tl : List MicroWord), s.fault = none → s.busy = true →
        s.sequencerNext rest → s.seq = u :: tl → step s = .refused (.reservedMicroOp u))

/-! ## Steps -/

/-- The sequencer's turn runs the instruction its head of SEQ decodes to, and the head is removed unless the
instruction raises a fault (R81). -/
def Obligations.StepRunsDecodedMicroOp : Prop :=
  ∀ (s : State) (rest : List Turn) (u : MicroWord) (tl : List MicroWord) (i : Instr),
    s.fault = none → s.busy = true → s.sequencerNext rest → s.seq = u :: tl → decodeMicro u = .ok i →
    step s = exec i { s with turns := rest, actor := .sequencer } ∧
    ∀ t, step s = .next t → t.fault = none → t.seq = tl

/-- R22: a write to CMD while idle runs the command its word decodes to, and a reserved word raises
RESERVED_COMMAND and does nothing else (R79); a read of CMD, busy or not, returns zero and has no effect. -/
def Obligations.StepRunsIssuedCommand : Prop :=
  ∀ (s : State) (writer : Bool) (rest : List Turn), s.fault = none →
    (∀ w, s.busy = false →
      s.turns = busTurn writer { width := 32, off := 0x000#17, op := .write w } :: rest →
      (∀ i, decodeCommand w = .ok i →
        step s = exec i { s with turns := rest, actor := busAgent writer }) ∧
      (∀ e, decodeCommand w = .error e →
        step s = .next
          { s with
            turns := rest, actor := busAgent writer,
            fault := some { code := .reservedCommand, agent := busAgent writer, detail := .command w } })) ∧
    (s.turns = busTurn writer { width := 32, off := 0x000#17, op := .read } :: rest →
      step s = .next
        { s with turns := rest, actor := busAgent writer, busData := some 0x00000000#32 })

/-- R152, R154, R155: a step that raises a fault, of whichever agent, has no other effect than FAULT, its turn and
the record of the agent whose turn it was; raising sets FAULT only where it is none; once it is set no agent has a
step, and the state is not a good end of a run (R149).  That the stop is the answer `quiescent`, unless the reset
input comes next, is R152 and R156 as log entry 2 (DEDUCED) reads them. -/
def Obligations.RaisedFaultFreezesMachine : Prop :=
  (∀ s t : State, s.fault = none → step s = .next t → t.fault ≠ none →
    t = { s with fault := t.fault, turns := s.turns.tail, actor := t.actor } ∧
    ∃ (code : FaultCode) (detail : FaultDetail),
      t.fault = some { code := code, agent := t.actor, detail := detail }) ∧
  (∀ (s : State) (code : FaultCode) (detail : FaultDetail), s.fault = none →
    s.raise code detail =
      { s with fault := some { code := code, agent := s.actor, detail := detail } }) ∧
  (∀ (s : State) (code : FaultCode) (detail : FaultDetail), s.fault ≠ none → s.raise code detail = s) ∧
  (∀ (s : State) (f : FaultRecord), s.fault = some f → (∀ rest, s.turns ≠ .reset :: rest) →
    step s = .fault (.quiescent f)) ∧
  (∀ s : State, s.fault ≠ none → ¬s.endedWell)

/-- R171: the reset input, whatever is in progress and whatever the fault, leaves the state of a clean launch
(R174). -/
def Obligations.ResetInputRestartsMachine : Prop :=
  ∀ (s : State) (rest : List Turn), s.turns = .reset :: rest →
    ∃ t, step s = .next t ∧ t.turns = rest ∧ t.cleanLaunch ∧ t.mode = .unprepared ∧ t.busy = false ∧ t.seq = [] ∧
      t.fault = none ∧ t.sampleRate = none ∧ (∀ p, t.param.get p = none) ∧
      (∀ c i, t.buf.word? (bufOffset c i) = none) ∧ statusWord t = 0x00000000#32

/-- The sequencer's turn while BUSY = 0: GDFX holds all of its state (R81, R166). -/
def Obligations.IdleMachineHoldsItsState : Prop :=
  ∀ (s : State) (rest : List Turn), s.fault = none → s.busy = false → s.sequencerNext rest →
    step s = .next { s with turns := rest, actor := .sequencer }

/-! ## The host bus -/

/-- R53, R56, R57: a wrong width, a misaligned offset or a reserved offset, in any state without a fault. -/
def Obligations.MalformedAccessRaisesBusAccess : Prop :=
  ∀ (s : State) (writer : Bool) (x : Access) (rest : List Turn),
    s.fault = none → s.turns = busTurn writer x :: rest →
    (x.width ≠ 32 ∨ x.off.extractLsb' 0 2 ≠ 0#2 ∨ x.off = 0x00C#17 ∨
      (0x024 ≤ x.off.toNat ∧ x.off.toNat ≤ 0x0FFFF)) →
    step s = .next
      { s with
        turns := rest, actor := busAgent writer,
        fault := some { code := .busAccess, agent := busAgent writer,
                        detail := .bus x.off.toNat x.width x.isWrite } }

/-- R176: while BUSY, a read of CMD, STATUS or SAMPLE_RATE and a read or write of a PARAM register are
accepted, and every other well-formed access raises HOST_BUSY_ACCESS and does nothing else. -/
def Obligations.BusyMachineAcceptsOnlyListedAccesses : Prop :=
  ∀ (s : State) (writer : Bool) (x : Access) (rest : List Turn),
    s.fault = none → s.busy = true → s.turns = busTurn writer x :: rest →
    x.width = 32 → x.off.extractLsb' 0 2 = 0#2 → x.off ≠ 0x00C#17 →
    ¬(0x024 ≤ x.off.toNat ∧ x.off.toNat ≤ 0x0FFFF) →
    (((x.op = .read ∧ x.off.toNat ≤ 0x008) ∨ (0x010 ≤ x.off.toNat ∧ x.off.toNat ≤ 0x020)) →
      ∃ t, step s = .next t ∧ ∀ f, t.fault = some f → f.code = .unwrittenRead) ∧
    (¬((x.op = .read ∧ x.off.toNat ≤ 0x008) ∨ (0x010 ≤ x.off.toNat ∧ x.off.toNat ≤ 0x020)) →
      step s = .next
        { s with
          turns := rest, actor := busAgent writer,
          fault := some { code := .hostBusyAccess, agent := busAgent writer,
                          detail := .busy x.off.toNat x.isWrite } })

/-- R23: the two fields of STATUS and its zero bits, a read without side effect, and the fault of a write.  That a
write while BUSY raises HOST_BUSY_ACCESS and not R23's BUS_ACCESS is log entry 15 (DEDUCED), from the order of R59
and R157 with R176. -/
def Obligations.StatusShowsPreparedAndBusy : Prop :=
  ∀ (s : State) (writer : Bool) (rest : List Turn), s.fault = none →
    (s.turns = busTurn writer { width := 32, off := 0x004#17, op := .read } :: rest →
      ∃ w : Word,
        step s = .next { s with turns := rest, actor := busAgent writer, busData := some w } ∧
        w.getLsbD 0 = decide (s.mode = .prepared) ∧ w.getLsbD 1 = s.busy ∧ w.extractLsb' 2 30 = 0#30) ∧
    (∀ v, s.turns = busTurn writer { width := 32, off := 0x004#17, op := .write v } :: rest →
      step s = .next
        { s with
          turns := rest, actor := busAgent writer,
          fault := some
            { code := if s.busy then .hostBusyAccess else .busAccess, agent := busAgent writer,
              detail := if s.busy then .busy 0x004 true else .bus 0x004 32 true } })

/-- Reads of the tagged words (R27, R59, R60): the value where the word is written, UNWRITTEN_READ where it
is not, and nothing else changes. -/
def Obligations.TaggedReadReturnsWordOrFaults : Prop :=
  ∀ (s : State) (writer : Bool) (off : BitVec 17) (rest : List Turn) (held : Option Word),
    s.fault = none → s.turns = busTurn writer { width := 32, off := off, op := .read } :: rest →
    ((off = 0x008#17 ∧ held = s.sampleRate) ∨
     (∃ p : Param, off.toNat = 0x010 + 4 * p.index ∧ held = s.param.get p) ∨
     (s.busy = false ∧ ∃ (c : Chan) (i : Nat), i < 8192 ∧ off.toNat = 0x10000 + 0x8000 * c.index + 4 * i ∧
        held = s.buf.word? (bufOffset c i))) →
    (∀ v, held = some v →
      step s = .next { s with turns := rest, actor := busAgent writer, busData := some v }) ∧
    (held = none →
      step s = .next
        { s with
          turns := rest, actor := busAgent writer,
          fault := some { code := .unwrittenRead, agent := busAgent writer, detail := .offset off.toNat } })

/-- R52 and R54: a write to the sample RAM stores BUF[c][i], little-endian, and nothing else. -/
def Obligations.SampleWriteStoresLittleEndianWord : Prop :=
  ∀ (s : State) (writer : Bool) (off : BitVec 17) (v : Word) (rest : List Turn) (c : Chan) (i : Nat),
    s.fault = none → s.busy = false → i < 8192 → off.toNat = 0x10000 + 0x8000 * c.index + 4 * i →
    s.turns = busTurn writer { width := 32, off := off, op := .write v } :: rest →
    ∃ t, step s = .next t ∧ t = { s with turns := rest, actor := busAgent writer, buf := t.buf } ∧
      t.buf.word? (bufOffset c i) = some v ∧
      (∀ j, j < 4 → t.buf.byte? (off.toNat + j) = some (v.extractLsb' (8 * j) 8)) ∧
      (∀ a, a < off.toNat ∨ off.toNat + 4 ≤ a → t.buf.byte? a = s.buf.byte? a)

/-- Writes of SAMPLE_RATE, while idle, and of a PARAM register, busy or not: the word and its tag, and
nothing else (R26, R33). -/
def Obligations.RegisterWriteStoresWord : Prop :=
  ∀ (s : State) (writer : Bool) (v : Word) (rest : List Turn), s.fault = none →
    (s.busy = false → s.turns = busTurn writer { width := 32, off := 0x008#17, op := .write v } :: rest →
      step s = .next { s with turns := rest, actor := busAgent writer, sampleRate := some v }) ∧
    (∀ p : Param,
      s.turns = busTurn writer { width := 32, off := BitVec.ofNat 17 (0x010 + 4 * p.index), op := .write v }
        :: rest →
      ∃ t, step s = .next t ∧ t = { s with turns := rest, actor := busAgent writer, param := t.param } ∧
        t.param.get p = some v ∧ ∀ p', p' ≠ p → t.param.get p' = s.param.get p')

/-- R50: BASE is a multiple of 0x20000, the window is `[BASE, BASE + 0x20000)`, and an offset is the
distance from BASE. -/
def Obligations.WindowLiesAtBase : Prop :=
  Config.base.toNat % 0x20000 = 0 ∧
  ∀ addr : BitVec 32,
    (Config.base.toNat ≤ addr.toNat ∧ addr.toNat < Config.base.toNat + 0x20000 →
      ∃ off, windowOffset? addr = some off ∧ off.toNat = addr.toNat - Config.base.toNat) ∧
    (¬(Config.base.toNat ≤ addr.toNat ∧ addr.toNat < Config.base.toNat + 0x20000) →
      windowOffset? addr = none)

/-! ## The commands -/

/-- R132: PREPARE, in either mode. -/
def Obligations.PrepareLoadsPrepSequence : Prop :=
  decodeCommand 0x00000001#32 = .ok .prepare ∧
  ∀ s : State,
    (∀ fs, s.sampleRate = some fs →
      exec .prepare s = .next { s with busy := true, seq := [0xA0#8, 0x00#8] }) ∧
    (s.sampleRate = none → exec .prepare s = .next (s.raise .unwrittenRead (.offset 0x008)))

/-- R133: the checks of PROCESS_BLOCK in the order written, each with its fault, and where they pass the
context, the sequence and BUSY. -/
def Obligations.ProcessBlockChecksThenLoads : Prop :=
  ∀ (s : State) (nin nout len : Nat), s.fault = none →
    let fails := fun code : FaultCode =>
      exec (.processBlock nin nout len) s = .next
        { s with
          fault := some
            { code := code, agent := s.actor, detail := .command (Instr.processBlock nin nout len).word } }
    let legal := (nin = 1 ∨ nin = 2) ∧ (nout = 1 ∨ nout = 2)
    (s.mode = .unprepared → fails .unpreparedProcess) ∧
    (s.mode = .prepared → ¬legal → fails .channelConfig) ∧
    (s.mode = .prepared → legal → 8192 < len → fails .blockTooLong) ∧
    (s.mode = .prepared → legal → len ≤ 8192 → ¬s.inputsWritten nin len →
      ∃ (c : Chan) (i : Nat), c.index < nin ∧ i < len ∧ s.buf.word? (bufOffset c i) = none ∧
        exec (.processBlock nin nout len) s = .next
          { s with
            fault := some
              { code := .unwrittenRead, agent := s.actor, detail := .offset (bufOffset c i) } }) ∧
    (s.mode = .prepared → legal → len ≤ 8192 → s.inputsWritten nin len →
      exec (.processBlock nin nout len) s = .next
        { s with
          cur := { nin := nin, nout := nout, len := len }, busy := true,
          seq := sequenceWords (blockSequence nin nout) })

/-- R134: the four sequences as the spec's table lists them. -/
def Obligations.BlockSequencesAreTheTabledWords : Prop :=
  sequenceWords (blockSequence 1 1) =
    [0x20#8, 0x21#8, 0x22#8, 0x23#8, 0x24#8, 0x30#8, 0x40#8, 0x50#8, 0x60#8, 0x58#8, 0x68#8, 0x70#8,
     0x80#8, 0x90#8, 0x00#8] ∧
  sequenceWords (blockSequence 1 2) =
    [0x11#8, 0x20#8, 0x21#8, 0x22#8, 0x23#8, 0x24#8, 0x30#8, 0x31#8, 0x40#8, 0x50#8, 0x60#8, 0x58#8,
     0x68#8, 0x70#8, 0x71#8, 0x80#8, 0x90#8, 0x91#8, 0x00#8] ∧
  (∀ nout, (nout = 1 ∨ nout = 2) → sequenceWords (blockSequence 2 nout) =
    [0x20#8, 0x21#8, 0x22#8, 0x23#8, 0x24#8, 0x30#8, 0x31#8, 0x40#8, 0x41#8, 0x50#8, 0x60#8, 0x50#8,
     0x61#8, 0x58#8, 0x68#8, 0x58#8, 0x69#8, 0x70#8, 0x71#8, 0x80#8, 0x90#8, 0x91#8, 0x00#8])

/-- R83: every word of a sequence is a micro-op, and its channel operand is in the set of its step. -/
def Obligations.SequencesKeepToTheirChannels : Prop :=
  ∀ (nin nout : Nat), (nin = 1 ∨ nin = 2) → (nout = 1 ∨ nout = 2) →
    ∀ u ∈ sequenceWords (blockSequence nin nout), ∃ i, decodeMicro u = .ok i ∧
      match i with
      | .silence c => nin ≤ c.index ∧ c.index < max nin nout
      | .shape c => c.index < nin
      | .run _ c => c.index < nin
      | .dryCopy c => c.index < max nin nout
      | .mix c => c.index < max nin nout
      | .gain c => c.index < max nin nout
      | _ => True

/-! ## The parameter snapshot -/

/-- R91: SNAP p takes the word as read, or raises the fault and has no other effect. -/
def Obligations.SnapTakesParameterOrFaults : Prop :=
  (∀ p : Param, decodeMicro (0x20#8 ||| BitVec.ofNat 8 p.index) = .ok (.snap p)) ∧
  ∀ (s : State) (p : Param),
    (∀ v, s.param.get p = some v → inRange p v = true →
      ∃ t, exec (.snap p) s = .next t ∧
        t = { s with snap := t.snap, seq := s.seq.tail, draws := s.draws + 1 } ∧
        t.snap.get p = v ∧ ∀ p', p' ≠ p → t.snap.get p' = s.snap.get p') ∧
    (∀ v, s.param.get p = some v → inRange p v = false →
      exec (.snap p) s = .next (s.raise .paramRange (.parameterValue p v))) ∧
    (s.param.get p = none → exec (.snap p) s = .next (s.raise .unwrittenRead (.parameter p)))

/-- R93 in exact values (one unit is 2^-149): DRIVE and MIX in [0, 1], OUTGAIN in [-24, 24], TONE and HPF
anything but a NaN. -/
def Obligations.ParameterRangesAreRealIntervals : Prop :=
  ∀ v : F32,
    (inRange .drive v = true ↔ isNaN v = false ∧ 0 ≤ units v ∧ units v ≤ 2 ^ 149) ∧
    (inRange .mix v = true ↔ isNaN v = false ∧ 0 ≤ units v ∧ units v ≤ 2 ^ 149) ∧
    (inRange .outgain v = true ↔ isNaN v = false ∧ -24 * 2 ^ 149 ≤ units v ∧ units v ≤ 24 * 2 ^ 149) ∧
    (inRange .tone v = true ↔ isNaN v = false) ∧ (inRange .hpf v = true ↔ isNaN v = false)

/-- R92, R180: a parameter written after its SNAP has no effect on the block: every micro-op but SNAP does
the same whatever the PARAM registers hold. -/
def Obligations.MicroOpsIgnoreParameterWrites : Prop :=
  ∀ (i : Instr) (s t : State) (ps : PerParam (Option F32)), i.isMicroOp = true → (∀ p, i ≠ .snap p) →
    exec i s = .next t → t.param = s.param ∧ exec i { s with param := ps } = .next { t with param := ps }

/-! ## The waveshaper -/

/-- R98: every word of the block on the channel is shaped, and nothing else changes. -/
def Obligations.ShapeWaveshapesChannelInPlace : Prop :=
  (∀ c : Chan, decodeMicro (0x40#8 ||| BitVec.ofNat 8 c.index) = .ok (.shape c)) ∧
  ∀ (s : State) (c : Chan), ∃ t, exec (.shape c) s = .next t ∧
    t = { s with buf := t.buf, seq := s.seq.tail, draws := s.draws + 1 } ∧
    (∀ i, i < s.cur.len → t.buf.word? (bufOffset c i) = some
      (Config.tanh32 (mul32 Config.flushSubnormals (Config.nan s.draws i 1)
        (mul32 Config.flushSubnormals (Config.nan s.draws i 0) s.snap.drive (s.bufWord c i)) 0x41400000#32))) ∧
    s.buf.sameOutside t.buf (bufOffset c) s.cur.len

/-- R100: with drive ±0.0 a finite sample becomes a zero of the sign of `drive * x`, and an infinity or a
NaN becomes a NaN. -/
def Obligations.DriveZeroSilencesFiniteSamples : Prop :=
  ∀ (s t : State) (c : Chan) (i : Nat) (x : F32), isZero s.snap.drive = true →
    exec (.shape c) s = .next t → i < s.cur.len → s.buf.word? (bufOffset c i) = some x →
    ∃ y, t.buf.word? (bufOffset c i) = some y ∧
      (isFinite x = true → isZero y = true ∧ signBit y = (signBit s.snap.drive ^^ signBit x)) ∧
      (isFinite x = false → isNaN y = true)

/-- R101, first sentence, with R103: a shaped sample is a NaN only if the product is one, and else lies in
[-1, 1]; for a finite drive and sample it is never a NaN. -/
def Obligations.ShapedSamplesStayWithinOne : Prop :=
  ∀ (s t : State) (c : Chan) (i : Nat) (x : F32), isFinite s.snap.drive = true → isFinite x = true →
    exec (.shape c) s = .next t → i < s.cur.len → s.buf.word? (bufOffset c i) = some x →
    ∃ y, t.buf.word? (bufOffset c i) = some y ∧
      le32 0xBF800000#32 y = true ∧ le32 y 0x3F800000#32 = true

/-! ## The filters -/

/-- R110: UPD k redesigns when the clamped target is more than 1.0 from the cached cutoff, and otherwise
changes no coefficient and no cutoff. -/
def Obligations.UpdRedesignsBeyondOneHertz : Prop :=
  (∀ k : Kind, decodeMicro (0x50#8 ||| BitVec.ofNat 8 (k.index <<< 3)) = .ok (.upd k)) ∧
  ∀ (s : State) (k : Kind), ∃ t, exec (.upd k) s = .next t ∧
    t = { s with coef := t.coef, cached := t.cached, seq := s.seq.tail, draws := s.draws + 1 } ∧
    (∀ k', k' ≠ k → t.coef.get k' = s.coef.get k' ∧ t.cached.get k' = s.cached.get k') ∧
    let target := clamp32 (match k with | .lp => s.snap.tone | .hp => s.snap.hpf) 0x41A00000#32 0x469C4000#32
    let distance := abs32 (sub32 Config.flushSubnormals (Config.nan s.draws 0 0) target (s.cached.get k))
    (lt32 0x3F800000#32 distance = true →
      t.coef.get k = Config.design k target s.sr ∧ t.cached.get k = target) ∧
    (lt32 0x3F800000#32 distance = false →
      t.coef.get k = s.coef.get k ∧ t.cached.get k = s.cached.get k)

/-- R111: for cutoffs in [20, 20000] at most 3 apart the difference is exact, so the test is the real
comparison at the threshold. -/
def Obligations.HysteresisComparesExactly : Prop :=
  ∀ (flush : Bool) (nan t cached : F32),
    le32 0x41A00000#32 t = true → le32 t 0x469C4000#32 = true →
    le32 0x41A00000#32 cached = true → le32 cached 0x469C4000#32 = true →
    |units t - units cached| ≤ 3 * 2 ^ 149 →
    units (sub32 flush nan t cached) = units t - units cached ∧
    (lt32 0x3F800000#32 (abs32 (sub32 flush nan t cached)) = true ↔ 2 ^ 149 < |units t - units cached|)

/-- R112: a second UPD k never recomputes, whatever happened after the first, as long as neither SNAP of its
parameter nor CACHED[k] has changed. -/
def Obligations.SecondUpdNeverRecomputes : Prop :=
  ∀ (s t u u' : State) (k : Kind), exec (.upd k) s = .next t → u.snap = t.snap → u.cached = t.cached →
    exec (.upd k) u = .next u' → u'.coef = u.coef ∧ u'.cached = u.cached

/-- R114: one sample of the recurrence, its products added in the order written and each operation rounded;
RUN k,c leaves at each sample its output, and the delay memory after the last one, and nothing else changes. -/
def Obligations.RunFollowsRecurrence : Prop :=
  (∀ (e : Fp) (co : Coef) (d : Delay) (x : F32),
    let s1 := mul32 e.flush (e.nan 0) co.b0 x
    let s2 := add32 e.flush (e.nan 2) s1 (mul32 e.flush (e.nan 1) co.b1 d.x1)
    let s3 := add32 e.flush (e.nan 4) s2 (mul32 e.flush (e.nan 3) co.b2 d.x2)
    let s4 := sub32 e.flush (e.nan 6) s3 (mul32 e.flush (e.nan 5) co.a1 d.y1)
    let s5 := sub32 e.flush (e.nan 8) s4 (mul32 e.flush (e.nan 7) co.a2 d.y2)
    filterSample e co d x = s5 ∧ d.push x s5 = { x1 := x, x2 := d.x1, y1 := s5, y2 := d.y1 }) ∧
  (∀ (k : Kind) (c : Chan), decodeMicro (0x60#8 ||| BitVec.ofNat 8 (k.index <<< 3) ||| BitVec.ofNat 8 c.index) = .ok (.run k c)) ∧
  ∀ (s : State) (k : Kind) (c : Chan), ∃ t, exec (.run k c) s = .next t ∧
    t = { s with buf := t.buf, dly := t.dly, seq := s.seq.tail, draws := s.draws + 1 } ∧
    (∀ i, i < s.cur.len → t.buf.word? (bufOffset c i) =
      some (filterOutput s.fp (s.coef.get k) (s.bufWord c) ((s.dly.get k).get c) i)) ∧
    s.buf.sameOutside t.buf (bufOffset c) s.cur.len ∧
    (t.dly.get k).get c =
      delayAfter s.fp (s.coef.get k) (s.bufWord c) ((s.dly.get k).get c) s.cur.len ∧
    (∀ k' c', (k', c') ≠ (k, c) → (t.dly.get k').get c' = (s.dly.get k').get c')

/-- R40: what RUN k,c leaves on its channel depends only on that channel: two states that agree on COEF[k],
LEN, DLY[k][c] and the block's words of BUF[c] agree there afterwards, whatever the other channel holds. -/
def Obligations.RunKeepsChannelsApart : Prop :=
  ∀ (s s' t t' : State) (k : Kind) (c : Chan),
    exec (.run k c) s = .next t → exec (.run k c) s' = .next t' →
    s'.cur.len = s.cur.len → s'.draws = s.draws → s'.coef.get k = s.coef.get k →
    (s'.dly.get k).get c = (s.dly.get k).get c →
    (∀ i, i < s.cur.len → s'.buf.word? (bufOffset c i) = s.buf.word? (bufOffset c i)) →
    (t'.dly.get k).get c = (t.dly.get k).get c ∧
    ∀ i, i < s.cur.len → t'.buf.word? (bufOffset c i) = t.buf.word? (bufOffset c i)

/-! ## The mixer -/

/-- R121: every word of the block on the channel is the blend of its dry and wet words, and nothing else
changes. -/
def Obligations.MixBlendsDryAndWet : Prop :=
  (∀ c : Chan, decodeMicro (0x70#8 ||| BitVec.ofNat 8 c.index) = .ok (.mix c)) ∧
  ∀ (s : State) (c : Chan), ∃ t, exec (.mix c) s = .next t ∧
    t = { s with buf := t.buf, seq := s.seq.tail, draws := s.draws + 1 } ∧
    (∀ i, i < s.cur.len → t.buf.word? (bufOffset c i) = some
      (add32 Config.flushSubnormals (Config.nan s.draws i 2)
        (mul32 Config.flushSubnormals (Config.nan s.draws i 0) (s.dryWord c i)
          (sub32 Config.flushSubnormals (Config.nan s.draws 0 3) 0x3F800000#32 s.snap.mix))
        (mul32 Config.flushSubnormals (Config.nan s.draws i 1) (s.bufWord c i) s.snap.mix))) ∧
    s.buf.sameOutside t.buf (bufOffset c) s.cur.len

/-- R122: with mix ±0.0 and a finite wet word the result is the dry word bit for bit, except that a dry -0.0
with a positive-zero product gives +0.0 (and a subnormal dry word is flushed where FLUSH_SUBNORMALS is set,
and a NaN has an unspecified payload); with a wet infinity or NaN the result is a NaN. -/
def Obligations.MixZeroReturnsDryWord : Prop :=
  ∀ (s t : State) (c : Chan) (i : Nat) (dry wet : F32), isZero s.snap.mix = true →
    exec (.mix c) s = .next t → i < s.cur.len →
    s.dry.word? (dryIndex c i) = some dry → s.buf.word? (bufOffset c i) = some wet →
    let result := t.buf.word? (bufOffset c i)
    let productNegative := signBit wet ^^ signBit s.snap.mix
    (isFinite wet = true → isNaN dry = false → (isSubnormal dry = false ∨ Config.flushSubnormals = false) →
      result = if dry = 0x80000000#32 ∧ productNegative = false then some 0x00000000#32 else some dry) ∧
    (isFinite wet = true → isNaN dry = true → ∃ y, result = some y ∧ isNaN y = true) ∧
    (isFinite wet = false → ∃ y, result = some y ∧ isNaN y = true)

/-! ## The output stage -/

/-- R126: GAINCALC sets GLIN and nothing else. -/
def Obligations.GainCalcConvertsDecibels : Prop :=
  decodeMicro 0x80#8 = .ok .gainCalc ∧
  ∀ s : State, exec .gainCalc s = .next
    { s with
      glin := Config.pow10
        (div32 Config.flushSubnormals (Config.nan s.draws 0 0) s.snap.outgain 0x41A00000#32),
      seq := s.seq.tail, draws := s.draws + 1 }

/-- R127, first clause: 0 dB gives GLIN = 1.0 exactly. -/
def Obligations.ZeroDecibelsGiveUnityGain : Prop :=
  ∀ s t : State, isZero s.snap.outgain = true → exec .gainCalc s = .next t → t.glin = 0x3F800000#32

/-- R128: every word of the block on the channel is multiplied by GLIN, and nothing else changes. -/
def Obligations.GainScalesChannelInPlace : Prop :=
  (∀ c : Chan, decodeMicro (0x90#8 ||| BitVec.ofNat 8 c.index) = .ok (.gain c)) ∧
  ∀ (s : State) (c : Chan), ∃ t, exec (.gain c) s = .next t ∧
    t = { s with buf := t.buf, seq := s.seq.tail, draws := s.draws + 1 } ∧
    (∀ i, i < s.cur.len → t.buf.word? (bufOffset c i) = some
      (mul32 Config.flushSubnormals (Config.nan s.draws i 0) (s.bufWord c i) s.glin)) ∧
    s.buf.sameOutside t.buf (bufOffset c) s.cur.len

/-- R128, the corner case GLIN = 1.0: a word that is no NaN is unchanged, but for a subnormal one where
FLUSH_SUBNORMALS is set; a NaN gives a NaN. -/
def Obligations.UnityGainKeepsSamples : Prop :=
  ∀ (s t : State) (c : Chan) (i : Nat) (x : F32), s.glin = 0x3F800000#32 →
    exec (.gain c) s = .next t → i < s.cur.len → s.buf.word? (bufOffset c i) = some x →
    (isNaN x = false → (isSubnormal x = false ∨ Config.flushSubnormals = false) →
      t.buf.word? (bufOffset c i) = some x) ∧
    (isNaN x = true → ∃ y, t.buf.word? (bufOffset c i) = some y ∧ isNaN y = true)

/-! ## The pipeline's own micro-ops -/

/-- R136: PREP. -/
def Obligations.PrepResetsFiltersAndPrepares : Prop :=
  decodeMicro 0xA0#8 = .ok .prep ∧
  ∀ s : State, ∃ t, exec .prep s = .next t ∧
    t = { s with
          mode := .prepared, sr := t.sr, coef := t.coef, cached := t.cached, dly := t.dly,
          seq := s.seq.tail, draws := s.draws + 1 } ∧
    (∀ fs, s.sampleRate = some fs → t.sr = fs) ∧
    (∀ k, t.coef.get k = Config.design k 0x41A00000#32 t.sr ∧ t.cached.get k = 0x41A00000#32) ∧
    (∀ k c, (t.dly.get k).get c =
      { x1 := 0x00000000#32, x2 := 0x00000000#32, y1 := 0x00000000#32, y2 := 0x00000000#32 })

/-- R137: SILENCE c. -/
def Obligations.SilenceClearsChannel : Prop :=
  (∀ c : Chan, decodeMicro (0x10#8 ||| BitVec.ofNat 8 c.index) = .ok (.silence c)) ∧
  ∀ (s : State) (c : Chan), ∃ t, exec (.silence c) s = .next t ∧
    t = { s with buf := t.buf, seq := s.seq.tail, draws := s.draws + 1 } ∧
    (∀ i, i < s.cur.len → t.buf.word? (bufOffset c i) = some 0x00000000#32) ∧
    s.buf.sameOutside t.buf (bufOffset c) s.cur.len

/-- R138: DRYCOPY c, bit for bit. -/
def Obligations.DryCopyCopiesBitForBit : Prop :=
  (∀ c : Chan, decodeMicro (0x30#8 ||| BitVec.ofNat 8 c.index) = .ok (.dryCopy c)) ∧
  ∀ (s : State) (c : Chan), ∃ t, exec (.dryCopy c) s = .next t ∧
    t = { s with dry := t.dry, seq := s.seq.tail, draws := s.draws + 1 } ∧
    (∀ i x, i < s.cur.len → s.buf.word? (bufOffset c i) = some x → t.dry.word? (dryIndex c i) = some x) ∧
    s.dry.sameOutside t.dry (dryIndex c) s.cur.len

/-- R139: END.  It is the last word of every sequence and stands nowhere else, so SEQ is empty after it. -/
def Obligations.EndClearsBusy : Prop :=
  decodeMicro 0x00#8 = .ok .endCommand ∧
  (∀ s : State, exec .endCommand s = .next
    { s with busy := false, seq := s.seq.tail, draws := s.draws + 1 }) ∧
  (∀ s : State, s.seqInProgress → ∀ tl, s.seq = 0x00#8 :: tl → tl = []) ∧
  (∀ (nin nout : Nat), (nin = 1 ∨ nin = 2) → (nout = 1 ∨ nout = 2) →
    (sequenceWords (blockSequence nin nout)).getLast? = some 0x00#8) ∧
  (∀ s t : State, s.mode = .prepared → exec .endCommand s = .next t → statusWord t = 0x00000001#32)

/-! ## Whole-machine rules -/

/-- R146, over all micro-ops: but for SNAP none raises a fault, and every one takes a next state. -/
def Obligations.OnlySnapRaisesInPipeline : Prop :=
  ∀ (i : Instr) (s : State), i.isMicroOp = true → (∀ p, i ≠ .snap p) →
    ∃ t, exec i s = .next t ∧ t.fault = s.fault ∧ t.seq = s.seq.tail

/-- R28, R29, R30, R31, R32, R33, R35, R36, R37, R43 over all instructions: who writes each register. -/
def Obligations.EachRegisterHasItsWriters : Prop :=
  ∀ (i : Instr) (s t : State), exec i s = .next t →
    t.param = s.param ∧ t.sampleRate = s.sampleRate ∧
    (t.mode ≠ s.mode → i = .prep ∧ t.mode = .prepared) ∧
    (t.sr ≠ s.sr → i = .prep) ∧
    (t.coef ≠ s.coef → i = .prep ∨ ∃ k, i = .upd k) ∧
    (t.cached ≠ s.cached → i = .prep ∨ ∃ k, i = .upd k) ∧
    (t.dly ≠ s.dly → i = .prep ∨ ∃ k c, i = .run k c) ∧
    (t.snap ≠ s.snap → ∃ p, i = .snap p) ∧
    (t.glin ≠ s.glin → i = .gainCalc) ∧
    (t.cur ≠ s.cur → ∃ nin nout len, i = .processBlock nin nout len) ∧
    (t.dry ≠ s.dry → ∃ c, i = .dryCopy c) ∧
    (t.buf ≠ s.buf → ∃ c, i = .silence c ∨ i = .shape c ∨ (∃ k, i = .run k c) ∨ i = .mix c ∨ i = .gain c)

/-- R28, R173: only a reset leaves Prepared. -/
def Obligations.OnlyResetUnprepares : Prop :=
  ∀ s t : State, step s = .next t → s.mode = .prepared →
    t.mode = .prepared ∨ ∃ rest, s.turns = .reset :: rest

/-- R46: a bus access that issues no command changes no internal state. -/
def Obligations.BusAccessLeavesInternalStateAlone : Prop :=
  ∀ (s t : State) (writer : Bool) (x : Access) (rest : List Turn),
    s.turns = busTurn writer x :: rest → (x.off ≠ 0x000#17 ∨ x.op = .read ∨ s.busy = true) →
    step s = .next t →
    t.mode = s.mode ∧ t.busy = s.busy ∧ t.seq = s.seq ∧ t.cur = s.cur ∧ t.sr = s.sr ∧ t.coef = s.coef ∧
    t.cached = s.cached ∧ t.dly = s.dly ∧ t.snap = s.snap ∧ t.glin = s.glin ∧ t.dry = s.dry

/-- R71: while BUSY = 1 no bus access changes BUF, and while BUSY = 0 nothing but a bus access or a reset
does. -/
def Obligations.BufferHasOneOwner : Prop :=
  ∀ s t : State, step s = .next t →
    (s.busy = true → s.busAccessNext → t.buf = s.buf) ∧
    (s.busy = false → ¬s.busAccessNext → (∀ rest, s.turns ≠ .reset :: rest) → t.buf = s.buf)

/-- R145: an empty block changes no word of BUF, DRY or DLY. -/
def Obligations.EmptyBlockChangesNoSample : Prop :=
  ∀ (i : Instr) (s : State), i.isMicroOp = true → i ≠ .prep → s.cur.len = 0 →
    ∃ t, exec i s = .next t ∧ t.buf = s.buf ∧ t.dry = s.dry ∧ t.dly = s.dly

/-- R42, R185: no micro-op changes a byte of BUF outside the words `i < LEN` of the two channels; and the micro-ops
of a command in progress neither change a byte outside the words `i < LEN` of the channels `c < B`, nor depend on
what BUF holds outside those words. -/
def Obligations.WordsOutsideBlockKeepTheirBytes : Prop :=
  (∀ (i : Instr) (s t : State) (a : Nat), i.isMicroOp = true → exec i s = .next t →
    (∀ (c : Chan) (j : Nat), j < s.cur.len → a < bufOffset c j ∨ bufOffset c j + 4 ≤ a) →
    t.buf.byte? a = s.buf.byte? a) ∧
  ∀ (s t : State) (rest : List Turn), s.seqInProgress → s.busy = true → s.fault = none → s.sequencerNext rest →
    step s = .next t →
    (∀ a : Nat, (∀ (c : Chan) (j : Nat), c.index < max s.cur.nin s.cur.nout → j < s.cur.len →
        a < bufOffset c j ∨ bufOffset c j + 4 ≤ a) →
      t.buf.byte? a = s.buf.byte? a) ∧
    ∀ other : Memory,
      (∀ (c : Chan) (j : Nat), c.index < max s.cur.nin s.cur.nout → j < s.cur.len →
        other.word? (bufOffset c j) = s.buf.word? (bufOffset c j)) →
      ∃ t', step { s with buf := other } = .next t' ∧ t' = { t with buf := t'.buf } ∧
        ∀ (c : Chan) (j : Nat), c.index < max s.cur.nin s.cur.nout → j < s.cur.len →
          t'.buf.word? (bufOffset c j) = t.buf.word? (bufOffset c j)

/-! ## Arithmetic -/

/-- R14: comparison is the order of the values, `-0 = +0`, and a NaN operand makes every comparison false;
`abs32` clears the sign bit, and `clamp32` is its two comparisons. -/
def Obligations.ComparisonOrdersValues : Prop :=
  ∀ a b : F32,
    (isNaN a = false → isNaN b = false →
      (lt32 a b = true ↔ units a < units b) ∧ (le32 a b = true ↔ units a ≤ units b)) ∧
    (isNaN a = true ∨ isNaN b = true → lt32 a b = false ∧ le32 a b = false) ∧
    units 0x80000000#32 = units 0x00000000#32 ∧
    abs32 a = a &&& 0x7FFFFFFF#32 ∧
    ∀ hi : F32, clamp32 a b hi = if lt32 a b = true then b else if lt32 hi a = true then hi else a

/-- R12, with gradual underflow: for finite operands each primitive answers the binary32 value nearest the exact
result, ties to even, an infinity of its sign from the overflow threshold on, and a zero of the IEEE sign. -/
def Obligations.PrimitivesRoundToNearest : Prop :=
  ∀ nan a b : F32, isFinite a = true → isFinite b = true →
    RoundsTo (add32 false nan a b) (units a + units b) 1 ∧
    (units a + units b = 0 →
      add32 false nan a b = if signBit a && signBit b then 0x80000000#32 else 0x00000000#32) ∧
    RoundsTo (sub32 false nan a b) (units a - units b) 1 ∧
    (units a - units b = 0 →
      sub32 false nan a b = if signBit a && !signBit b then 0x80000000#32 else 0x00000000#32) ∧
    RoundsTo (mul32 false nan a b) (units a * units b) (2 ^ 149) ∧
    signBit (mul32 false nan a b) = (signBit a ^^ signBit b) ∧
    (isZero b = false →
      RoundsTo (div32 false nan a b) (units a * 2 ^ 149 * (units b).sign) (units b).natAbs ∧
      signBit (div32 false nan a b) = (signBit a ^^ signBit b))

/-! ## Invariants every step keeps -/

/-- The canonical form of both stores. -/
def Obligations.StepKeepsStoresCanonical : Prop :=
  ∀ s t : State, s.storesCanonical → step s = .next t → t.storesCanonical

/-- R44: once prepared, the coefficients of each kind are the design of its cached cutoff. -/
def Obligations.StepKeepsCoefficientsMatchingCutoff : Prop :=
  ∀ s t : State, s.coefMatchesCutoff → step s = .next t → t.coefMatchesCutoff

/-- R19, R37, R81: SEQ is what is left of the command's sequence, and the context of a block in progress is legal;
and no step but a reset, after which CUR is a value the model chose (log entry 1), makes a legal context illegal. -/
def Obligations.StepKeepsSequenceInProgress : Prop :=
  ∀ s t : State, step s = .next t →
    (s.seqInProgress → t.seqInProgress) ∧
    ((∀ rest, s.turns ≠ .reset :: rest) → s.cur.legal → t.cur.legal)

/-- The cached cutoffs of a prepared GDFX stay in [20, 20000]; and no step but a reset, after which SNAP holds values
the model chose (log entry 1), puts a NaN into a snapshot register. -/
def Obligations.StepKeepsCutoffsInRange : Prop :=
  ∀ s t : State, step s = .next t →
    (s.cutoffsInRange → t.cutoffsInRange) ∧
    ((∀ rest, s.turns ≠ .reset :: rest) → s.snapshotNumeric → t.snapshotNumeric)

/-- Every clean launch, whatever the registers hold that R45 leaves unspecified, meets the invariants, and the reset
state is one.  Its legal context and its snapshot registers are values the model chose (log entry 1). -/
def Obligations.ResetMeetsInvariants : Prop :=
  (∀ s : State, s.cleanLaunch →
    s.storesCanonical ∧ s.coefMatchesCutoff ∧ s.seqInProgress ∧ s.cutoffsInRange ∧ s.blockParamsInRange) ∧
  State.reset.cleanLaunch ∧ State.reset.cur.legal ∧ State.reset.snapshotNumeric

/-- R158, R174: while the duties are kept, no step of the sequencer raises a fault, and no access raises one but for
a malformed access, a reserved command word or a word that holds no value; this holds of every step that starts from
the two invariants, which the step keeps, and so all along every run that starts from the launch premise. -/
def Obligations.KeptDutiesRuleFaultsOut : Prop :=
  let fromAccess (t : State) : Prop := ∀ f, t.fault = some f →
    f.agent ≠ .sequencer ∧ (f.code = .busAccess ∨ f.code = .reservedCommand ∨ f.code = .unwrittenRead)
  (∀ s t : State, s.seqInProgress → s.blockParamsInRange → s.nextAccessDuty → s.fault = none → step s = .next t →
    t.seqInProgress ∧ t.blockParamsInRange ∧ fromAccess t) ∧
  ∀ (s t : State) (n : Nat), s.launchPremise → Host.Core.run Sys2Proof.core n s = .next t → fromAccess t

/-! ## Commands run to their end -/

/-- R147, R189: from any state in the middle of a command, with every parameter in range and no further
turn of another agent, at most 23 steps reach a good end of the run: idle, without a fault. -/
def Obligations.CommandEndsWithinTwentyThreeSteps : Prop :=
  ∀ s : State, s.seqInProgress → s.busy = true → s.fault = none → s.turns = [] → s.paramsInRange →
    ∃ (n : Nat) (t : State), n ≤ 23 ∧ Host.Core.run Sys2Proof.core n s = .next t ∧ t.busy = false ∧ t.seq = [] ∧
      t.fault = none ∧ t.endedWell

/-- R132's example: with SAMPLE_RATE written and GDFX idle, the write of 0x00000001 to CMD and the two
micro-ops leave GDFX prepared at that rate, with STATUS 0x00000001. -/
def Obligations.PrepareRunsToPrepared : Prop :=
  ∀ (s : State) (writer : Bool) (fs : F32), s.fault = none → s.busy = false → s.sampleRate = some fs →
    s.turns = [busTurn writer { width := 32, off := 0x000#17, op := .write 0x00000001#32 }] →
    ∃ t : State, Host.Core.run Sys2Proof.core 3 s = .next t ∧ statusWord t = 0x00000001#32 ∧ t.fault = none ∧ t.sr = fs ∧
      t.seq = [] ∧ t.buf = s.buf ∧ t.dry = s.dry ∧ t.sampleRate = s.sampleRate ∧ t.param = s.param ∧
      t.snap = s.snap ∧ t.glin = s.glin ∧ t.cur = s.cur

/-- R140, R141, in all four channel layouts: the whole sequence of a block, from its first micro-op to END, with every
parameter in range and no further turn of another agent.  The gain and the coefficients are those of the parameters;
an input channel ends as the whole chain of its input, and an output channel without an input as +0.0.  `nan…` and the
NaNs of the `e…` are the unspecified NaN results: `admits e` says that `e` computes as GDFX is configured and answers
NaNs where a result is a NaN. -/
def Obligations.BlockComputesWholeChain : Prop :=
  let admits (e : Chan → Nat → Fp) : Prop :=
    ∀ c i, (e c i).flush = Config.flushSubnormals ∧ ∀ j, isNaN ((e c i).nan j) = true
  ∀ (s : State) (x : Chan → Nat → F32), s.cur.legal →
    s.seq = sequenceWords (blockSequence s.cur.nin s.cur.nout) → s.busy = true → s.fault = none → s.turns = [] →
    s.paramsInRange →
    (∀ c i, c.index < s.cur.nin → i < s.cur.len → s.buf.word? (bufOffset c i) = some (x c i)) →
    ∃ (t : State) (eShape eLp eHp eMix eGain : Chan → Nat → Fp) (nanUpd : Kind → F32) (nanGlin d tone hpf m g : F32),
      Host.Core.run Sys2Proof.core s.seq.length s = .next t ∧ t.busy = false ∧ t.fault = none ∧ t.seq = [] ∧
      admits eShape ∧ admits eLp ∧ admits eHp ∧ admits eMix ∧ admits eGain ∧
      (∀ k, isNaN (nanUpd k) = true) ∧ isNaN nanGlin = true ∧
      s.param = { drive := some d, tone := some tone, hpf := some hpf, mix := some m, outgain := some g } ∧
      t.glin = Config.pow10 (div32 Config.flushSubnormals nanGlin g 0x41A00000#32) ∧
      (∀ k : Kind,
        let target := clamp32 (match k with | .lp => tone | .hp => hpf) 0x41A00000#32 0x469C4000#32
        let distance := abs32 (sub32 Config.flushSubnormals (nanUpd k) target (s.cached.get k))
        t.coef.get k = if lt32 0x3F800000#32 distance then Config.design k target s.sr else s.coef.get k) ∧
      (∀ (c : Chan) (i : Nat), c.index < s.cur.nin → i < s.cur.len →
        let shaped := fun i => shapeSample (eShape c i) d (x c i)
        let low := filterOutput (eLp c) (t.coef.get .lp) shaped ((s.dly.get .lp).get c)
        let high := filterOutput (eHp c) (t.coef.get .hp) low ((s.dly.get .hp).get c)
        t.buf.word? (bufOffset c i) = some
          (gainSample (eGain c i) t.glin (mixSample (eMix c i) m (dryWeight (eMix c 0) m) (x c i) (high i)))) ∧
      (∀ (c : Chan) (i : Nat), s.cur.nin ≤ c.index → c.index < max s.cur.nin s.cur.nout → i < s.cur.len →
        t.buf.word? (bufOffset c i) = some 0x00000000#32)
end

