-- ==== Sys2Proof/Laws/Float.lean ====
section
/-! SUPPORT. The laws of binary32 rounding: the exact value of a magnitude, that rounding is to nearest and
exact where it can be, and the order of the values. -/

namespace Sys2Proof.Machine

/-! ## The exact value of bits 30:0 -/

/-- The magnitude in units of 2^-149 of a word whose bits 30:0 are `m`. -/
def unitsOfMag (m : Nat) : Nat := if m / 2 ^ 23 = 0 then m % 2 ^ 23 else (2 ^ 23 + m % 2 ^ 23) * 2 ^ (m / 2 ^ 23 - 1)

theorem magUnits_eq (v : F32) : magUnits v = unitsOfMag (magBits v) := rfl

/-- A magnitude given by a significand `n` of at most 24 bits (or 2^24) and a number `k` of dropped bits. -/
theorem unitsOfMag_scaled {k n : Nat} (h : n ≤ 2 ^ 24) (h' : k = 0 ∨ 2 ^ 23 ≤ n) :
    unitsOfMag (k * 2 ^ 23 + n) = n * 2 ^ k := by
  unfold unitsOfMag
  rcases Nat.lt_or_ge n (2 ^ 23) with h1 | h1
  · have hk : k = 0 := by omega
    subst hk
    rw [if_pos (by omega)]
    omega
  · rcases Nat.lt_or_ge n (2 ^ 24) with h2 | h2
    · have hd : (k * 2 ^ 23 + n) / 2 ^ 23 = k + 1 := by omega
      have hm : (k * 2 ^ 23 + n) % 2 ^ 23 = n - 2 ^ 23 := by omega
      rw [hd, hm, if_neg (by omega), Nat.add_sub_cancel' h1, Nat.add_sub_cancel]
    · have hn : n = 2 ^ 24 := by omega
      subst hn
      have hd : (k * 2 ^ 23 + 2 ^ 24) / 2 ^ 23 = k + 2 := by omega
      have hm : (k * 2 ^ 23 + 2 ^ 24) % 2 ^ 23 = 0 := by omega
      rw [hd, hm, if_neg (by omega)]
      show (2 ^ 23 + 0) * 2 ^ (k + 1) = 2 ^ 24 * 2 ^ k
      rw [pow_succ]
      ring

/-- Every magnitude has that form. -/
theorem mag_scaled (m : Nat) :
    ∃ k n, m = k * 2 ^ 23 + n ∧ n < 2 ^ 24 ∧ (k = 0 ∨ 2 ^ 23 ≤ n) ∧ unitsOfMag m = n * 2 ^ k := by
  rcases Nat.eq_zero_or_pos (m / 2 ^ 23) with h | h
  · refine ⟨0, m, by omega, by omega, .inl rfl, ?_⟩
    have := unitsOfMag_scaled (k := 0) (n := m) (by omega) (.inl rfl)
    simpa using this
  · have hm : m = (m / 2 ^ 23 - 1) * 2 ^ 23 + (2 ^ 23 + m % 2 ^ 23) := by omega
    refine ⟨m / 2 ^ 23 - 1, 2 ^ 23 + m % 2 ^ 23, hm, by omega, .inr (by omega), ?_⟩
    have := unitsOfMag_scaled (k := m / 2 ^ 23 - 1) (n := 2 ^ 23 + m % 2 ^ 23) (by omega) (.inr (by omega))
    rwa [← hm] at this

/-- A larger word has a larger magnitude. -/
theorem unitsOfMag_strictMono : StrictMono unitsOfMag := by
  refine strictMono_nat_of_lt_succ fun m => ?_
  obtain ⟨k, n, hm, hn, hk, hu⟩ := mag_scaled m
  have hs : unitsOfMag (m + 1) = (n + 1) * 2 ^ k := by
    have := unitsOfMag_scaled (k := k) (n := n + 1) (by omega) (by omega)
    rwa [← add_assoc, ← hm] at this
  rw [hu, hs]
  exact Nat.mul_lt_mul_of_pos_right (by omega) (by positivity)

theorem unitsOfMag_zero : unitsOfMag 0 = 0 := by decide

/-! ## Rounding to the nearest integer -/

/-- `roundHalfEven` is at least as near as any other integer. -/
theorem roundHalfEven_nearest (num : Nat) {den : Nat} (hd : 0 < den) (j : Nat) :
    |(roundHalfEven num den : Int) * den - num| ≤ |(j : Int) * den - num| := by
  have hdiv : (den : Int) * (num / den : Nat) + (num % den : Nat) = num := by
    exact_mod_cast Nat.div_add_mod num den
  have hr : num % den < den := Nat.mod_lt _ hd
  set q := num / den with hq
  set r := num % den with hrdef
  have key : |(roundHalfEven num den : Int) * den - num| ≤ min (r : Int) (den - r) := by
    have h0 : ((q : Int) * den - num) = -r := by linarith
    have h1 : (((q + 1 : Nat) : Int) * den - num) = den - r := by
      push_cast
      linarith
    unfold roundHalfEven
    simp only [← hq, ← hrdef]
    split
    · rw [h0, abs_neg, abs_of_nonneg (by positivity)]
      omega
    · split
      · rw [h1, abs_of_nonneg (by omega)]
        omega
      · rcases Nat.mod_two_eq_zero_or_one q with hp | hp
        · rw [hp, Nat.add_zero, h0, abs_neg, abs_of_nonneg (by positivity)]
          omega
        · rw [hp, h1, abs_of_nonneg (by omega)]
          omega
  refine key.trans ?_
  rcases le_or_gt (j : Int) q with hj | hj
  · have : (j : Int) * den ≤ q * den := by gcongr
    rw [abs_of_nonpos (by linarith)]
    have : (r : Int) ≤ -((j : Int) * den - num) := by linarith
    exact (min_le_left _ _).trans this
  · have : ((q : Int) + 1) * den ≤ j * den := by
      gcongr
      omega
    have h2 : (den : Int) - r ≤ j * den - num := by linarith
    exact (min_le_right _ _).trans (h2.trans (le_abs_self _))

/-- An integer at the same distance as `roundHalfEven` is it, or it is even: ties go to even. -/
theorem roundHalfEven_even {num den j : Nat} (hd : 0 < den) (hne : roundHalfEven num den ≠ j)
    (h : |(roundHalfEven num den : Int) * den - num| = |(j : Int) * den - num|) : roundHalfEven num den % 2 = 0 := by
  have hdiv : (den : Int) * (num / den : Nat) + (num % den : Nat) = num := by
    exact_mod_cast Nat.div_add_mod num den
  have hr : num % den < den := Nat.mod_lt _ hd
  have hval : roundHalfEven num den = if 2 * (num % den) < den then num / den
      else if den < 2 * (num % den) then num / den + 1 else num / den + num / den % 2 := rfl
  rw [hval] at hne h ⊢
  set q := num / den
  set r := num % den
  split at h
  · exfalso
    rename_i hlt
    rw [if_pos hlt] at hne
    rw [show (q : Int) * den - num = -r by linarith, abs_neg, abs_of_nonneg (by positivity)] at h
    rcases lt_or_gt_of_ne hne with hj | hj
    · have h1 : ((q : Int) + 1) * den ≤ j * den := by
        gcongr
        omega
      have := le_abs_self ((j : Int) * den - num)
      have : (r : Int) + r < den := by omega
      linarith
    · have h1 : (j : Int) * den ≤ (q - 1) * den := by
        gcongr
        omega
      have := neg_le_abs ((j : Int) * den - num)
      linarith
  · rename_i hge
    split at h
    · exfalso
      rename_i hgt
      rw [if_neg hge, if_pos hgt] at hne
      have h0 : (den : Int) < r + r := by omega
      rw [show ((q + 1 : Nat) : Int) * den - num = den - r by push_cast; linarith, abs_of_nonneg (by omega)] at h
      rcases lt_or_gt_of_ne hne with hj | hj
      · have h2 : ((q : Int) + 2) * den ≤ j * den := by
          gcongr
          omega
        have := le_abs_self ((j : Int) * den - num)
        linarith
      · have h2 : (j : Int) * den ≤ q * den := by
          gcongr
          omega
        have := neg_le_abs ((j : Int) * den - num)
        linarith
    · rename_i hle
      rw [if_neg hge, if_neg hle]
      omega

/-- Rounding stays between integer bounds of the fraction. -/
theorem roundHalfEven_bounds {num den lo hi : Nat} (hd : 0 < den) (hlo : lo * den ≤ num)
    (hhi : num ≤ hi * den) : lo ≤ roundHalfEven num den ∧ roundHalfEven num den ≤ hi := by
  have h1 : lo ≤ num / den := (Nat.le_div_iff_mul_le hd).2 hlo
  have hr : num % den < den := Nat.mod_lt _ hd
  have hdm := Nat.div_add_mod num den
  have h2 : num / den ≤ hi := by
    have := Nat.div_le_div_right (c := den) hhi
    rwa [Nat.mul_div_cancel _ hd] at this
  have h3 : num / den = hi → num % den = 0 := fun h => by
    rw [h, mul_comm] at hdm
    omega
  unfold roundHalfEven
  simp only
  split
  · exact ⟨h1, h2⟩
  · have hne : num / den < hi := lt_of_le_of_ne h2 fun h => by
      have := h3 h
      omega
    split
    · omega
    · have := Nat.mod_lt (num / den) (show 0 < 2 by norm_num)
      omega

/-! ## Rounding to binary32 -/

/-- The significand and the exponent that `roundMag` finds. -/
theorem roundMag_significand {num den : Nat} (hd : 0 < den) :
    let k := dropBits (num / den)
    let n := roundHalfEven num (den * 2 ^ k)
    n ≤ 2 ^ 24 ∧ (k = 0 ∨ (2 ^ 23 ≤ n ∧ 2 ^ 23 * (den * 2 ^ k) ≤ num)) := by
  intro k n
  have hD : 0 < den * 2 ^ k := by positivity
  have hq : num / den < 2 ^ (24 + k) := by
    have := Nat.lt_log2_self (n := num / den)
    refine this.trans_le (Nat.pow_le_pow_right (by norm_num) ?_)
    show (num / den).log2 + 1 ≤ 24 + ((num / den).log2 - 23)
    omega
  have hhi : num ≤ 2 ^ 24 * (den * 2 ^ k) := by
    have h1 : num < den * 2 ^ (24 + k) := by
      have := (Nat.div_lt_iff_lt_mul hd).1 hq
      rwa [mul_comm]
    calc num ≤ den * 2 ^ (24 + k) := h1.le
      _ = 2 ^ 24 * (den * 2 ^ k) := by rw [pow_add]; ring
  refine ⟨(roundHalfEven_bounds hD (lo := 0) (by simp) hhi).2, ?_⟩
  rcases Nat.eq_zero_or_pos k with hk | hk
  · exact .inl hk
  · have hk' : k = (num / den).log2 - 23 := rfl
    have hne : num / den ≠ 0 := by
      intro h
      rw [h] at hk'
      simp at hk'
      omega
    have h2 : 2 ^ (23 + k) ≤ num / den := by
      refine le_trans (Nat.pow_le_pow_right (by norm_num) ?_) (Nat.log2_self_le hne)
      omega
    have h3 : 2 ^ 23 * (den * 2 ^ k) ≤ num := by
      calc 2 ^ 23 * (den * 2 ^ k) = 2 ^ (23 + k) * den := by rw [pow_add]; ring
        _ ≤ num := (Nat.le_div_iff_mul_le hd).1 h2
    exact .inr ⟨(roundHalfEven_bounds hD h3 hhi).1, h3⟩

/-- Rounding without the overflow threshold: to nearest (R12). -/
theorem roundMag_nearest_core (num : Nat) {den : Nat} (hd : 0 < den) (c : Nat) :
    |(unitsOfMag (dropBits (num / den) * 2 ^ 23 + roundHalfEven num (den * 2 ^ dropBits (num / den))) : Int)
        * den - num| ≤ |(unitsOfMag c : Int) * den - num| := by
  have hs := roundMag_significand (num := num) hd
  simp only at hs
  set k := dropBits (num / den) with hk
  set n := roundHalfEven num (den * 2 ^ k) with hn
  rw [unitsOfMag_scaled hs.1 (hs.2.imp id fun h => h.1)]
  have hD : 0 < den * 2 ^ k := by positivity
  have near := fun j => roundHalfEven_nearest num hD j
  rw [← hn] at near
  have cast : ∀ j : Nat, ((j * 2 ^ k : Nat) : Int) * den - num = (j : Int) * (den * 2 ^ k : Nat) - num := by
    intro j
    push_cast
    ring
  rw [cast]
  obtain ⟨k', n', -, hn', hk', hu⟩ := mag_scaled c
  rw [hu]
  rcases Nat.lt_or_ge k' k with h | h
  · have h3 : 2 ^ 23 * (den * 2 ^ k) ≤ num := by
      rcases hs.2 with h0 | h0
      · omega
      · exact h0.2
    have h4 : n' * 2 ^ k' ≤ 2 ^ 23 * 2 ^ k := by
      obtain ⟨d, hkd⟩ : ∃ d, k = k' + 1 + d := ⟨k - (k' + 1), by omega⟩
      calc n' * 2 ^ k' ≤ 2 ^ 24 * 2 ^ k' := by gcongr
        _ = 2 ^ 23 * (2 ^ (k' + 1) * 1) := by rw [pow_succ]; ring
        _ ≤ 2 ^ 23 * (2 ^ (k' + 1) * 2 ^ d) := by
          gcongr
          exact Nat.one_le_two_pow
        _ = 2 ^ 23 * 2 ^ k := by rw [hkd, pow_add 2 (k' + 1) d]
    refine (near (2 ^ 23)).trans ?_
    have h5 : ((2 ^ 23 : Nat) : Int) * (den * 2 ^ k : Nat) ≤ num := by exact_mod_cast h3
    have h6 : ((n' * 2 ^ k' : Nat) : Int) * den ≤ ((2 ^ 23 : Nat) : Int) * (den * 2 ^ k : Nat) := by
      have : n' * 2 ^ k' * den ≤ 2 ^ 23 * (den * 2 ^ k) := by
        calc n' * 2 ^ k' * den ≤ 2 ^ 23 * 2 ^ k * den := by gcongr
          _ = 2 ^ 23 * (den * 2 ^ k) := by ring
      exact_mod_cast this
    rw [abs_of_nonpos (by linarith), abs_of_nonpos (by linarith)]
    linarith
  · obtain ⟨d, rfl⟩ : ∃ d, k' = k + d := ⟨k' - k, by omega⟩
    have : n' * 2 ^ (k + d) = (n' * 2 ^ d) * 2 ^ k := by
      rw [pow_add]
      ring
    rw [this, cast]
    exact near _

/-- Rounding without the overflow threshold: a tie goes to the even word. -/
theorem roundMag_even_core {num den c : Nat} (hd : 0 < den)
    (hne : dropBits (num / den) * 2 ^ 23 + roundHalfEven num (den * 2 ^ dropBits (num / den)) ≠ c)
    (h : |(unitsOfMag (dropBits (num / den) * 2 ^ 23 + roundHalfEven num (den * 2 ^ dropBits (num / den))) : Int)
        * den - num| = |(unitsOfMag c : Int) * den - num|) :
    (dropBits (num / den) * 2 ^ 23 + roundHalfEven num (den * 2 ^ dropBits (num / den))) % 2 = 0 := by
  have hs := roundMag_significand (num := num) hd
  simp only at hs
  have hu : ∀ x y, unitsOfMag x = unitsOfMag y → x = y := fun _ _ e => unitsOfMag_strictMono.injective e
  set k := dropBits (num / den) with hk
  set n := roundHalfEven num (den * 2 ^ k) with hn
  have hun := unitsOfMag_scaled hs.1 (hs.2.imp id fun h => h.1)
  have hD : 0 < den * 2 ^ k := by positivity
  suffices hne' : ∃ j, n ≠ j ∧ |(n : Int) * (den * 2 ^ k : Nat) - num| = |(j : Int) * (den * 2 ^ k : Nat) - num| by
    obtain ⟨j, hj, he⟩ := hne'
    have := roundHalfEven_even hD hj he
    rw [← hn] at this
    omega
  have cast : ∀ j : Nat, ((j * 2 ^ k : Nat) : Int) * den - num = (j : Int) * (den * 2 ^ k : Nat) - num := by
    intro j
    push_cast
    ring
  rw [hun, cast] at h
  obtain ⟨k', n', -, hn', hk', hcu⟩ := mag_scaled c
  rw [hcu] at h
  rcases Nat.lt_or_ge k' k with hlt | hge
  · -- the other value is at most `2^23` in the places of the result
    have h3 : 2 ^ 23 * (den * 2 ^ k) ≤ num := by
      rcases hs.2 with h0 | h0
      · omega
      · exact h0.2
    have h4 : n' * 2 ^ k' ≤ 2 ^ 23 * 2 ^ k := by
      obtain ⟨d, hkd⟩ : ∃ d, k = k' + 1 + d := ⟨k - (k' + 1), by omega⟩
      calc n' * 2 ^ k' ≤ 2 ^ 24 * 2 ^ k' := by gcongr
        _ = 2 ^ 23 * (2 ^ (k' + 1) * 1) := by rw [pow_succ]; ring
        _ ≤ 2 ^ 23 * (2 ^ (k' + 1) * 2 ^ d) := by
          gcongr
          exact Nat.one_le_two_pow
        _ = 2 ^ 23 * 2 ^ k := by rw [hkd, pow_add 2 (k' + 1) d]
    have near := roundHalfEven_nearest num hD (2 ^ 23)
    rw [← hn] at near
    have h5 : ((2 ^ 23 : Nat) : Int) * (den * 2 ^ k : Nat) ≤ num := by exact_mod_cast h3
    have h6 : ((n' * 2 ^ k' : Nat) : Int) * den ≤ ((2 ^ 23 : Nat) : Int) * (den * 2 ^ k : Nat) := by
      have : n' * 2 ^ k' * den ≤ 2 ^ 23 * (den * 2 ^ k) := by
        calc n' * 2 ^ k' * den ≤ 2 ^ 23 * 2 ^ k * den := by gcongr
          _ = 2 ^ 23 * (den * 2 ^ k) := by ring
      exact_mod_cast this
    rw [abs_of_nonpos (a := ((2 ^ 23 : Nat) : Int) * (den * 2 ^ k : Nat) - num) (by linarith)] at near
    have h' := h
    rw [abs_of_nonpos (a := ((n' * 2 ^ k' : Nat) : Int) * den - num) (by linarith)] at h
    have heq : ((n' * 2 ^ k' : Nat) : Int) * den = ((2 ^ 23 : Nat) : Int) * (den * 2 ^ k : Nat) := by linarith
    refine ⟨2 ^ 23, fun hn23 => hne (hu _ _ ?_), by rw [h', heq]⟩
    rw [hun, hcu, hn23]
    have hd' : (den : Int) ≠ 0 := by exact_mod_cast hd.ne'
    have : ((n' * 2 ^ k' : Nat) : Int) * den = ((2 ^ 23 * 2 ^ k : Nat) : Int) * den := by
      rw [heq]
      push_cast
      ring
    exact_mod_cast (mul_right_cancel₀ hd' this).symm
  · obtain ⟨d, rfl⟩ : ∃ d, k' = k + d := ⟨k' - k, by omega⟩
    have hj : n' * 2 ^ (k + d) = (n' * 2 ^ d) * 2 ^ k := by
      rw [pow_add]
      ring
    rw [hj, cast] at h
    refine ⟨n' * 2 ^ d, fun e => hne (hu _ _ ?_), h⟩
    rw [hun, hcu, hj, ← e]

/-- The exact values of the largest finite magnitude and of the one past it. -/
theorem unitsOfMag_infMag :
    unitsOfMag (infMag - 1) = (2 ^ 24 - 1) * 2 * 2 ^ 252 ∧ unitsOfMag infMag = 2 ^ 25 * 2 ^ 252 := by
  constructor <;> decide

/-- A result is finite exactly below the overflow threshold, `2^128 - 2^103`. -/
theorem roundMag_lt_infMag_iff {num den : Nat} (hd : 0 < den) :
    roundMag num den < infMag ↔ num < (2 ^ 25 - 1) * 2 ^ 252 * den := by
  obtain ⟨hmax, hinf⟩ := unitsOfMag_infMag
  have hmin : roundMag num den < infMag ↔
      dropBits (num / den) * 2 ^ 23 + roundHalfEven num (den * 2 ^ dropBits (num / den)) < infMag := by
    simp [roundMag]
  rw [hmin]
  have near := roundMag_nearest_core num hd
  have even := fun c => roundMag_even_core (num := num) (c := c) hd
  generalize dropBits (num / den) * 2 ^ 23 + roundHalfEven num (den * 2 ^ dropBits (num / den)) = r at *
  -- one place of the largest binade, times the denominator, is `2 * w`
  have hp : 0 < 2 ^ 252 := by positivity
  generalize (2 : Nat) ^ 252 = p at *
  have step : ∀ a : Nat, ((a * p : Nat) : Int) * den = a * (p * den : Nat) := fun a => by
    push_cast
    ring
  have hmaxI : (unitsOfMag (infMag - 1) : Int) * den = (2 ^ 25 - 2) * (p * den : Nat) := by
    rw [hmax, step]
    norm_num
  have hinfI : (unitsOfMag infMag : Int) * den = 2 ^ 25 * (p * den : Nat) := by
    rw [hinf, step]
    norm_num
  have mono : ∀ {x y : Nat}, x ≤ y → (unitsOfMag x : Int) * den ≤ unitsOfMag y * den := fun {x y} h => by
    have : (unitsOfMag x : Int) ≤ unitsOfMag y := by exact_mod_cast unitsOfMag_strictMono.monotone h
    gcongr
  have hw : 0 < p * den := by positivity
  have h1 := near infMag
  have h2 := near (infMag - 1)
  rw [hinfI] at h1
  rw [hmaxI] at h2
  rw [show (2 ^ 25 - 1) * p * den = (2 ^ 25 - 1) * (p * den) by ring]
  generalize p * den = w at *
  constructor
  · intro hr
    have hle := mono (show r ≤ infMag - 1 by omega)
    rw [hmaxI] at hle
    by_contra hnot
    have hge : (2 ^ 25 - 1 : Int) * w ≤ num := by omega
    have hw' : (0 : Int) < w := by omega
    have e1 : |(unitsOfMag r : Int) * den - num| = num - unitsOfMag r * den := by
      rw [abs_of_nonpos (by linarith)]
      ring
    have heq : (num : Int) = (2 ^ 25 - 1) * w ∧
        (unitsOfMag r : Int) * den = (2 ^ 25 - 2) * w := by
      rw [e1] at h1
      rcases abs_cases ((2 ^ 25 : Int) * w - num) with ⟨h, -⟩ | ⟨h, -⟩ <;> rw [h] at h1 <;>
        constructor <;> linarith
    have hrmax : r = infMag - 1 := by
      refine unitsOfMag_strictMono.injective ?_
      have hd' : (den : Int) ≠ 0 := by exact_mod_cast hd.ne'
      have := mul_right_cancel₀ hd' (heq.2.trans hmaxI.symm)
      exact_mod_cast this
    have := even infMag (by omega) (by
      rw [hinfI, e1, heq.1, heq.2, abs_of_nonneg (by linarith)]
      ring)
    rw [hrmax] at this
    exact absurd this (by decide)
  · intro hlt
    by_contra hr
    have hge := mono (not_lt.1 hr)
    rw [hinfI] at hge
    have hlt' : (num : Int) < (2 ^ 25 - 1) * w := by omega
    rw [abs_of_nonneg (a := (unitsOfMag r : Int) * den - num) (by linarith)] at h2
    rcases abs_cases ((2 ^ 25 - 2 : Int) * w - num) with ⟨h, -⟩ | ⟨h, -⟩ <;> rw [h] at h2 <;> linarith

/-- A finite result that is no nearer than another value is even. -/
theorem roundMag_even {num den c : Nat} (hd : 0 < den) (hf : roundMag num den < infMag) (hne : roundMag num den ≠ c)
    (h : |(unitsOfMag (roundMag num den) : Int) * den - num| = |(unitsOfMag c : Int) * den - num|) :
    roundMag num den % 2 = 0 := by
  have e : roundMag num den =
      dropBits (num / den) * 2 ^ 23 + roundHalfEven num (den * 2 ^ dropBits (num / den)) := by
    unfold roundMag at hf ⊢
    simp only at hf ⊢
    omega
  rw [e] at hne h ⊢
  exact roundMag_even_core hd hne h

/-- A result below the overflow threshold is nearest. -/
theorem roundMag_nearest {num den : Nat} (hd : 0 < den) (hf : roundMag num den < infMag) (c : Nat) :
    |(unitsOfMag (roundMag num den) : Int) * den - num| ≤ |(unitsOfMag c : Int) * den - num| := by
  have : roundMag num den =
      dropBits (num / den) * 2 ^ 23 + roundHalfEven num (den * 2 ^ dropBits (num / den)) := by
    unfold roundMag at hf ⊢
    simp only at hf ⊢
    omega
  rw [this]
  exact roundMag_nearest_core num hd c

/-- A representable exact result is the result. -/
theorem roundMag_exact {c den : Nat} (hd : 0 < den) (hc : c ≤ infMag) :
    roundMag (unitsOfMag c * den) den = c := by
  have h := roundMag_nearest_core (unitsOfMag c * den) hd c
  have h0 : (unitsOfMag c : Int) * den - ((unitsOfMag c * den : Nat) : Int) = 0 := by
    push_cast
    ring
  rw [h0, abs_zero] at h
  have h1 := abs_eq_zero.1 (le_antisymm h (abs_nonneg _))
  have h2 : unitsOfMag (dropBits (unitsOfMag c * den / den) * 2 ^ 23 +
      roundHalfEven (unitsOfMag c * den) (den * 2 ^ dropBits (unitsOfMag c * den / den))) = unitsOfMag c := by
    have hd' : (den : Int) ≠ 0 := by exact_mod_cast hd.ne'
    have h3 := sub_eq_zero.1 h1
    push_cast at h3
    exact_mod_cast mul_right_cancel₀ hd' h3
  have h3 := unitsOfMag_strictMono.injective h2
  unfold roundMag
  simp only
  rw [h3]
  exact min_eq_left hc

theorem roundMag_le (num den : Nat) : roundMag num den ≤ infMag := min_le_right _ _

theorem roundMag_lt (num den : Nat) : roundMag num den < 2 ^ 31 :=
  (roundMag_le num den).trans_lt (by decide)

/-- What is at most a representable value rounds to at most that value. -/
theorem roundMag_le_of_le {num den L : Nat} (hd : 0 < den) (h : num ≤ unitsOfMag L * den) :
    roundMag num den ≤ L := by
  by_contra hlt
  have hlt := not_le.1 hlt
  by_cases hf : roundMag num den < infMag
  · have near := roundMag_nearest hd hf L
    have h1 : (unitsOfMag L : Int) < unitsOfMag (roundMag num den) := by exact_mod_cast unitsOfMag_strictMono hlt
    have h2 : (num : Int) ≤ unitsOfMag L * den := by exact_mod_cast h
    have h3 : (unitsOfMag L : Int) * den < unitsOfMag (roundMag num den) * den := by
      have : (0 : Int) < den := by exact_mod_cast hd
      nlinarith
    rw [abs_of_nonneg (by linarith), abs_of_nonneg (by linarith)] at near
    linarith
  · rw [roundMag_lt_infMag_iff hd] at hf
    have := unitsOfMag_strictMono.monotone (show L ≤ infMag - 1 by have := roundMag_le num den; omega)
    rw [unitsOfMag_infMag.1] at this
    have : unitsOfMag L * den ≤ (2 ^ 24 - 1) * 2 * 2 ^ 252 * den := Nat.mul_le_mul_right _ this
    have h5 : (2 ^ 24 - 1) * 2 * 2 ^ 252 * den < (2 ^ 25 - 1) * 2 ^ 252 * den := by
      apply Nat.mul_lt_mul_of_pos_right _ hd
      decide
    omega

theorem roundMag_zero {den : Nat} (hd : 0 < den) : roundMag 0 den = 0 := by
  have := roundMag_exact (c := 0) hd (by decide)
  rwa [unitsOfMag_zero, Nat.zero_mul] at this

/-! ## Order -/

/-- The order of the words is the order of the exact values. -/
theorem orderKey_lt_iff (a b : F32) : orderKey a < orderKey b ↔ units a < units b := by
  have hlt : ∀ x y, magBits x < magBits y ↔ magUnits x < magUnits y := fun x y => by
    rw [magUnits_eq, magUnits_eq, unitsOfMag_strictMono.lt_iff_lt]
  have hz : ∀ x, magUnits x = 0 ↔ magBits x = 0 := fun x => by
    rw [magUnits_eq]
    constructor
    · intro h
      exact unitsOfMag_strictMono.injective (h.trans unitsOfMag_zero.symm)
    · intro h
      rw [h, unitsOfMag_zero]
  have h1 := hlt a b
  have h2 := hlt b a
  have h3 := hz a
  have h4 := hz b
  unfold orderKey units
  cases signBit a <;> cases signBit b <;> simp <;> omega

theorem orderKey_le_iff (a b : F32) : orderKey a ≤ orderKey b ↔ units a ≤ units b := by
  rw [← not_lt, ← not_lt, orderKey_lt_iff]

theorem units_neg32 (v : F32) : units (neg32 v) = -units v := by
  have : magUnits (neg32 v) = magUnits v := by simp [magUnits_eq]
  unfold units
  rw [this, signBit_neg32]
  cases signBit v <;> simp

end Sys2Proof.Machine
end

