-- ==== Sys2Proof/Laws/Arith.lean ====
section
/-! SUPPORT. The primitives at zeros, at 1.0 and at NaNs, with and without flushing of subnormals: the facts
the corner cases of SHAPE, MIX, GAINCALC and GAIN rest on. -/

namespace Sys2Proof.Machine

/-! ## Classes -/

theorem isNaN_of_isZero {v : F32} (h : isZero v = true) : isNaN v = false := by
  simp [isZero, isNaN] at h ⊢
  omega

theorem isInf_of_isFinite {v : F32} (h : isFinite v = true) : isInf v = false := by
  simp [isFinite, isInf] at h ⊢
  omega

theorem isFinite_of_isZero {v : F32} (h : isZero v = true) : isFinite v = true := by
  have hi : infMag = 0x7F800000 := rfl
  simp only [isZero, isFinite, decide_eq_true_eq] at h ⊢
  omega

theorem isSubnormal_of_isNaN {v : F32} (h : isNaN v = true) : isSubnormal v = false := by
  have hi : infMag = 0x7F800000 := rfl
  have hm : minNormalMag = 0x00800000 := rfl
  simp only [isNaN, isSubnormal, decide_eq_true_eq, decide_eq_false_iff_not] at h ⊢
  omega

theorem isSubnormal_of_isZero {v : F32} (h : isZero v = true) : isSubnormal v = false := by
  simp only [isZero, isSubnormal, decide_eq_true_eq, decide_eq_false_iff_not] at h ⊢
  omega

/-- A value is a NaN, an infinity or finite. -/
theorem nan_inf_or_finite (v : F32) : isNaN v = true ∨ isInf v = true ∨ isFinite v = true := by
  simp only [isNaN, isInf, isFinite, decide_eq_true_eq]
  omega

theorem isZero_ofSignMag (b : Bool) : isZero (ofSignMag b 0) = true := by
  simp [isZero, magBits_ofSignMag b (m := 0) (by norm_num)]

theorem magUnits_of_isZero {v : F32} (h : isZero v = true) : magUnits v = 0 := by
  have : magBits v = 0 := by simpa [isZero] using h
  rw [magUnits_eq, this, unitsOfMag_zero]

theorem units_of_isZero {v : F32} (h : isZero v = true) : units v = 0 := by
  simp [units, magUnits_of_isZero h]

/-- The zero of a given sign. -/
theorem eq_ofSignMag_of_isZero {v : F32} (h : isZero v = true) : v = ofSignMag (signBit v) 0 := by
  have h0 : magBits v = 0 := by simpa [isZero] using h
  exact word_ext (signBit_ofSignMag _ (by norm_num)).symm (by rw [magBits_ofSignMag _ (by norm_num), h0])

/-! ## Flushing -/

/-- What is not subnormal is not flushed, and nothing is where the flag is clear. -/
theorem flushSub_eq {flush : Bool} {v : F32} (h : isSubnormal v = false ∨ flush = false) : flushSub flush v = v := by
  rcases h with h | h <;> simp [flushSub, h]

@[simp] theorem signBit_flushSub (flush : Bool) (v : F32) : signBit (flushSub flush v) = signBit v := by
  unfold flushSub
  split
  · exact signBit_ofSignMag _ (by norm_num)
  · rfl

theorem magBits_flushSub_le {flush : Bool} {v : F32} {n : Nat} (h : magBits v ≤ n) :
    magBits (flushSub flush v) ≤ n := by
  unfold flushSub
  split
  · rw [magBits_ofSignMag _ (by norm_num)]
    omega
  · exact h

theorem flushSub_of_isZero {flush : Bool} {v : F32} (h : isZero v = true) : flushSub flush v = v :=
  flushSub_eq (.inl (isSubnormal_of_isZero h))

theorem flushSub_of_isNaN {flush : Bool} {v : F32} (h : isNaN v = true) : flushSub flush v = v :=
  flushSub_eq (.inl (isSubnormal_of_isNaN h))

theorem isFinite_flushSub {flush : Bool} {v : F32} (h : isFinite v = true) : isFinite (flushSub flush v) = true := by
  unfold flushSub
  split
  · exact isFinite_of_isZero (isZero_ofSignMag _)
  · exact h

/-- What is not finite is not subnormal. -/
theorem flushSub_of_not_finite {flush : Bool} {v : F32} (h : isFinite v = false) : flushSub flush v = v := by
  refine flushSub_eq (.inl ?_)
  have hi : infMag = 0x7F800000 := rfl
  have hm : minNormalMag = 0x00800000 := rfl
  simp only [isFinite, isSubnormal, decide_eq_false_iff_not] at h ⊢
  omega

/-! ## Signed rounding -/

theorem units_ofSignMag (b : Bool) {m : Nat} (h : m < 2 ^ 31) :
    units (ofSignMag b m) = if b then -(unitsOfMag m : Int) else unitsOfMag m := by
  simp [units, signBit_ofSignMag _ h, magUnits_eq, magBits_ofSignMag _ h]

/-- A rounded magnitude with a sign is at least as near the signed exact result as any value is. -/
theorem roundMag_nearest_signed {num den : Nat} (hd : 0 < den) (b : Bool) (hf : roundMag num den < infMag) (c : F32) :
    |units (ofSignMag b (roundMag num den)) * den - (if b then -(num : Int) else num)| ≤
      |units c * den - (if b then -(num : Int) else num)| := by
  rw [units_ofSignMag _ (roundMag_lt _ _), units, magUnits_eq]
  have h := roundMag_nearest hd hf (magBits c)
  have h0 := roundMag_nearest hd hf 0
  rw [unitsOfMag_zero, Nat.cast_zero, zero_mul, zero_sub, abs_neg, Nat.abs_cast] at h0
  have hp : (0 : Int) ≤ unitsOfMag (magBits c) * den := by positivity
  generalize (unitsOfMag (roundMag num den) : Int) = r at *
  generalize (unitsOfMag (magBits c) : Int) = v at *
  have flip : ∀ y : Int, |(-y) * den - (-(num : Int))| = |y * den - num| := fun y => by
    rw [← abs_neg]
    congr 1
    ring
  have far : |r * den - num| ≤ |(-v) * den - num| := by
    refine h0.trans ?_
    have : (-v) * den - num = -(v * den + num) := by ring
    rw [this, abs_neg]
    exact le_trans (by linarith) (le_abs_self _)
  cases b <;> cases signBit c <;> simp only [Bool.false_eq_true, if_false, if_true, flip]
  · exact h
  · exact far
  · have := flip (-v)
    rw [neg_neg] at this
    rw [this]
    exact far
  · exact h

theorem isFinite_ofSignMag (b : Bool) {m : Nat} (h : m < 2 ^ 31) : isFinite (ofSignMag b m) = decide (m < infMag) := by
  rw [isFinite, magBits_ofSignMag b h]

theorem isInf_ofSignMag (b : Bool) {m : Nat} (h : m < 2 ^ 31) : isInf (ofSignMag b m) = decide (m = infMag) := by
  rw [isInf, magBits_ofSignMag b h]

theorem getLsbD_zero_ofSignMag (b : Bool) {m : Nat} (h : m < 2 ^ 31) :
    (ofSignMag b m).getLsbD 0 = decide (m % 2 = 1) := by
  rw [← BitVec.testBit_toNat, Nat.testBit_zero, toNat_ofSignMag b h]
  cases b
  · simp
  · simp only [if_true, decide_eq_decide]
    omega

/-- A rounded magnitude with the sign of the exact value is that value rounded. -/
theorem roundsTo_ofSignMag {num den : Nat} (hd : 0 < den) (b : Bool) :
    RoundsTo (ofSignMag b (roundMag num den)) (if b then -(num : Int) else num) den := by
  have hlt := roundMag_lt num den
  have habs : |(if b then -(num : Int) else num)| = num := by cases b <;> simp
  refine ⟨?_, ?_, ?_, ?_⟩
  · rw [isFinite_ofSignMag b hlt, decide_eq_true_eq, roundMag_lt_infMag_iff hd, habs]
    omega
  · rw [isFinite_ofSignMag b hlt, isInf_ofSignMag b hlt]
    have := roundMag_le num den
    simp only [decide_eq_false_iff_not, decide_eq_true_eq]
    omega
  · intro hne
    rw [signBit_ofSignMag b hlt]
    cases b
    · simp
    · simp only [if_true, ne_eq] at hne ⊢
      exact (decide_eq_true (by omega)).symm
  · intro hf c _
    rw [isFinite_ofSignMag b hlt, decide_eq_true_eq] at hf
    refine ⟨roundMag_nearest_signed hd b hf c, fun htie hne => ?_⟩
    rw [getLsbD_zero_ofSignMag b hlt, decide_eq_false_iff_not]
    rcases Nat.eq_zero_or_pos (unitsOfMag (roundMag num den)) with h0 | hpos
    · have : roundMag num den = 0 := unitsOfMag_strictMono.injective (h0.trans unitsOfMag_zero.symm)
      omega
    -- the other value has the same sign, or is the zero: either way its magnitude is as near
    have key : ∃ m, roundMag num den ≠ m ∧
        |(unitsOfMag (roundMag num den) : Int) * den - num| = |(unitsOfMag m : Int) * den - num| := by
      have h0 := roundMag_nearest hd hf 0
      rw [unitsOfMag_zero, Nat.cast_zero, zero_mul, zero_sub, abs_neg, Nat.abs_cast] at h0
      have hp : (0 : Int) ≤ unitsOfMag (magBits c) * den := by positivity
      have flip : ∀ y : Int, |(-y) * den - (-(num : Int))| = |y * den - num| := fun y => by
        rw [← abs_neg]
        congr 1
        ring
      rw [units_ofSignMag b hlt, units, magUnits_eq] at htie hne
      have zero : ∀ x : Int, |x| = |(unitsOfMag (roundMag num den) : Int) * den - num| →
          x = -(unitsOfMag (magBits c) * den : Int) - num → ∃ m, roundMag num den ≠ m ∧
          |(unitsOfMag (roundMag num den) : Int) * den - num| = |(unitsOfMag m : Int) * den - num| := by
        intro x hx hxe
        refine ⟨0, fun e => ?_, ?_⟩
        · rw [e, unitsOfMag_zero] at hpos
          omega
        · rw [unitsOfMag_zero, Nat.cast_zero, zero_mul, zero_sub, abs_neg, Nat.abs_cast]
          refine le_antisymm h0 ?_
          rw [← hx, hxe, abs_of_nonpos (by linarith)]
          linarith
      have same : unitsOfMag (roundMag num den) ≠ unitsOfMag (magBits c) →
          |(unitsOfMag (roundMag num den) : Int) * den - num| = |(unitsOfMag (magBits c) : Int) * den - num| →
          ∃ m, roundMag num den ≠ m ∧
          |(unitsOfMag (roundMag num den) : Int) * den - num| = |(unitsOfMag m : Int) * den - num| :=
        fun h h' => ⟨magBits c, fun e => h (by rw [← e]), h'⟩
      cases b <;> cases hs : signBit c <;>
        simp only [hs, Bool.false_eq_true, if_false, if_true, flip] at htie hne
      · exact same (by omega) htie
      · exact zero _ htie.symm (by ring)
      · have := flip (-(unitsOfMag (magBits c) : Int))
        rw [neg_neg] at this
        rw [this] at htie
        exact zero _ htie.symm (by ring)
      · exact same (by omega) htie
    obtain ⟨m, hm, he⟩ := key
    have := roundMag_even hd hf hm he
    omega

/-! ## Products -/

/-- A product with a NaN operand is the NaN given. -/
theorem mul32_of_isNaN {flush : Bool} {nan a b : F32} (hn : isNaN nan = true) (h : isNaN a = true ∨ isNaN b = true) :
    mul32 flush nan a b = nan := by
  have hab : (isNaN (flushSub flush a) || isNaN (flushSub flush b)) = true := by
    rcases h with h | h <;> simp [flushSub_of_isNaN h, h]
  rw [mul32, mulCore, if_pos hab, flushSub_of_isNaN hn]

/-- A product with a zero operand and a finite one is a zero of the product's sign. -/
theorem mul32_of_isZero {flush : Bool} {nan a b : F32} (ha : isFinite a = true) (hb : isFinite b = true)
    (h : isZero a = true ∨ isZero b = true) :
    mul32 flush nan a b = ofSignMag (signBit a ^^ signBit b) 0 := by
  have fa := isFinite_flushSub (flush := flush) ha
  have fb := isFinite_flushSub (flush := flush) hb
  have hz : magUnits (flushSub flush a) * magUnits (flushSub flush b) = 0 := by
    rcases h with h | h
    · rw [flushSub_of_isZero h, magUnits_of_isZero h, Nat.zero_mul]
    · rw [flushSub_of_isZero h, magUnits_of_isZero h, Nat.mul_zero]
  have hcore : mulCore nan (flushSub flush a) (flushSub flush b) = ofSignMag (signBit a ^^ signBit b) 0 := by
    simp only [mulCore, isNaN_of_isFinite fa, isNaN_of_isFinite fb, isInf_of_isFinite fa, isInf_of_isFinite fb, hz,
      roundMag_zero (den := 2 ^ 149) (by positivity), signBit_flushSub, Bool.or_false, Bool.false_eq_true, if_false]
  rw [mul32, hcore, flushSub_of_isZero (isZero_ofSignMag _)]

/-- A product of a zero and of what is not finite is the NaN given. -/
theorem mul32_of_isZero_of_not_finite {flush : Bool} {nan a b : F32} (hn : isNaN nan = true)
    (h : (isZero a = true ∧ isFinite b = false) ∨ (isFinite a = false ∧ isZero b = true)) :
    mul32 flush nan a b = nan := by
  rcases h with ⟨hz, hf⟩ | ⟨hf, hz⟩
  · rcases nan_inf_or_finite b with hb | hb | hb
    · exact mul32_of_isNaN hn (.inr hb)
    · have hbn : isNaN b = false := by
        simp only [isInf, isNaN, decide_eq_true_eq, decide_eq_false_iff_not] at *
        omega
      rw [mul32, flushSub_of_isZero hz, flushSub_of_not_finite hf]
      simp [mulCore, isNaN_of_isZero hz, hbn, hb, hz, flushSub_of_isNaN hn]
    · rw [hb] at hf
      cases hf
  · rcases nan_inf_or_finite a with ha | ha | ha
    · exact mul32_of_isNaN hn (.inl ha)
    · have han : isNaN a = false := by
        simp only [isInf, isNaN, decide_eq_true_eq, decide_eq_false_iff_not] at *
        omega
      rw [mul32, flushSub_of_isZero hz, flushSub_of_not_finite hf]
      simp [mulCore, isNaN_of_isZero hz, han, ha, hz, flushSub_of_isNaN hn]
    · rw [ha] at hf
      cases hf

/-- Multiplying by 1.0 changes nothing but a NaN, and a subnormal word where subnormals are flushed. -/
theorem mul32_one {flush : Bool} {nan v : F32} (hv : isNaN v = false)
    (h : isSubnormal v = false ∨ flush = false) : mul32 flush nan v one = v := by
  have h1 : flushSub flush one = one := flushSub_eq (.inl (by decide))
  have hs : signBit one = false := by decide
  have hcore : mulCore nan v one = v := by
    have hn1 : isNaN one = false := by decide
    have hi1 : isInf one = false := by decide
    have hz1 : isZero one = false := by decide
    rcases nan_inf_or_finite v with hn | hi | hf
    · rw [hn] at hv
      cases hv
    · have hm : magBits v = infMag := by simpa [isInf] using hi
      have hz : isZero v = false := by simp [isZero, hm, infMag]
      simp only [mulCore, hv, hn1, hi, hi1, hz, hz1, hs, Bool.or_false, Bool.false_eq_true, if_false, if_true,
        Bool.xor_false]
      rw [← hm, ofSignMag_eta]
    · have hu : magUnits one = 2 ^ 149 := by decide
      have hle : magBits v ≤ infMag := by
        simp [isFinite] at hf
        omega
      simp only [mulCore, hv, hn1, isInf_of_isFinite hf, hi1, hs, Bool.or_false, Bool.false_eq_true, if_false,
        Bool.xor_false, hu, magUnits_eq]
      rw [roundMag_exact (by positivity) hle, ofSignMag_eta]
  rw [mul32, h1, flushSub_eq h, hcore, flushSub_eq h]

/-! ## Sums -/

/-- A sum with a NaN operand is the NaN given. -/
theorem add32_of_isNaN {flush : Bool} {nan a b : F32} (hn : isNaN nan = true) (h : isNaN a = true ∨ isNaN b = true) :
    add32 flush nan a b = nan := by
  have hab : (isNaN (flushSub flush a) || isNaN (flushSub flush b)) = true := by
    rcases h with h | h <;> simp [flushSub_of_isNaN h, h]
  rw [add32, addCore, if_pos hab, flushSub_of_isNaN hn]

/-- Adding a zero to what is no zero changes nothing but a NaN, and a subnormal word where subnormals are
flushed. -/
theorem add32_zero {flush : Bool} {nan v z : F32} (hv : isNaN v = false) (hv0 : isZero v = false)
    (hz : isZero z = true) (h : isSubnormal v = false ∨ flush = false) : add32 flush nan v z = v := by
  have hcore : addCore nan v z = v := by
    rcases nan_inf_or_finite v with hn | hi | hf
    · rw [hn] at hv
      cases hv
    · simp [addCore, hv, isNaN_of_isZero hz, hi, isInf_of_isFinite (isFinite_of_isZero hz)]
    · have hm : magBits v ≠ 0 := by simpa [isZero] using hv0
      have hpos : 0 < magUnits v := by
        rw [magUnits_eq, ← unitsOfMag_zero]
        exact unitsOfMag_strictMono (by omega)
      have hle : magBits v ≤ infMag := by
        simp [isFinite] at hf
        omega
      have hround : roundMag (magUnits v) 1 = magBits v := by
        have := roundMag_exact (c := magBits v) (den := 1) (by norm_num) hle
        rwa [Nat.mul_one] at this
      have hu : units v ≠ 0 := by
        unfold units
        split <;> omega
      have hs : decide (units v < 0) = signBit v := by
        unfold units
        cases hb : signBit v <;> simp; omega
      have hab : (units v).natAbs = magUnits v := by
        unfold units
        split <;> simp
      simp only [addCore, hv, isNaN_of_isZero hz, isInf_of_isFinite hf, isInf_of_isFinite (isFinite_of_isZero hz),
        units_of_isZero hz, add_zero, Bool.or_false, Bool.false_eq_true, if_false, hu, hs, hab, hround]
      exact ofSignMag_eta v
  rw [add32, flushSub_of_isZero hz, flushSub_eq h, hcore, flushSub_eq h]

/-- The sum of two zeros is negative only if both are. -/
theorem add32_zeros {flush : Bool} {nan a b : F32} (ha : isZero a = true) (hb : isZero b = true) :
    add32 flush nan a b = ofSignMag (signBit a && signBit b) 0 := by
  have hcore : addCore nan a b = ofSignMag (signBit a && signBit b) 0 := by
    simp [addCore, isNaN_of_isZero ha, isNaN_of_isZero hb, isInf_of_isFinite (isFinite_of_isZero ha),
      isInf_of_isFinite (isFinite_of_isZero hb), units_of_isZero ha, units_of_isZero hb]
  rw [add32, flushSub_of_isZero ha, flushSub_of_isZero hb, hcore, flushSub_of_isZero (isZero_ofSignMag _)]

/-- `1.0 - m` is 1.0 for a zero `m`. -/
theorem sub32_one_zero {flush : Bool} {nan m : F32} (hm : isZero m = true) : sub32 flush nan one m = one := by
  have hz : isZero (neg32 m) = true := by simpa [isZero] using hm
  exact add32_zero (by decide) (by decide) hz (.inl (by decide))

/-- A difference with a NaN operand is the NaN given. -/
theorem sub32_of_isNaN {flush : Bool} {nan a b : F32} (hn : isNaN nan = true) (h : isNaN a = true ∨ isNaN b = true) :
    sub32 flush nan a b = nan :=
  add32_of_isNaN hn (h.imp id fun h => by rwa [isNaN_neg32])

/-- The NaN given matters only where the result is a NaN. -/
theorem add32_nan_irrelevant {flush : Bool} {nan nan' a b : F32} :
    add32 flush nan a b = add32 flush nan' a b ∨
    (add32 flush nan a b = flushSub flush nan ∧ add32 flush nan' a b = flushSub flush nan') := by
  unfold add32 addCore
  split
  · exact .inr ⟨rfl, rfl⟩
  · split
    · split
      · exact .inr ⟨rfl, rfl⟩
      · exact .inl rfl
    · exact .inl rfl

/-! ## Quotients -/

/-- A zero over 20.0 is a zero of its sign. -/
theorem div32_zero_twenty {flush : Bool} {nan a : F32} (ha : isZero a = true) :
    div32 flush nan a twenty = a := by
  have h20 : flushSub flush twenty = twenty := flushSub_eq (.inl (by decide))
  have hn : isNaN twenty = false := by decide
  have hi : isInf twenty = false := by decide
  have hz : isZero twenty = false := by decide
  have hs : signBit twenty = false := by decide
  have hu : 0 < magUnits twenty := by decide
  have hcore : divCore nan a twenty = a := by
    simp only [divCore, isNaN_of_isZero ha, hn, isInf_of_isFinite (isFinite_of_isZero ha), hi, hz, hs,
      magUnits_of_isZero ha, Nat.zero_mul, roundMag_zero hu, Bool.or_false, Bool.false_eq_true, if_false,
      Bool.xor_false]
    exact (eq_ofSignMag_of_isZero ha).symm
  rw [div32, h20, flushSub_of_isZero ha, hcore, flushSub_of_isZero ha]

/-! ## Signs -/

/-- A zero is +0.0 or -0.0. -/
theorem isZero_cases {v : F32} (h : isZero v = true) : v = plusZero ∨ v = minusZero := by
  have h0 := eq_ofSignMag_of_isZero h
  rcases Bool.eq_false_or_eq_true (signBit v) with hs | hs
  · exact .inr (by rw [h0, hs]; decide)
  · exact .inl (by rw [h0, hs]; decide)

end Sys2Proof.Machine
end

