-- ==== Sys2Proof/Laws/Memory.lean ====
section
/-! SUPPORT. The laws of storage: read after write by byte and by word, the canonical form is kept and makes
equal contents equal data, and what the sample loops leave in each word and each byte. -/

namespace Sys2Proof.Machine

/-! ## Bytes -/

@[simp] theorem Memory.byte?_setByte (m : Memory) (a x : Nat) (b : Byte) :
    (m.setByte a b).byte? x = if x = a then some b else m.byte? x := by
  induction m with
  | nil => simp [Memory.setByte, Memory.byte?, eq_comm]
  | cons kv rest ih =>
    obtain ⟨k, v⟩ := kv
    simp only [Memory.setByte]
    split
    · simp [Memory.byte?, eq_comm]
    · split
      · subst_vars
        by_cases hx : k = x
        · simp [Memory.byte?, hx]
        · simp [Memory.byte?, hx, Ne.symm hx]
      · simp only [Memory.byte?, ih]
        by_cases hx : k = x
        · subst hx
          rw [if_pos rfl, if_neg (by omega), if_pos rfl]
        · rw [if_neg hx, if_neg hx]

/-- The addresses of a memory after a write are the old ones and the written one. -/
theorem Memory.mem_setByte {m : Memory} {a : Nat} {b : Byte} {x : Host.Cell} (h : x ∈ m.setByte a b) :
    x.1 = a ∨ x ∈ m := by
  induction m with
  | nil =>
    simp only [Memory.setByte, List.mem_singleton] at h
    exact .inl (by rw [h])
  | cons kv rest ih =>
    obtain ⟨k, v⟩ := kv
    simp only [Memory.setByte] at h
    split at h
    · rcases List.mem_cons.1 h with rfl | h
      · exact .inl rfl
      · exact .inr h
    · split at h
      · rcases List.mem_cons.1 h with rfl | h
        · exact .inl rfl
        · exact .inr (List.mem_cons_of_mem _ h)
      · rcases List.mem_cons.1 h with rfl | h
        · exact .inr List.mem_cons_self
        · exact (ih h).imp id (List.mem_cons_of_mem _)

theorem Memory.wf_setByte {m : Memory} (h : m.wf) (a : Nat) (b : Byte) : (m.setByte a b).wf := by
  induction m with
  | nil => simp [Memory.setByte, Memory.wf]
  | cons kv rest ih =>
    obtain ⟨k, v⟩ := kv
    obtain ⟨h1, h2⟩ := List.pairwise_cons.1 h
    simp only [Memory.setByte]
    split
    · rename_i hlt
      refine List.pairwise_cons.2 ⟨fun y hy => ?_, h⟩
      rcases List.mem_cons.1 hy with rfl | hy
      · exact hlt
      · exact hlt.trans (h1 y hy)
    · split
      · rename_i heq
        subst heq
        exact List.pairwise_cons.2 ⟨h1, h2⟩
      · refine List.pairwise_cons.2 ⟨fun y hy => ?_, ih h2⟩
        rcases Memory.mem_setByte hy with hy | hy
        · show k < y.1
          omega
        · exact h1 y hy

/-- Below its first address a canonical memory holds nothing. -/
theorem Memory.byte?_eq_none_of_lt {m : Memory} {x : Nat} (h : ∀ y ∈ m, x < y.1) : m.byte? x = none := by
  induction m with
  | nil => rfl
  | cons kv rest ih =>
    obtain ⟨k, v⟩ := kv
    have hk : x < k := h (k, v) List.mem_cons_self
    rw [Memory.byte?, if_neg (by omega)]
    exact ih fun y hy => h y (List.mem_cons_of_mem _ hy)

/-- Equal memories are equal data: two canonical memories that read alike are one list. -/
theorem Memory.ext_of_wf {m n : Memory} (hm : m.wf) (hn : n.wf) (h : ∀ x, m.byte? x = n.byte? x) : m = n := by
  induction m generalizing n with
  | nil =>
    cases n with
    | nil => rfl
    | cons kv rest =>
      obtain ⟨k, v⟩ := kv
      have := h k
      simp [Memory.byte?] at this
  | cons kv rest ih =>
    obtain ⟨k, v⟩ := kv
    obtain ⟨hk, hrest⟩ := List.pairwise_cons.1 hm
    cases n with
    | nil =>
      have := h k
      simp [Memory.byte?] at this
    | cons kv' rest' =>
      obtain ⟨k', v'⟩ := kv'
      obtain ⟨hk', hrest'⟩ := List.pairwise_cons.1 hn
      have hnone : Memory.byte? rest k = none := Memory.byte?_eq_none_of_lt hk
      have hnone' : Memory.byte? rest' k' = none := Memory.byte?_eq_none_of_lt hk'
      have heq : k = k' := by
        by_contra hne
        rcases Nat.lt_or_ge k k' with hlt | hge
        · have h1 := h k
          have h2 : Memory.byte? rest' k = none :=
            Memory.byte?_eq_none_of_lt fun y hy => hlt.trans (hk' y hy)
          simp [Memory.byte?, Ne.symm hne, h2] at h1
        · have h1 := h k'
          have h2 : Memory.byte? rest k' = none :=
            Memory.byte?_eq_none_of_lt fun y hy => (lt_of_le_of_ne hge (Ne.symm hne)).trans (hk y hy)
          simp [Memory.byte?, hne, h2] at h1
      subst heq
      have hv : v = v' := by
        have := h k
        simpa [Memory.byte?] using this
      subst hv
      have : rest = rest' := ih hrest hrest' fun x => by
        by_cases hx : k = x
        · subst hx
          rw [hnone, hnone']
        · have := h x
          simpa [Memory.byte?, hx] using this
      rw [this]

/-! ## Words -/

theorem Memory.wf_setWord {m : Memory} (h : m.wf) (a : Nat) (v : Word) : (m.setWord a v).wf :=
  Memory.wf_setByte (Memory.wf_setByte (Memory.wf_setByte (Memory.wf_setByte h _ _) _ _) _ _) _ _

/-- A word write changes no byte outside its four. -/
theorem Memory.byte?_setWord_of_outside (m : Memory) {a x : Nat} (v : Word) (h : x < a ∨ a + 4 ≤ x) :
    (m.setWord a v).byte? x = m.byte? x := by
  simp only [Memory.setWord, Memory.byte?_setByte]
  rw [if_neg (by omega), if_neg (by omega), if_neg (by omega), if_neg (by omega)]

/-- The four bytes of a written word, little-endian (R54). -/
theorem Memory.byte?_setWord (m : Memory) (a : Nat) (v : Word) :
    (m.setWord a v).byte? a = some (v.extractLsb' 0 8) ∧
    (m.setWord a v).byte? (a + 1) = some (v.extractLsb' 8 8) ∧
    (m.setWord a v).byte? (a + 2) = some (v.extractLsb' 16 8) ∧
    (m.setWord a v).byte? (a + 3) = some (v.extractLsb' 24 8) := by
  simp [Memory.setWord]

theorem wordOfBytes_extract (v : Word) :
    wordOfBytes (v.extractLsb' 0 8) (v.extractLsb' 8 8) (v.extractLsb' 16 8) (v.extractLsb' 24 8) = v := by
  apply BitVec.eq_of_getLsbD_eq
  intro i hi
  simp only [wordOfBytes, BitVec.getLsbD_append, BitVec.getLsbD_extractLsb']
  interval_cases i <;> rfl

@[simp] theorem Memory.word?_setWord_self (m : Memory) (a : Nat) (v : Word) :
    (m.setWord a v).word? a = some v := by
  obtain ⟨h0, h1, h2, h3⟩ := Memory.byte?_setWord m a v
  rw [Memory.word?, h0, h1, h2, h3]
  simp only [wordOfBytes_extract]

/-- A word write leaves every disjoint word alone. -/
theorem Memory.word?_setWord_of_disjoint (m : Memory) {a x : Nat} (v : Word) (h : x + 4 ≤ a ∨ a + 4 ≤ x) :
    (m.setWord a v).word? x = m.word? x := by
  unfold Memory.word?
  rw [Memory.byte?_setWord_of_outside m v (by omega), Memory.byte?_setWord_of_outside m v (by omega),
    Memory.byte?_setWord_of_outside m v (by omega), Memory.byte?_setWord_of_outside m v (by omega)]

/-- Two memories with the same bytes hold the same words. -/
theorem Memory.word?_congr {m n : Memory} {a : Nat} (h : ∀ x, a ≤ x → x < a + 4 → m.byte? x = n.byte? x) :
    m.word? a = n.word? a := by
  unfold Memory.word?
  rw [h a (by omega) (by omega), h (a + 1) (by omega) (by omega), h (a + 2) (by omega) (by omega),
    h (a + 3) (by omega) (by omega)]

/-! ## Where the sample words lie -/

/-- The keys of a run of words, each four bytes, do not overlap. -/
def Spaced (key : Nat → Nat) : Prop := ∀ i j, i ≠ j → key i + 4 ≤ key j ∨ key j + 4 ≤ key i

theorem bufOffset_spaced (c : Chan) : Spaced (bufOffset c) := by
  intro i j h
  simp only [bufOffset]
  omega

theorem dryIndex_spaced (c : Chan) : Spaced (dryIndex c) := by
  intro i j h
  simp only [dryIndex]
  omega

/-- Words of different channels do not overlap (R52). -/
theorem bufOffset_disjoint {c c' : Chan} (hc : c ≠ c') {i j : Nat} (hi : i < maxBlockLen)
    (hj : j < maxBlockLen) : bufOffset c i + 4 ≤ bufOffset c' j ∨ bufOffset c' j + 4 ≤ bufOffset c i := by
  simp only [maxBlockLen] at hi hj
  cases c <;> cases c' <;> simp_all [bufOffset, Chan.index] <;> omega

/-! ## Sample loops -/

section
variable {key : Nat → Nat} {f : Nat → Option Word → Word}

theorem Memory.wf_mapWords {m : Memory} (h : m.wf) (n : Nat) : (m.mapWords key f n).wf := by
  induction n with
  | zero => exact h
  | succ n ih => exact Memory.wf_setWord ih _ _

/-- The loop depends on its function at its own indices only. -/
theorem Memory.mapWords_congr {m : Memory} {g : Nat → Option Word → Word} {n : Nat}
    (h : ∀ i held, i < n → f i held = g i held) : m.mapWords key f n = m.mapWords key g n := by
  induction n with
  | zero => rfl
  | succ n ih =>
    rw [Memory.mapWords, Memory.mapWords, Memory.updateWord, Memory.updateWord,
      ih fun i held hi => h i held (by omega), h n _ (by omega)]

/-- A byte outside every word of the loop keeps its value. -/
theorem Memory.byte?_mapWords_of_outside (m : Memory) {n x : Nat}
    (h : ∀ i, i < n → x < key i ∨ key i + 4 ≤ x) : (m.mapWords key f n).byte? x = m.byte? x := by
  induction n with
  | zero => rfl
  | succ n ih =>
    rw [Memory.mapWords, Memory.updateWord, Memory.byte?_setWord_of_outside _ _ (h n (by omega))]
    exact ih fun i hi => h i (by omega)

/-- A word outside every word of the loop keeps its value and its written tag. -/
theorem Memory.word?_mapWords_of_outside (m : Memory) {n x : Nat}
    (h : ∀ i, i < n → x + 4 ≤ key i ∨ key i + 4 ≤ x) : (m.mapWords key f n).word? x = m.word? x :=
  Memory.word?_congr fun y h1 h2 => Memory.byte?_mapWords_of_outside m fun i hi => by
    have := h i hi
    omega

/-- Each word of the loop becomes its function of what it held. -/
theorem Memory.word?_mapWords (hk : Spaced key) (m : Memory) {n j : Nat} (hj : j < n) :
    (m.mapWords key f n).word? (key j) = some (f j (m.word? (key j))) := by
  induction n with
  | zero => omega
  | succ n ih =>
    rw [Memory.mapWords, Memory.updateWord]
    rcases Nat.lt_or_ge j n with h | h
    · rw [Memory.word?_setWord_of_disjoint _ _ (hk j n (by omega))]
      exact ih h
    · have : j = n := by omega
      subst this
      rw [Memory.word?_setWord_self,
        Memory.word?_mapWords_of_outside m fun i hi => hk j i (by omega)]

end

end Sys2Proof.Machine
end

