-- ==== Sys2Proof/Machine/HostProgram.lean ====
section
/-! DEFINITION. The lines of a host program as the turns they are: `WR32`, `RD32`, `f32(x)` and the
pseudo-instructions (30_encoding.md R84, R85), and the bus primitives at a bus address (20_memory.md R50,
R59). -/

namespace Sys2Proof.Machine

/-! ## Bus accesses -/

/-- `MemRead(addr, 4)`: the access to the window, none where the address is outside it. -/
def memRead32? (addr : BitVec 32) : Option Access :=
  (windowOffset? addr).map fun off => { width := 32, off := off, op := .read }

/-- `MemWrite(addr, 4, v)`. -/
def memWrite32? (addr : BitVec 32) (v : Word) : Option Access :=
  (windowOffset? addr).map fun off => { width := 32, off := off, op := .write v }

/-- `RD32 <off>`, by the host. -/
def rd32 (off : BitVec 17) : Turn := .host { width := 32, off := off, op := .read }

/-- `WR32 <off>, <word>`, by the host. -/
def wr32 (off : BitVec 17) (v : Word) : Turn := .host { width := 32, off := off, op := .write v }

/-- `f32(±num/den)`: the binary32 bit pattern nearest a decimal, ties to even (R84). -/
def f32OfDecimal (negative : Bool) (num den : Nat) : F32 := ofSignMag negative (roundMag (num * 2 ^ 149) den)

/-- The byte offset of PARAM[p]: `0x010 + 4p` (R33). -/
def paramOffset (p : Param) : BitVec 17 := BitVec.ofNat 17 (0x010 + 4 * p.index)

/-! ## Pseudo-instructions (R85) -/

/-- `PREPARE`. -/
def hostPrepare : Turn := wr32 0x000#17 0x00000001#32

/-- `PROCESS nin, nout, len`: `(len << 8) | (nout << 6) | (nin << 4) | 0x2`. -/
def hostProcess (nin nout len : Nat) : Turn :=
  wr32 0x000#17 (BitVec.ofNat 32 ((len <<< 8) ||| (nout <<< 6) ||| (nin <<< 4) ||| 0x2))

/-- `SETPARAM name, v`, by the host. -/
def hostSetParam (p : Param) (v : F32) : Turn := wr32 (paramOffset p) v

/-- The parameter writer's write of a control (20_memory.md R64, 10_state.md R33). -/
def writerSetParam (p : Param) (v : F32) : Turn :=
  .paramWriter { width := 32, off := paramOffset p, op := .write v }

/-- One read of the loop `WAITIDLE`. -/
def pollStatus : Turn := rd32 0x004#17

/-- `WAITIDLE` is over when bit 1 of the STATUS value read is 0. -/
def waitIdleOver (status : Word) : Bool := !status.getLsbD 1

/-- A stretch of `WAITIDLE`: `n` polls, the sequencer moving once before each. -/
def waitIdle : Nat → List Turn
  | 0 => []
  | n + 1 => .sequencer :: pollStatus :: waitIdle n

end Sys2Proof.Machine
end

