-- ==== Sys2Proof/Laws/State.lean ====
section
/-! SUPPORT. What each shared update of the state leaves in each field, and what selecting by kind, channel
or parameter gives after a change, so that no later proof unfolds a record update. -/

namespace Sys2Proof.Machine

/-! ## Selecting after a change -/

section
variable {α : Type}

@[simp] theorem PerKind.get_set_self (t : PerKind α) (k : Kind) (v : α) : (t.set k v).get k = v := by
  cases k <;> rfl

theorem PerKind.get_set_ne (t : PerKind α) {k k' : Kind} (v : α) (h : k' ≠ k) :
    (t.set k v).get k' = t.get k' := by
  cases k <;> cases k' <;> first | rfl | exact absurd rfl h

@[simp] theorem PerChan.get_set_self (t : PerChan α) (c : Chan) (v : α) : (t.set c v).get c = v := by
  cases c <;> rfl

theorem PerChan.get_set_ne (t : PerChan α) {c c' : Chan} (v : α) (h : c' ≠ c) :
    (t.set c v).get c' = t.get c' := by
  cases c <;> cases c' <;> first | rfl | exact absurd rfl h

@[simp] theorem PerParam.get_set_self (t : PerParam α) (p : Param) (v : α) : (t.set p v).get p = v := by
  cases p <;> rfl

theorem PerParam.get_set_ne (t : PerParam α) {p p' : Param} (v : α) (h : p' ≠ p) :
    (t.set p v).get p' = t.get p' := by
  cases p <;> cases p' <;> first | rfl | exact absurd rfl h

end

/-! ## Raising a fault -/

section
variable (s : State) (code : FaultCode) (detail : FaultDetail)

@[simp] theorem State.mode_raise : (s.raise code detail).mode = s.mode := rfl
@[simp] theorem State.busy_raise : (s.raise code detail).busy = s.busy := rfl
@[simp] theorem State.seq_raise : (s.raise code detail).seq = s.seq := rfl
@[simp] theorem State.fault_raise :
    (s.raise code detail).fault = some (s.fault.getD { code := code, agent := s.actor, detail := detail }) := rfl
@[simp] theorem State.cur_raise : (s.raise code detail).cur = s.cur := rfl
@[simp] theorem State.sampleRate_raise : (s.raise code detail).sampleRate = s.sampleRate := rfl
@[simp] theorem State.param_raise : (s.raise code detail).param = s.param := rfl
@[simp] theorem State.sr_raise : (s.raise code detail).sr = s.sr := rfl
@[simp] theorem State.coef_raise : (s.raise code detail).coef = s.coef := rfl
@[simp] theorem State.cached_raise : (s.raise code detail).cached = s.cached := rfl
@[simp] theorem State.dly_raise : (s.raise code detail).dly = s.dly := rfl
@[simp] theorem State.snap_raise : (s.raise code detail).snap = s.snap := rfl
@[simp] theorem State.glin_raise : (s.raise code detail).glin = s.glin := rfl
@[simp] theorem State.buf_raise : (s.raise code detail).buf = s.buf := rfl
@[simp] theorem State.dry_raise : (s.raise code detail).dry = s.dry := rfl
@[simp] theorem State.turns_raise : (s.raise code detail).turns = s.turns := rfl
@[simp] theorem State.actor_raise : (s.raise code detail).actor = s.actor := rfl
@[simp] theorem State.busData_raise : (s.raise code detail).busData = s.busData := rfl
@[simp] theorem State.draws_raise : (s.raise code detail).draws = s.draws := rfl

end

/-! ## Removing the head of SEQ -/

section
variable (s : State)

@[simp] theorem State.mode_retire : (s.retire).mode = s.mode := rfl
@[simp] theorem State.busy_retire : (s.retire).busy = s.busy := rfl
@[simp] theorem State.seq_retire : (s.retire).seq = s.seq.tail := rfl
@[simp] theorem State.fault_retire : (s.retire).fault = s.fault := rfl
@[simp] theorem State.cur_retire : (s.retire).cur = s.cur := rfl
@[simp] theorem State.sampleRate_retire : (s.retire).sampleRate = s.sampleRate := rfl
@[simp] theorem State.param_retire : (s.retire).param = s.param := rfl
@[simp] theorem State.sr_retire : (s.retire).sr = s.sr := rfl
@[simp] theorem State.coef_retire : (s.retire).coef = s.coef := rfl
@[simp] theorem State.cached_retire : (s.retire).cached = s.cached := rfl
@[simp] theorem State.dly_retire : (s.retire).dly = s.dly := rfl
@[simp] theorem State.snap_retire : (s.retire).snap = s.snap := rfl
@[simp] theorem State.glin_retire : (s.retire).glin = s.glin := rfl
@[simp] theorem State.buf_retire : (s.retire).buf = s.buf := rfl
@[simp] theorem State.dry_retire : (s.retire).dry = s.dry := rfl
@[simp] theorem State.turns_retire : (s.retire).turns = s.turns := rfl
@[simp] theorem State.actor_retire : (s.retire).actor = s.actor := rfl
@[simp] theorem State.busData_retire : (s.retire).busData = s.busData := rfl
@[simp] theorem State.draws_retire : (s.retire).draws = s.draws + 1 := rfl

end

/-! ## Rewriting one channel of BUF -/

section
variable (s : State) (c : Chan) (f : Nat → F32 → F32)

@[simp] theorem State.mode_mapBuf : (s.mapBuf c f).mode = s.mode := rfl
@[simp] theorem State.busy_mapBuf : (s.mapBuf c f).busy = s.busy := rfl
@[simp] theorem State.seq_mapBuf : (s.mapBuf c f).seq = s.seq := rfl
@[simp] theorem State.fault_mapBuf : (s.mapBuf c f).fault = s.fault := rfl
@[simp] theorem State.cur_mapBuf : (s.mapBuf c f).cur = s.cur := rfl
@[simp] theorem State.sampleRate_mapBuf : (s.mapBuf c f).sampleRate = s.sampleRate := rfl
@[simp] theorem State.param_mapBuf : (s.mapBuf c f).param = s.param := rfl
@[simp] theorem State.sr_mapBuf : (s.mapBuf c f).sr = s.sr := rfl
@[simp] theorem State.coef_mapBuf : (s.mapBuf c f).coef = s.coef := rfl
@[simp] theorem State.cached_mapBuf : (s.mapBuf c f).cached = s.cached := rfl
@[simp] theorem State.dly_mapBuf : (s.mapBuf c f).dly = s.dly := rfl
@[simp] theorem State.snap_mapBuf : (s.mapBuf c f).snap = s.snap := rfl
@[simp] theorem State.glin_mapBuf : (s.mapBuf c f).glin = s.glin := rfl
@[simp] theorem State.dry_mapBuf : (s.mapBuf c f).dry = s.dry := rfl
@[simp] theorem State.turns_mapBuf : (s.mapBuf c f).turns = s.turns := rfl
@[simp] theorem State.actor_mapBuf : (s.mapBuf c f).actor = s.actor := rfl
@[simp] theorem State.busData_mapBuf : (s.mapBuf c f).busData = s.busData := rfl
@[simp] theorem State.draws_mapBuf : (s.mapBuf c f).draws = s.draws := rfl

end

/-! ## Returning a word to a reading agent -/

section
variable (s : State) (v : Word)

@[simp] theorem State.mode_returning : (s.returning v).mode = s.mode := rfl
@[simp] theorem State.busy_returning : (s.returning v).busy = s.busy := rfl
@[simp] theorem State.seq_returning : (s.returning v).seq = s.seq := rfl
@[simp] theorem State.fault_returning : (s.returning v).fault = s.fault := rfl
@[simp] theorem State.cur_returning : (s.returning v).cur = s.cur := rfl
@[simp] theorem State.sampleRate_returning : (s.returning v).sampleRate = s.sampleRate := rfl
@[simp] theorem State.param_returning : (s.returning v).param = s.param := rfl
@[simp] theorem State.sr_returning : (s.returning v).sr = s.sr := rfl
@[simp] theorem State.coef_returning : (s.returning v).coef = s.coef := rfl
@[simp] theorem State.cached_returning : (s.returning v).cached = s.cached := rfl
@[simp] theorem State.dly_returning : (s.returning v).dly = s.dly := rfl
@[simp] theorem State.snap_returning : (s.returning v).snap = s.snap := rfl
@[simp] theorem State.glin_returning : (s.returning v).glin = s.glin := rfl
@[simp] theorem State.buf_returning : (s.returning v).buf = s.buf := rfl
@[simp] theorem State.dry_returning : (s.returning v).dry = s.dry := rfl
@[simp] theorem State.turns_returning : (s.returning v).turns = s.turns := rfl
@[simp] theorem State.actor_returning : (s.returning v).actor = s.actor := rfl
@[simp] theorem State.busData_returning : (s.returning v).busData = some v := rfl
@[simp] theorem State.draws_returning : (s.returning v).draws = s.draws := rfl

end

/-! ## Placing a micro-op word -/

section
variable (s : State) (u : MicroWord)

@[simp] theorem State.mode_placeMicroOp : (s.placeMicroOp u).mode = s.mode := rfl
@[simp] theorem State.busy_placeMicroOp : (s.placeMicroOp u).busy = true := rfl
@[simp] theorem State.seq_placeMicroOp : (s.placeMicroOp u).seq = u :: s.seq := rfl
@[simp] theorem State.fault_placeMicroOp : (s.placeMicroOp u).fault = none := rfl
@[simp] theorem State.cur_placeMicroOp : (s.placeMicroOp u).cur = s.cur := rfl
@[simp] theorem State.sampleRate_placeMicroOp : (s.placeMicroOp u).sampleRate = s.sampleRate := rfl
@[simp] theorem State.param_placeMicroOp : (s.placeMicroOp u).param = s.param := rfl
@[simp] theorem State.sr_placeMicroOp : (s.placeMicroOp u).sr = s.sr := rfl
@[simp] theorem State.coef_placeMicroOp : (s.placeMicroOp u).coef = s.coef := rfl
@[simp] theorem State.cached_placeMicroOp : (s.placeMicroOp u).cached = s.cached := rfl
@[simp] theorem State.dly_placeMicroOp : (s.placeMicroOp u).dly = s.dly := rfl
@[simp] theorem State.snap_placeMicroOp : (s.placeMicroOp u).snap = s.snap := rfl
@[simp] theorem State.glin_placeMicroOp : (s.placeMicroOp u).glin = s.glin := rfl
@[simp] theorem State.buf_placeMicroOp : (s.placeMicroOp u).buf = s.buf := rfl
@[simp] theorem State.dry_placeMicroOp : (s.placeMicroOp u).dry = s.dry := rfl
@[simp] theorem State.turns_placeMicroOp : (s.placeMicroOp u).turns = .sequencer :: s.turns := rfl
@[simp] theorem State.actor_placeMicroOp : (s.placeMicroOp u).actor = s.actor := rfl
@[simp] theorem State.busData_placeMicroOp : (s.placeMicroOp u).busData = s.busData := rfl
@[simp] theorem State.draws_placeMicroOp : (s.placeMicroOp u).draws = s.draws := rfl

end

/-! ## Placing a command word -/

section
variable (s : State) (w : Word)

@[simp] theorem State.mode_placeCommand : (s.placeCommand w).mode = s.mode := rfl
@[simp] theorem State.busy_placeCommand : (s.placeCommand w).busy = false := rfl
@[simp] theorem State.seq_placeCommand : (s.placeCommand w).seq = [] := rfl
@[simp] theorem State.fault_placeCommand : (s.placeCommand w).fault = none := rfl
@[simp] theorem State.cur_placeCommand : (s.placeCommand w).cur = s.cur := rfl
@[simp] theorem State.sampleRate_placeCommand : (s.placeCommand w).sampleRate = s.sampleRate := rfl
@[simp] theorem State.param_placeCommand : (s.placeCommand w).param = s.param := rfl
@[simp] theorem State.sr_placeCommand : (s.placeCommand w).sr = s.sr := rfl
@[simp] theorem State.coef_placeCommand : (s.placeCommand w).coef = s.coef := rfl
@[simp] theorem State.cached_placeCommand : (s.placeCommand w).cached = s.cached := rfl
@[simp] theorem State.dly_placeCommand : (s.placeCommand w).dly = s.dly := rfl
@[simp] theorem State.snap_placeCommand : (s.placeCommand w).snap = s.snap := rfl
@[simp] theorem State.glin_placeCommand : (s.placeCommand w).glin = s.glin := rfl
@[simp] theorem State.buf_placeCommand : (s.placeCommand w).buf = s.buf := rfl
@[simp] theorem State.dry_placeCommand : (s.placeCommand w).dry = s.dry := rfl
@[simp] theorem State.turns_placeCommand :
    (s.placeCommand w).turns = .host { width := 32, off := 0x000#17, op := .write w } :: s.turns := rfl
@[simp] theorem State.actor_placeCommand : (s.placeCommand w).actor = s.actor := rfl
@[simp] theorem State.busData_placeCommand : (s.placeCommand w).busData = s.busData := rfl
@[simp] theorem State.draws_placeCommand : (s.placeCommand w).draws = s.draws := rfl

end

end Sys2Proof.Machine
end

