-- ==== Sys2Proof/Laws/Ops.lean ====
section
/-! SUPPORT. What the shared operations of the meanings do, once for all of them: a raised fault, a micro-op
that rewrites one channel of BUF, the loop of RUN, and the exec of each instruction as an equation. -/

namespace Sys2Proof.Machine

/-! ## Raising a fault (R152) -/

/-- Raised where FAULT is none: FAULT is the new record and nothing else has changed. -/
theorem State.raise_of_none {s : State} (h : s.fault = none) (code : FaultCode) (detail : FaultDetail) :
    s.raise code detail =
      { s with fault := some { code := code, agent := s.actor, detail := detail } } := by
  simp [State.raise, h]

/-- Raised where FAULT is set: nothing changes. -/
theorem State.raise_of_some {s : State} {f : FaultRecord} (h : s.fault = some f) (code : FaultCode)
    (detail : FaultDetail) : s.raise code detail = s := by
  cases s
  simp_all [State.raise]

/-! ## The free values -/

/-- The NaN a primitive answers is a NaN. -/
theorem isNaN_nan (d i j : Nat) : isNaN (Config.nan d i j) = true := by
  have h := (Config.nanPayload d i j).isLt
  have h1 : infMag + 1 + (Config.nanPayload d i j).val < 2 ^ 31 := by
    simp only [infMag]
    omega
  rw [isNaN, Config.nan, magBits_ofSignMag _ h1]
  exact decide_eq_true (by omega)

@[simp] theorem State.fp_flush (s : State) (i : Nat) : (s.fp i).flush = Config.flushSubnormals := rfl

theorem State.isNaN_fp_nan (s : State) (i j : Nat) : isNaN ((s.fp i).nan j) = true := isNaN_nan _ _ _

/-! ## A micro-op that rewrites one channel of BUF -/

section
variable (s : State) (c : Chan) (f : Nat → F32 → F32)

theorem State.buf_mapBuf_wf (h : s.buf.wf) : (s.mapBuf c f).buf.wf := Memory.wf_mapWords h _

/-- Every word of the block on the channel becomes its function of what it held, and is written. -/
theorem State.word?_mapBuf {i : Nat} (hi : i < s.cur.len) :
    (s.mapBuf c f).buf.word? (bufOffset c i) = some (f i (s.bufWord c i)) :=
  Memory.word?_mapWords (bufOffset_spaced c) s.buf hi

/-- A byte outside the block's words on the channel keeps its value. -/
theorem State.byte?_mapBuf_of_outside {x : Nat}
    (h : ∀ i, i < s.cur.len → x < bufOffset c i ∨ bufOffset c i + 4 ≤ x) :
    (s.mapBuf c f).buf.byte? x = s.buf.byte? x :=
  Memory.byte?_mapWords_of_outside s.buf h

end

/-- A written word is what a micro-op reads. -/
theorem State.bufWord_of_written {s : State} {c : Chan} {i : Nat} {v : Word}
    (h : s.buf.word? (bufOffset c i) = some v) : s.bufWord c i = v := by
  simp [State.bufWord, h]

theorem State.dryWord_of_written {s : State} {c : Chan} {i : Nat} {v : Word}
    (h : s.dry.word? (dryIndex c i) = some v) : s.dryWord c i = v := by
  simp [State.dryWord, h]

/-! ## The loop of RUN -/

section
variable (fp : Nat → Fp) (co : Coef) (key : Nat → Nat) (absent : Nat → Word)

variable (d : Delay) (m : Memory)

theorem filterLoop_wf (h : m.wf) (n : Nat) : (filterLoop fp co key absent (d, m) n).2.wf := by
  induction n with
  | zero => exact h
  | succ n ih => exact Memory.wf_setWord ih _ _

theorem filterLoop_byte?_of_outside {n x : Nat} (h : ∀ i, i < n → x < key i ∨ key i + 4 ≤ x) :
    (filterLoop fp co key absent (d, m) n).2.byte? x = m.byte? x := by
  induction n with
  | zero => rfl
  | succ n ih =>
    rw [filterLoop, filterStep, Memory.byte?_setWord_of_outside _ _ (h n (by omega))]
    exact ih fun i hi => h i (by omega)

theorem filterLoop_word?_of_outside {n x : Nat} (h : ∀ i, i < n → x + 4 ≤ key i ∨ key i + 4 ≤ x) :
    (filterLoop fp co key absent (d, m) n).2.word? x = m.word? x :=
  Memory.word?_congr fun y h1 h2 => filterLoop_byte?_of_outside fp co key absent d m fun i hi => by
    have := h i hi
    omega

/-- The loop leaves the delay memory of the recursion. -/
theorem filterLoop_delay (hk : Spaced key) (n : Nat) :
    (filterLoop fp co key absent (d, m) n).1 =
      delayAfter fp co (fun i => (m.word? (key i)).getD (absent i)) d n := by
  induction n with
  | zero => rfl
  | succ n ih =>
    rw [filterLoop, filterStep, delayAfter, ih,
      filterLoop_word?_of_outside fp co key absent d m fun i hi => hk n i (by omega)]

/-- The loop leaves at each sample the output of the recursion. -/
theorem filterLoop_word? (hk : Spaced key) {n j : Nat} (hj : j < n) :
    (filterLoop fp co key absent (d, m) n).2.word? (key j) =
      some (filterOutput fp co (fun i => (m.word? (key i)).getD (absent i)) d j) := by
  induction n with
  | zero => omega
  | succ n ih =>
    rw [filterLoop, filterStep]
    rcases Nat.lt_or_ge j n with h | h
    · rw [Memory.word?_setWord_of_disjoint _ _ (hk j n (by omega))]
      exact ih h
    · have : j = n := by omega
      subst this
      rw [Memory.word?_setWord_self, filterLoop_delay fp co key absent d m hk,
        filterLoop_word?_of_outside fp co key absent d m fun i hi => hk j i (by omega)]
      rfl

end

/-- The recursion depends on its inputs up to the sample only (R115). -/
theorem delayAfter_congr {fp : Nat → Fp} {co : Coef} {x y : Nat → F32} {d : Delay} {n : Nat}
    (h : ∀ i, i < n → x i = y i) : delayAfter fp co x d n = delayAfter fp co y d n := by
  induction n with
  | zero => rfl
  | succ n ih => rw [delayAfter, delayAfter, ih fun i hi => h i (by omega), h n (by omega)]

theorem filterOutput_congr {fp : Nat → Fp} {co : Coef} {x y : Nat → F32} {d : Delay} {n : Nat}
    (h : ∀ i, i ≤ n → x i = y i) : filterOutput fp co x d n = filterOutput fp co y d n := by
  rw [filterOutput, filterOutput, delayAfter_congr fun i hi => h i (by omega), h n le_rfl]

/-! ## Every instruction takes a next state -/

/-- The state an instruction leaves: `exec` always answers next. -/
theorem exec_next (i : Instr) (s : State) : ∃ t, exec i s = .next t := by
  cases i <;> exact ⟨_, rfl⟩

end Sys2Proof.Machine
end

