-- ==== Sys2Proof/Laws/Step.lean ====
section
/-! SUPPORT. What one step can do, said once: the inversion lemmas of the bus access and of `step`. -/

namespace Sys2Proof.Machine

/-- The sequencer's step on a head of SEQ that decodes. -/
theorem step_of_micro {s : State} {rest : List Turn} {u : MicroWord} {tl : List MicroWord} {i : Instr}
    (hf : s.fault = none) (hb : s.busy = true) (hn : s.sequencerNext rest) (hs : s.seq = u :: tl)
    (hd : decodeMicro u = .ok i) : step s = exec i { s with turns := rest, actor := .sequencer } := by
  have h : fetch s = .run i { s with turns := rest, actor := .sequencer } := by
    rcases hn with h | ⟨h, rfl⟩
    · simp [fetch, h, fetchMicroOp, hf, hb, hs, hd]
    · simp only [fetch, h, fetchMicroOp, hf, hb, hs, hd]
      rw [← h]
      rfl
  rw [step, h]

/-- No instruction touches the turns to come. -/
theorem turns_exec {i : Instr} {s t : State} (h : exec i s = .next t) : t.turns = s.turns := by
  cases i
  case prepare => cases h; split <;> rfl
  case processBlock => cases h; dsimp only; split <;> (try split) <;> (try split) <;> (try split) <;> rfl
  case snap => cases h; split <;> (try split) <;> rfl
  all_goals cases h; rfl

/-- What a bus access without command leaves: a word returned, a fault raised and why, or one word written; a
write of SAMPLE_RATE or of a sample word is made only while BUSY = 0. -/
inductive AccessLeaves (x : Access) (s : State) : State → Prop where
  | returned (v : Word) : AccessLeaves x s (s.returning v)
  | raised (code : FaultCode) (detail : FaultDetail)
      (cause : code = .busAccess ∨ code = .unwrittenRead ∨ code = .reservedCommand ∨
        (code = .hostBusyAccess ∧ s.busy = true ∧ allowedWhileBusy (target x.off) x.isWrite = false)) :
      AccessLeaves x s (s.raise code detail)
  | sampleRate (v : Word) (idle : s.busy = false) : AccessLeaves x s { s with sampleRate := some v }
  | param (p : Param) (v : Word) (accepted : x.accepted = true) (op : x.op = .write v)
      (there : target x.off = .param p) : AccessLeaves x s { s with param := s.param.set p (some v) }
  | sample (c : Chan) (i : Nat) (v : Word) (idle : s.busy = false) :
      AccessLeaves x s { s with buf := s.buf.setWord (bufOffset c i) v }

theorem busRead_leaves (x : Access) (s : State) : AccessLeaves x s (busRead x s) := by
  unfold busRead
  split
  · exact .returned _
  · exact .returned _
  · cases h : s.sampleRate with
    | none => exact .raised _ _ (.inr (.inl rfl))
    | some v => exact .returned _
  · rename_i p _
    cases h : s.param.get p with
    | none => exact .raised _ _ (.inr (.inl rfl))
    | some v => exact .returned _
  · rename_i c i _
    cases h : s.buf.word? (bufOffset c i) with
    | none => exact .raised _ _ (.inr (.inl rfl))
    | some v => exact .returned _
  · exact .raised _ _ (.inl rfl)

/-- A bus access issues a command only from an accepted write to CMD while BUSY = 0, or leaves one of the states
above. -/
theorem busAccess_cases (x : Access) (s : State) :
    (∃ t, busAccess x s = .done t ∧ AccessLeaves x s t) ∨
    (∃ w, busAccess x s = .issue w s ∧ s.busy = false ∧ x.op = .write w ∧ x.accepted = true ∧
      target x.off = .cmd) := by
  unfold busAccess
  split
  · exact .inl ⟨_, rfl, .raised _ _ (.inl rfl)⟩
  · rename_i hacc
    have hacc : x.accepted = true := by simpa using hacc
    split
    · rename_i hbusy
      simp only [Bool.and_eq_true, Bool.not_eq_true'] at hbusy
      exact .inl ⟨_, rfl, .raised _ _ (.inr (.inr (.inr ⟨rfl, hbusy⟩)))⟩
    · rename_i hbusy
      cases hop : x.op with
      | read => exact .inl ⟨_, rfl, busRead_leaves x s⟩
      | write v =>
        have hw : x.isWrite = true := by simp [Access.isWrite, hop]
        simp only
        unfold busWrite
        split
        · rename_i ht
          simp only [ht, hw, allowedWhileBusy] at hbusy
          exact .inr ⟨v, rfl, by simpa using hbusy, rfl, hacc, ht⟩
        · exact .inl ⟨_, rfl, .raised _ _ (.inl rfl)⟩
        · rename_i ht
          simp only [ht, hw, allowedWhileBusy] at hbusy
          exact .inl ⟨_, rfl, .sampleRate v (by simpa using hbusy)⟩
        · rename_i p ht
          exact .inl ⟨_, rfl, .param p v hacc hop ht⟩
        · rename_i ht
          simp only [ht, allowedWhileBusy] at hbusy
          exact .inl ⟨_, rfl, .sample _ _ v (by simpa using hbusy)⟩
        · exact .inl ⟨_, rfl, .raised _ _ (.inl rfl)⟩

/-- Whose turn a step takes and what it does, said once. -/
inductive StepTakes (s t : State) : Prop where
  /-- The reset input. -/
  | reset (rest : List Turn) (turn : s.turns = .reset :: rest) (leaves : t = s.afterReset rest)
  /-- A bus access that issues no command. -/
  | access (writer : Bool) (x : Access) (rest : List Turn) (faultless : s.fault = none)
      (turn : s.turns = busTurn writer x :: rest)
      (leaves : AccessLeaves x { s with turns := rest, actor := busAgent writer } t)
  /-- A bus access that issues a command, while BUSY = 0. -/
  | command (writer : Bool) (x : Access) (rest : List Turn) (w : Word) (i : Instr) (faultless : s.fault = none)
      (idle : s.busy = false) (turn : s.turns = busTurn writer x :: rest) (accepted : x.accepted = true)
      (there : target x.off = .cmd) (op : x.op = .write w) (decodes : decodeCommand w = .ok i)
      (runs : exec i { s with turns := rest, actor := busAgent writer } = .next t)
  /-- A micro-op, while BUSY = 1. -/
  | micro (rest : List Turn) (u : MicroWord) (tl : List MicroWord) (i : Instr) (faultless : s.fault = none)
      (busy : s.busy = true) (turn : s.sequencerNext rest) (head : s.seq = u :: tl) (decodes : decodeMicro u = .ok i)
      (runs : exec i { s with turns := rest, actor := .sequencer } = .next t)
  /-- The turn of a sequencer that has no step. -/
  | idle (rest : List Turn) (faultless : s.fault = none) (idle : s.busy = false) (turn : s.sequencerNext rest)
      (leaves : t = { s with turns := rest, actor := .sequencer })

/-- Every step that answers next is one of these. -/
theorem step_takes {s t : State} (h : step s = .next t) : StepTakes s t := by
  have access : ∀ writer x rest, s.turns = busTurn writer x :: rest →
      fetch s = fetchAccess x { s with turns := rest, actor := busAgent writer } → StepTakes s t := by
    intro writer x rest hn hs
    rw [fetchAccess] at hs
    cases hf : s.fault with
    | some f =>
      simp only [hf] at hs
      simp only [step, hs] at h
      cases h
    | none =>
      simp only [hf] at hs
      rcases busAccess_cases x { s with turns := rest, actor := busAgent writer } with
        ⟨t', ht, hl⟩ | ⟨w, ht, hb, hop, hacc, htar⟩
      · rw [hf] at ht
        simp only [ht] at hs
        simp only [step, hs] at h
        cases h
        exact .access writer x rest hf hn hl
      · rw [hf] at ht
        simp only [ht, issueCommand] at hs
        cases hd : decodeCommand w with
        | ok i =>
          simp only [hd] at hs
          simp only [step, hs] at h
          exact .command writer x rest w i hf hb hn hacc htar hop hd (by rw [hf]; exact h)
        | error e =>
          simp only [hd] at hs
          simp only [step, hs] at h
          cases h
          refine .access writer x rest hf hn ?_
          rw [hf]
          exact .raised _ _ (.inr (.inr (.inl rfl)))
  have micro : ∀ rest, s.sequencerNext rest →
      fetch s = fetchMicroOp { s with turns := rest, actor := .sequencer } → StepTakes s t := by
    intro rest hn hs
    cases hf : s.fault with
    | some f =>
      simp only [fetchMicroOp, hf] at hs
      simp only [step, hs] at h
      cases h
    | none =>
      cases hb : s.busy with
      | false =>
        simp only [fetchMicroOp, hf, hb, Bool.false_eq_true, if_false] at hs
        simp only [step, hs] at h
        cases h
        refine .idle rest hf hb hn ?_
        rw [hf, hb]
      | true =>
        cases hq : s.seq with
        | nil =>
          simp only [fetchMicroOp, hf, hb, hq, if_true] at hs
          simp only [step, hs] at h
          cases h
        | cons u tl =>
          cases hd : decodeMicro u with
          | ok i =>
            rw [step_of_micro hf hb hn hq hd] at h
            exact .micro rest u tl i hf hb hn hq hd h
          | error e =>
            simp only [fetchMicroOp, hf, hb, hq, hd, if_true] at hs
            simp only [step, hs] at h
            cases h
  cases hn : s.turns with
  | nil =>
    exact micro [] (.inr ⟨hn, rfl⟩) (by simp only [fetch, hn])
  | cons turn rest =>
    cases turn with
    | reset =>
      simp only [step, fetch, hn] at h
      cases h
      exact .reset rest hn rfl
    | host x => exact access false x rest hn (by simp only [fetch, hn]; rfl)
    | paramWriter x => exact access true x rest hn (by simp only [fetch, hn]; rfl)
    | sequencer => exact micro rest (.inl hn) (by simp only [fetch, hn])

/-- What a micro-op word decodes to is a micro-op, and it is END exactly for the word 0x00. -/
theorem decodeMicro_ok {u : MicroWord} {i : Instr} (h : decodeMicro u = .ok i) :
    i.isMicroOp = true ∧ (i = .endCommand ↔ u = 0x00#8) := by
  have all : ∀ u : MicroWord, (match decodeMicro u with
      | .ok i => i.isMicroOp && decide (i = .endCommand ↔ u = 0x00#8)
      | .error _ => true) = true := by decide +revert
  have := all u
  rw [h] at this
  simpa only [Bool.and_eq_true, decide_eq_true_eq] using this

/-- A step takes one turn. -/
theorem turns_step {s t : State} (h : step s = .next t) : t.turns = s.turns.tail := by
  have sequencer : ∀ {rest}, s.sequencerNext rest → rest = s.turns.tail := by
    rintro rest (h | ⟨h, rfl⟩) <;> rw [h] <;> rfl
  cases step_takes h with
  | reset rest turn leaves => rw [leaves, turn]; rfl
  | access writer x rest _ turn leaves => rw [turn]; cases leaves <;> rfl
  | command writer x rest w i _ _ turn _ _ _ _ runs => rw [turns_exec runs, turn]; rfl
  | micro rest u tl i _ _ turn _ _ runs => rw [turns_exec runs]; exact sequencer turn
  | idle rest _ _ turn leaves => rw [leaves]; exact sequencer turn

end Sys2Proof.Machine
end

