-- ==== Sys2Proof/Laws/Run.lean ====
section
/-! SUPPORT. Runs of several steps, one step at a time. -/

namespace Sys2Proof.Machine

/-- A run whose first step answers next goes on from the state it leaves. -/
theorem run_succ {s t : State} {n : Nat} (h : step s = .next t) :
    Host.Core.run Sys2Proof.core (n + 1) s = Host.Core.run Sys2Proof.core n t := by
  have h' : Sys2Proof.core.step s = .next t := h
  simp only [Host.Core.run, h']

/-- A run of no steps. -/
theorem run_zero (s : State) : Host.Core.run Sys2Proof.core 0 s = .next s := rfl

/-- A run that answers next takes its steps one by one. -/
theorem run_next {s t : State} {n : Nat} (h : Host.Core.run Sys2Proof.core (n + 1) s = .next t) :
    ∃ s', step s = .next s' ∧ Host.Core.run Sys2Proof.core n s' = .next t := by
  cases hs : step s with
  | next s' => exact ⟨s', rfl, (run_succ hs).symm.trans h⟩
  | fault r =>
    have hs' : Sys2Proof.core.step s = .fault r := hs
    simp only [Host.Core.run, hs'] at h
    cases h
  | refused r =>
    have hs' : Sys2Proof.core.step s = .refused r := hs
    simp only [Host.Core.run, hs'] at h
    cases h

/-- A run of `m + n` steps is a run of `n` steps from where `m` steps lead. -/
theorem run_add {n : Nat} : ∀ {m : Nat} {s t : State}, Host.Core.run Sys2Proof.core m s = .next t →
    Host.Core.run Sys2Proof.core (m + n) s = Host.Core.run Sys2Proof.core n t
  | 0, s, t, h => by
    cases h
    rw [Nat.zero_add]
  | m + 1, s, t, h => by
    obtain ⟨s', h1, h2⟩ := run_next h
    rw [Nat.add_right_comm, run_succ h1]
    exact run_add h2

/-- What holds at the start and is kept by every step holds at the end. -/
theorem run_induction {P : State → Prop} (keeps : ∀ s t, P s → step s = .next t → P t) :
    ∀ (n : Nat) (s t : State), P s → Host.Core.run Sys2Proof.core n s = .next t → P t
  | 0, s, t, hs, h => by
    cases h
    exact hs
  | n + 1, s, t, hs, h => by
    obtain ⟨s', h1, h2⟩ := run_next h
    exact run_induction keeps n s' t (keeps s s' hs h1) h2

/-- A run of `n` steps takes `n` turns. -/
theorem turns_run : ∀ (n : Nat) (s t : State), Host.Core.run Sys2Proof.core n s = .next t → t.turns = s.turns.drop n
  | 0, s, t, h => by
    cases h
    rfl
  | n + 1, s, t, h => by
    obtain ⟨s', h1, h2⟩ := run_next h
    rw [turns_run n s' t h2, turns_step h1, List.drop_tail]

end Sys2Proof.Machine
end

