-- ==== Sys2Proof/Laws/Block.lean ====
section
/-! SUPPORT. Runs of the micro-ops of a block, phase by phase: what a phase of `blockSequence` leaves, for any list of
channels, from any state that has its words at the front of SEQ. -/

namespace Sys2Proof.Machine

theorem channels_nodup (lo hi : Nat) : (channels lo hi).Nodup := List.Nodup.filter _ (by decide)

theorem mem_channels (lo hi : Nat) (c : Chan) : c ∈ channels lo hi ↔ lo ≤ c.index ∧ c.index < hi := by
  rw [channels, List.mem_filter]
  cases c <;> simp only [Bool.and_eq_true, decide_eq_true_eq] <;> simp

/-- The sequencer has the micro-ops `is` to do, and no other agent has a turn. -/
structure State.Ready (s : State) (is : List Instr) : Prop where
  busy : s.busy = true
  fault : s.fault = none
  turns : s.turns = []
  seq : s.seq = sequenceWords is

/-- A micro-op in SEQ decodes to itself. -/
theorem decodeMicro_seqWord {i : Instr} (hm : i.isMicroOp = true) : decodeMicro i.seqWord = .ok i := by
  cases i with
  | prepare => cases hm
  | processBlock => cases hm
  | endCommand => decide
  | gainCalc => decide
  | prep => decide
  | silence c => cases c <;> decide
  | snap p => cases p <;> decide
  | dryCopy c => cases c <;> decide
  | shape c => cases c <;> decide
  | upd k => cases k <;> decide
  | run k c => cases k <;> cases c <;> decide
  | mix c => cases c <;> decide
  | gain c => cases c <;> decide

/-- The next micro-op of a sequence is performed. -/
theorem State.Ready.step {s : State} {i : Instr} {is : List Instr} (h : s.Ready (i :: is)) (hm : i.isMicroOp = true) :
    step s = exec i { s with actor := .sequencer } := by
  have := step_of_micro (rest := []) h.fault h.busy (.inr ⟨h.turns, rfl⟩) h.seq (decodeMicro_seqWord hm)
  rw [this, ← h.turns]

/-- What it leaves is ready for the rest, unless it is END or raises a fault. -/
theorem State.Ready.next {s t : State} {i : Instr} {is : List Instr} (h : s.Ready (i :: is))
    (hb : t.busy = s.busy) (hf : t.fault = s.fault) (hn : t.turns = s.turns) (hq : t.seq = s.seq.tail) : t.Ready is :=
  ⟨hb.trans h.busy, hf.trans h.fault, hn.trans h.turns, by rw [hq, h.seq]; rfl⟩

/-- A phase that works on one channel of BUF after the other, in place. -/
theorem run_inPlace {op : Chan → Instr} {f : State → Chan → Nat → F32 → F32}
    (hop : ∀ c s, exec (op c) s = .next (State.retire (s.mapBuf c (f s c)))) (hm : ∀ c, (op c).isMicroOp = true) :
    ∀ (cs : List Chan) (s : State) (js : List Instr), cs.Nodup → s.Ready (cs.map op ++ js) → s.cur.len ≤ maxBlockLen →
      ∃ t : State, Host.Core.run Sys2Proof.core cs.length s = .next t ∧ t.Ready js ∧
        t = { s with buf := t.buf, seq := t.seq, draws := t.draws, actor := t.actor } ∧
        (∀ c ∉ cs, ∀ i, i < s.cur.len → t.buf.word? (bufOffset c i) = s.buf.word? (bufOffset c i)) ∧
        ∀ c ∈ cs, ∃ u : State, u = { s with buf := u.buf, seq := u.seq, draws := u.draws, actor := u.actor } ∧
          (∀ i, i < s.cur.len → u.buf.word? (bufOffset c i) = s.buf.word? (bufOffset c i)) ∧
          ∀ i, i < s.cur.len → t.buf.word? (bufOffset c i) = some (f u c i (u.bufWord c i)) := by
  intro cs
  induction cs with
  | nil =>
    intro s js _ h _
    exact ⟨s, rfl, h, rfl, fun _ _ _ _ => rfl, fun _ hc => by cases hc⟩
  | cons c cs ih =>
    intro s js hd h hl
    rw [List.nodup_cons] at hd
    set s0 : State := { s with actor := .sequencer } with hs0
    set s1 := State.retire (s0.mapBuf c (f s0 c)) with hs1
    have hstep : step s = .next s1 := (h.step (hm c)).trans (hop c _)
    have hready : s1.Ready (cs.map op ++ js) := h.next rfl rfl rfl rfl
    obtain ⟨t, hrun, ht, hframe, hout, hin⟩ := ih s1 js hd.2 hready hl
    have other : ∀ c', c' ≠ c → ∀ i, i < s.cur.len →
        s1.buf.word? (bufOffset c' i) = s.buf.word? (bufOffset c' i) := fun c' hne i hi =>
      Memory.word?_mapWords_of_outside _ fun j hj =>
        bufOffset_disjoint hne (hi.trans_le hl) (Nat.lt_of_lt_of_le hj hl)
    refine ⟨t, (run_succ hstep).trans hrun, ht, ?_, ?_, ?_⟩
    · exact hframe
    · intro c' hc' i hi
      rw [List.mem_cons, not_or] at hc'
      rw [hout c' hc'.2 i hi, other c' hc'.1 i hi]
    · intro c' hc'
      by_cases hcc : c' = c
      · subst hcc
        refine ⟨s0, rfl, fun _ _ => rfl, fun i hi => ?_⟩
        rw [hout c' hd.1 i hi]
        exact State.word?_mapBuf s0 c' _ hi
      · obtain ⟨u, hu, hub, hut⟩ := hin c' ((List.mem_cons.1 hc').resolve_left hcc)
        refine ⟨u, ?_, fun i hi => (hub i hi).trans (other c' hcc i hi), hut⟩
        exact hu

/-- DRYCOPY of a list of channels. -/
theorem run_dryCopy : ∀ (cs : List Chan) (s : State) (js : List Instr), cs.Nodup →
    s.Ready (cs.map Instr.dryCopy ++ js) → s.cur.len ≤ maxBlockLen →
      ∃ t : State, Host.Core.run Sys2Proof.core cs.length s = .next t ∧ t.Ready js ∧
        t = { s with dry := t.dry, seq := t.seq, draws := t.draws, actor := t.actor } ∧
        (∀ c ∉ cs, ∀ i, i < s.cur.len → t.dry.word? (dryIndex c i) = s.dry.word? (dryIndex c i)) ∧
        ∀ c ∈ cs, ∀ i x, i < s.cur.len → s.buf.word? (bufOffset c i) = some x → t.dry.word? (dryIndex c i) = some x := by
  intro cs
  induction cs with
  | nil =>
    intro s js _ h _
    exact ⟨s, rfl, h, rfl, fun _ _ _ _ => rfl, fun _ hc => by cases hc⟩
  | cons c cs ih =>
    intro s js hd h hl
    rw [List.nodup_cons] at hd
    set s0 : State := { s with actor := .sequencer } with hs0
    obtain ⟨s1, hs1, e1⟩ : ∃ s1, step s = .next s1 ∧ s1 = State.retire
        { s0 with dry := s0.dry.mapWords (dryIndex c) (fun i _ => s0.bufWord c i) s0.cur.len } :=
      ⟨_, h.step rfl, rfl⟩
    have hready : s1.Ready (cs.map Instr.dryCopy ++ js) := by
      rw [e1]
      exact h.next rfl rfl rfl rfl
    have hcur : s1.cur = s.cur := by rw [e1]; rfl
    have hbuf : s1.buf = s.buf := by rw [e1]; rfl
    obtain ⟨t, hrun, ht, hframe, hout, hin⟩ := ih s1 js hd.2 hready (hcur ▸ hl)
    rw [hcur] at hout hin
    rw [hbuf] at hin
    have other : ∀ c', c' ≠ c → ∀ i, i < s.cur.len →
        s1.dry.word? (dryIndex c' i) = s.dry.word? (dryIndex c' i) := fun c' hne i hi => by
      rw [e1]
      refine Memory.word?_mapWords_of_outside _ fun j hj => ?_
      have h1 := bufOffset_disjoint hne (hi.trans_le hl) (Nat.lt_of_lt_of_le hj hl)
      simp only [bufOffset, dryIndex] at h1 ⊢
      omega
    refine ⟨t, (run_succ hs1).trans hrun, ht, ?_, ?_, ?_⟩
    · subst e1
      exact hframe
    · intro c' hc' i hi
      rw [List.mem_cons, not_or] at hc'
      rw [hout c' hc'.2 i hi, other c' hc'.1 i hi]
    · intro c' hc' i x hi hx
      by_cases hcc : c' = c
      · subst hcc
        rw [hout c' hd.1 i hi, e1]
        refine (Memory.word?_mapWords (dryIndex_spaced c') _ hi).trans ?_
        rw [State.bufWord_of_written (s := s0) hx]
      · exact hin c' ((List.mem_cons.1 hc').resolve_left hcc) i x hi hx


/-- The SNAPs of a list of parameters that are written and in range. -/
theorem run_snaps : ∀ (ps : List Param) (s : State) (js : List Instr), s.Ready (ps.map Instr.snap ++ js) →
    s.paramsInRange →
      ∃ t : State, Host.Core.run Sys2Proof.core ps.length s = .next t ∧ t.Ready js ∧
        t = { s with snap := t.snap, seq := t.seq, draws := t.draws, actor := t.actor } ∧
        (∀ p ∉ ps, t.snap.get p = s.snap.get p) ∧ ∀ p ∈ ps, s.param.get p = some (t.snap.get p) := by
  intro ps
  induction ps with
  | nil =>
    intro s js h _
    exact ⟨s, rfl, h, rfl, fun _ _ => rfl, fun _ hp => by cases hp⟩
  | cons p ps ih =>
    intro s js h hr
    obtain ⟨v, hv, hin⟩ := hr p
    obtain ⟨s1, hs1, e1⟩ : ∃ s1, step s = .next s1 ∧
        s1 = State.retire { s with actor := .sequencer, snap := s.snap.set p v } := by
      refine ⟨_, (h.step rfl).trans ?_, rfl⟩
      simp [exec, execSnap, hv, hin]
    have hready : s1.Ready (ps.map Instr.snap ++ js) := by
      subst e1
      exact h.next rfl rfl rfl rfl
    subst e1
    obtain ⟨t, hrun, ht, hframe, hout, hmem⟩ := ih _ js hready hr
    refine ⟨t, (run_succ hs1).trans hrun, ht, hframe, fun q hq => ?_, fun q hq => ?_⟩
    · rw [List.mem_cons, not_or] at hq
      rw [hout q hq.2]
      exact PerParam.get_set_ne _ _ hq.1
    · by_cases hqs : q ∈ ps
      · exact hmem q hqs
      · obtain rfl : q = p := (List.mem_cons.1 hq).resolve_right hqs
        rw [hout q hqs]
        simpa using hv

/-- UPD of the kind would change nothing, whatever the NaNs of its difference. -/
def State.Settled (s : State) (k : Kind) : Prop :=
  ∀ u : State, u.snap = s.snap → u.cached = s.cached →
    cutoffMoved (u.fp 0) (targetCutoff k u) (u.cached.get k) = false

/-- UPD and RUN of a list of channels, where UPD changes nothing. -/
theorem run_filters_settled (k : Kind) : ∀ (cs : List Chan) (s : State) (js : List Instr), cs.Nodup →
    s.Ready (cs.flatMap (fun c => [Instr.upd k, Instr.run k c]) ++ js) → s.cur.len ≤ maxBlockLen → s.Settled k →
      ∃ t : State, Host.Core.run Sys2Proof.core (2 * cs.length) s = .next t ∧ t.Ready js ∧
        t = { s with buf := t.buf, dly := t.dly, seq := t.seq, draws := t.draws, actor := t.actor } ∧
        (∀ k' c, k' ≠ k → (t.dly.get k').get c = (s.dly.get k').get c) ∧
        (∀ c ∉ cs, ∀ i, i < s.cur.len → t.buf.word? (bufOffset c i) = s.buf.word? (bufOffset c i)) ∧
        (∀ c ∉ cs, (t.dly.get k).get c = (s.dly.get k).get c) ∧
        ∀ c ∈ cs, ∃ u : State, ∀ x : Nat → F32,
          (∀ i, i < s.cur.len → s.buf.word? (bufOffset c i) = some (x i)) →
          ∀ i, i < s.cur.len →
            t.buf.word? (bufOffset c i) = some (filterOutput u.fp (s.coef.get k) x ((s.dly.get k).get c) i) := by
  intro cs
  induction cs with
  | nil =>
    intro s js _ h _ _
    exact ⟨s, rfl, h, rfl, fun _ _ _ => rfl, fun _ _ _ _ => rfl, fun _ _ => rfl, fun _ hc => by cases hc⟩
  | cons c cs ih =>
    intro s js hd h hl hset
    rw [List.nodup_cons] at hd
    obtain ⟨s1, hs1, e1⟩ : ∃ s1, step s = .next s1 ∧ s1 = State.retire { s with actor := .sequencer } := by
      refine ⟨_, (h.step rfl).trans ?_, rfl⟩
      have := hset { s with actor := .sequencer } rfl rfl
      simp [exec, execUpd, this]
    have h1 : s1.Ready (Instr.run k c :: (cs.flatMap (fun c => [Instr.upd k, Instr.run k c]) ++ js)) := by
      subst e1
      exact h.next rfl rfl rfl rfl
    obtain ⟨s2, hs2, e2⟩ : ∃ s2, step s1 = .next s2 ∧ exec (.run k c) { s1 with actor := .sequencer } = .next s2 :=
      ⟨_, h1.step rfl, rfl⟩
    have hs0 : ∃ s0 : State, s0 = { s1 with actor := .sequencer } := ⟨_, rfl⟩
    obtain ⟨s0, e0⟩ := hs0
    rw [← e0] at e2
    cases e2
    have c0 : s0.cur = s.cur ∧ s0.buf = s.buf ∧ s0.dly = s.dly ∧ s0.coef = s.coef ∧ s0.snap = s.snap ∧
        s0.cached = s.cached := by
      subst e0 e1
      exact ⟨rfl, rfl, rfl, rfl, rfl, rfl⟩
    obtain ⟨c1, c2, c3, c4, c5, c6⟩ := c0
    generalize hr : filterLoop s0.fp (s0.coef.get k) (bufOffset c) (fun i => Config.unwrittenWord s0.draws i 0)
      ((s0.dly.get k).get c, s0.buf) s0.cur.len = r at *
    have h2 := (h1.next (t := State.retire { s0 with dly := s0.dly.set k ((s0.dly.get k).set c r.1), buf := r.2 })
      (by subst e0; rfl) (by subst e0; rfl) (by subst e0; rfl) (by subst e0; rfl))
    obtain ⟨t, hrun, ht, hframe, hk', hout, hdly, hin⟩ := ih _ js hd.2 h2 (by rw [State.cur_retire, c1]; exact hl)
      (fun u hu1 hu2 => hset u (hu1.trans c5) (hu2.trans c6))
    simp only [State.cur_retire, State.buf_retire, State.dly_retire, State.coef_retire, c1, c3, c4] at hk' hout hdly hin
    have other : ∀ c', c' ≠ c → ∀ i, i < s.cur.len →
        r.2.word? (bufOffset c' i) = s.buf.word? (bufOffset c' i) := fun c' hne i hi => by
      rw [← hr, filterLoop_word?_of_outside, c2]
      rw [c1]
      exact fun j hj => bufOffset_disjoint hne (hi.trans_le hl) (Nat.lt_of_lt_of_le hj hl)
    refine ⟨t, ?_, ht, ?_, fun k' c' hne => ?_, fun c' hc' i hi => ?_, fun c' hc' => ?_, fun c' hc' => ?_⟩
    · rw [List.length_cons, Nat.mul_succ]
      exact (run_succ hs1).trans ((run_succ hs2).trans hrun)
    · subst e0 e1
      exact hframe
    · rw [hk' k' c' hne, PerKind.get_set_ne _ _ hne]
    · rw [List.mem_cons, not_or] at hc'
      rw [hout c' hc'.2 i hi, other c' hc'.1 i hi]
    · rw [List.mem_cons, not_or] at hc'
      rw [hdly c' hc'.2, PerKind.get_set_self, PerChan.get_set_ne _ _ hc'.1]
    · by_cases hcc : c' = c
      · subst hcc
        refine ⟨s0, fun x hx i hi => ?_⟩
        rw [hout c' hd.1 i hi, ← hr, filterLoop_word? _ _ _ _ _ _ (bufOffset_spaced c') (c1 ▸ hi), c2, c3, c4]
        exact congrArg some (filterOutput_congr fun j hj => by rw [hx j (by omega)]; rfl)
      · obtain ⟨u, hu⟩ := hin c' ((List.mem_cons.1 hc').resolve_left hcc)
        refine ⟨u, fun x hx i hi => ?_⟩
        have := hu x (fun i hi => (other c' hcc i hi).trans (hx i hi)) i hi
        rw [this, PerKind.get_set_self, PerChan.get_set_ne _ _ hcc]

end Sys2Proof.Machine
end

