-- ==== Sys2Proof/Laws/Bus.lean ====
section
/-! SUPPORT. What an offset names, which accesses pass the checks, and the step of an outside agent, each once
for all the statements about the bus. -/

namespace Sys2Proof.Machine

/-- A bit field of a word is the slice the core library names. -/
theorem bitField_eq_extractLsb' {w : Nat} (v : BitVec w) (hi lo : Nat) :
    bitField v hi lo = (v.extractLsb' lo (hi + 1 - lo)).toNat := by
  simp [bitField, BitVec.extractLsb'_toNat, Nat.shiftRight_eq_div_pow]

/-! ## The map (R51 to R53) -/

theorem target_cmd : target 0x000#17 = .cmd := by decide
theorem target_status : target 0x004#17 = .status := by decide
theorem target_sampleRate : target 0x008#17 = .sampleRate := by decide

theorem target_param (p : Param) : target (BitVec.ofNat 17 (0x010 + 4 * p.index)) = .param p := by
  cases p <;> decide

theorem target_sample {off : BitVec 17} {c : Chan} {i : Nat} (hi : i < 8192)
    (h : off.toNat = 0x10000 + 0x8000 * c.index + 4 * i) : target off = .sample c i := by
  have hc : (if bitField off 15 15 = 0 then Chan.ch0 else Chan.ch1) = c := by
    cases c
    · exact if_pos (by simp only [Chan.index] at h; simp only [bitField]; omega)
    · exact if_neg (by simp only [Chan.index] at h; simp only [bitField]; omega)
  have hn : bitField off 14 2 = i := by
    simp only [bitField]
    cases c <;> simp only [Chan.index] at h <;> omega
  rw [target, if_pos (by omega), sampleTarget, hc, hn]

theorem target_ram {off : BitVec 17} (h : 0x10000 ≤ off.toNat) : ∃ c i, target off = .sample c i :=
  ⟨_, _, by rw [target, if_pos h, sampleTarget]⟩

theorem target_of_lt {off : BitVec 17} (h : off.toNat < 0x10000) : target off = registerTarget off.toNat := by
  rw [target, if_neg (by omega)]

theorem registerTarget_reserved {n : Nat} (h : 0x024 ≤ n) : registerTarget n = .reserved := by
  unfold registerTarget
  split <;> first | rfl | omega

/-- The aligned offsets of the register region that are not reserved. -/
theorem register_offsets {n : Nat} (h : n < 0x024) (ha : n % 4 = 0) (hr : n ≠ 0x00C) :
    n = 0x000 ∨ n = 0x004 ∨ n = 0x008 ∨ n = 0x010 ∨ n = 0x014 ∨ n = 0x018 ∨ n = 0x01C ∨ n = 0x020 := by
  omega

/-! ## The checks -/

/-- An aligned 32-bit access to an offset that is not reserved passes the checks of R53, R56 and R57. -/
theorem accepted_of {off : BitVec 17} (op : BusOp) (ha : off.toNat % 4 = 0) (h12 : off.toNat ≠ 0x00C)
    (hr : ¬(0x024 ≤ off.toNat ∧ off.toNat ≤ 0x0FFFF)) :
    Access.accepted { width := 32, off := off, op := op } = true := by
  have h0 : bitField off 1 0 = 0 := by
    simp only [bitField]
    omega
  have ht : target off ≠ .reserved := by
    rcases Nat.lt_or_ge off.toNat 0x10000 with h | h
    · rw [target_of_lt h]
      rcases register_offsets (by omega) ha h12 with h | h | h | h | h | h | h | h <;> rw [h] <;> decide
    · obtain ⟨c, i, h⟩ := target_ram h
      rw [h]
      simp
  simp [Access.accepted, h0, ht]

/-- A wrong width, a misaligned offset or a reserved one does not pass. -/
theorem not_accepted_of {x : Access}
    (h : x.width ≠ 32 ∨ x.off.toNat % 4 ≠ 0 ∨ x.off.toNat = 0x00C ∨
      (0x024 ≤ x.off.toNat ∧ x.off.toNat ≤ 0x0FFFF)) : x.accepted = false := by
  unfold Access.accepted
  rcases h with h | h | h | h
  · simp [h]
  · have : bitField x.off 1 0 ≠ 0 := by
      simp only [bitField]
      omega
    simp [this]
  · rw [target_of_lt (by omega), h]
    simp [registerTarget]
  · rw [target_of_lt (by omega), registerTarget_reserved h.1]
    simp

/-! ## The step of an outside agent -/

section
variable {s : State} {writer : Bool} {x : Access} {rest : List Turn}

/-- An access that issues no command is the whole step. -/
theorem step_of_done (hf : s.fault = none) (hn : s.turns = busTurn writer x :: rest) {t : State}
    (h : busAccess x { s with turns := rest, actor := busAgent writer } = .done t) : step s = .next t := by
  cases writer <;> simp_all [busTurn, step, fetch, fetchAccess, busAgent]

/-- An access that issues a command runs it, or raises RESERVED_COMMAND. -/
theorem step_of_issue (hf : s.fault = none) (hn : s.turns = busTurn writer x :: rest) {w : Word} {t : State}
    (h : busAccess x { s with turns := rest, actor := busAgent writer } = .issue w t) :
    step s =
      match decodeCommand w with
      | .ok i => exec i t
      | .error _ => .next (t.raise .reservedCommand (.command w)) := by
  cases writer <;> simp_all [busTurn, step, fetch, fetchAccess, busAgent, issueCommand] <;>
    cases decodeCommand w <;> rfl

end

/-- An allowed read, once its checks are made. -/
theorem busAccess_read {x : Access} {s : State} (ha : x.accepted = true) (hop : x.op = .read)
    (hb : s.busy = true → allowedWhileBusy (target x.off) false = true) :
    busAccess x s = .done (busRead x s) := by
  cases h : s.busy <;> simp_all [busAccess, Access.isWrite]

/-- An allowed write. -/
theorem busAccess_write {x : Access} {s : State} {v : Word} (ha : x.accepted = true) (hop : x.op = .write v)
    (hb : s.busy = true → allowedWhileBusy (target x.off) true = true) :
    busAccess x s = busWrite x v s := by
  cases h : s.busy <;> simp_all [busAccess, Access.isWrite]

/-- An access R176 does not allow while BUSY. -/
theorem busAccess_busy {x : Access} {s : State} (ha : x.accepted = true) (hb : s.busy = true)
    (hn : allowedWhileBusy (target x.off) x.isWrite = false) :
    busAccess x s = .done (s.raise .hostBusyAccess (.busy x.off.toNat x.isWrite)) := by
  simp [busAccess, ha, hb, hn]

end Sys2Proof.Machine
end

