-- ==== Sys2Proof/Laws/PerInstr.lean ====
section
/-! SUPPORT. Statements about every instruction as syntax, one lemma per constructor: the word of an
instruction matches its row of spec/opcode_table.json. -/

namespace Sys2Proof.Laws

/-- The row of an instruction in spec/opcode_table.json: whether it is a 32-bit command word, its match and
its mask. -/
def tableRow : Instr → Bool × Nat × Nat
  | .prepare => (true, 0x00000001, 0xFFFFFFFF)
  | .processBlock _ _ _ => (true, 0x00000002, 0xFFC0000F)
  | .endCommand => (false, 0x00, 0xFF)
  | .silence _ => (false, 0x10, 0xFE)
  | .snap _ => (false, 0x20, 0xF8)
  | .dryCopy _ => (false, 0x30, 0xFE)
  | .shape _ => (false, 0x40, 0xFE)
  | .upd _ => (false, 0x50, 0xF7)
  | .run _ _ => (false, 0x60, 0xF6)
  | .mix _ => (false, 0x70, 0xFE)
  | .gainCalc => (false, 0x80, 0xFF)
  | .gain _ => (false, 0x90, 0xFE)
  | .prep => (false, 0xA0, 0xFF)

/-- The encoded word lies in the space of the row and matches it under its mask. -/
def Matches (e : Encoded) (row : Bool × Nat × Nat) : Prop :=
  match e with
  | .command w => row.1 = true ∧ w.toNat &&& row.2.2 = row.2.1
  | .micro u => row.1 = false ∧ u.toNat &&& row.2.2 = row.2.1

/-- The word of the instruction matches its row of the opcode table. -/
def MatchesRow.Statement (i : Instr) : Prop := Matches (encode i) (tableRow i)

theorem MatchesRow.prepare : MatchesRow.Statement .prepare := ⟨rfl, rfl⟩

theorem MatchesRow.processBlock (nin nout len : Nat) : MatchesRow.Statement (.processBlock nin nout len) := by
  refine ⟨rfl, ?_⟩
  have h : commandWord 0x2 nin nout len &&& 0xFFC0000F#32 = 0x00000002#32 := by
    apply BitVec.eq_of_getLsbD_eq
    intro i hi
    simp only [commandWord, BitVec.getLsbD_and, BitVec.getLsbD_append]
    interval_cases i <;> simp
  have := congrArg BitVec.toNat h
  simpa [tableRow, encode] using this

theorem MatchesRow.endCommand : MatchesRow.Statement .endCommand := ⟨rfl, rfl⟩
theorem MatchesRow.silence (c : Chan) : MatchesRow.Statement (.silence c) := by cases c <;> exact ⟨rfl, rfl⟩
theorem MatchesRow.snap (p : Param) : MatchesRow.Statement (.snap p) := by cases p <;> exact ⟨rfl, rfl⟩
theorem MatchesRow.dryCopy (c : Chan) : MatchesRow.Statement (.dryCopy c) := by cases c <;> exact ⟨rfl, rfl⟩
theorem MatchesRow.shape (c : Chan) : MatchesRow.Statement (.shape c) := by cases c <;> exact ⟨rfl, rfl⟩
theorem MatchesRow.upd (k : Kind) : MatchesRow.Statement (.upd k) := by cases k <;> exact ⟨rfl, rfl⟩
theorem MatchesRow.run (k : Kind) (c : Chan) : MatchesRow.Statement (.run k c) := by
  cases k <;> cases c <;> exact ⟨rfl, rfl⟩
theorem MatchesRow.mix (c : Chan) : MatchesRow.Statement (.mix c) := by cases c <;> exact ⟨rfl, rfl⟩
theorem MatchesRow.gainCalc : MatchesRow.Statement .gainCalc := ⟨rfl, rfl⟩
theorem MatchesRow.gain (c : Chan) : MatchesRow.Statement (.gain c) := by cases c <;> exact ⟨rfl, rfl⟩
theorem MatchesRow.prep : MatchesRow.Statement .prep := ⟨rfl, rfl⟩

end Sys2Proof.Laws
end

