-- ==== Sys2Proof/Tests/Slice0.lean ====
section
/-! SUPPORT. The model's own tests, each one step on a small state, with the expected results of
95_test_vectors.md or of the rule named; and a witness for the hypotheses of every statement. -/

/-! ## Small states -/

namespace Sys2Proof.Machine

/-- Idle and prepared: DRIVE 0.5, TONE 1000, HPF 100, MIX 0.5, OUTGAIN 0 dB in PARAM and in SNAP, and the word
0.5 in `BUF[0][0]` and `DRY[0][0]`, a block of one sample. -/
def readyState : State :=
  { State.reset with
    mode := .prepared
    cur := { nin := 1, nout := 1, len := 1 }
    sampleRate := some 0x473B8000#32
    param :=
      { drive := some 0x3F000000#32, tone := some 0x447A0000#32, hpf := some 0x42C80000#32,
        mix := some 0x3F000000#32, outgain := some 0x00000000#32 }
    sr := 0x473B8000#32
    coef := { lp := Config.design .lp 0x41A00000#32 0x473B8000#32, hp := Config.design .hp 0x41A00000#32 0x473B8000#32 }
    cached := { lp := 0x41A00000#32, hp := 0x41A00000#32 }
    snap :=
      { drive := 0x3F000000#32, tone := 0x447A0000#32, hpf := 0x42C80000#32, mix := 0x3F000000#32,
        outgain := 0x00000000#32 }
    glin := 0x3F800000#32
    buf := Memory.setWord [] 0x10000 0x3F000000#32
    dry := Memory.setWord [] 0 0x3F000000#32 }

/-- The same in the middle of a command. -/
def busyState (seq : List MicroWord) : State := { readyState with busy := true, seq := seq }

/-- An access of the host next. -/
def State.hostNext (s : State) (x : Access) : State := { s with turns := [.host x] }

/-- The state a step leaves, and the given one where it leaves none. -/
def State.stepped (s : State) : State :=
  match step s with
  | .next t => t
  | _ => s

/-- The state an instruction leaves. -/
def State.after (s : State) (i : Instr) : State :=
  match exec i s with
  | .next t => t
  | _ => s

/-- The primitives with gradual underflow and the NaN 0x7FC00000. -/
def plainFp : Fp := { flush := false, nan := fun _ => 0x7FC00000#32 }

end Sys2Proof.Machine

open Sys2Proof Sys2Proof.Machine

theorem test_exec_is_after (i : Instr) (s : State) : exec i s = .next (s.after i) := by
  obtain ⟨t, h⟩ := exec_next i s
  rw [State.after, h]

/-! ## WellFormed: an ill-formed term for each check -/

theorem test_ill_formed_nin : (Instr.processBlock 4 1 1).wellFormed = false := by decide
theorem test_ill_formed_nout : (Instr.processBlock 1 4 1).wellFormed = false := by decide
theorem test_ill_formed_len : (Instr.processBlock 1 1 16384).wellFormed = false := by decide
theorem test_well_formed_limits : (Instr.processBlock 3 3 16383).wellFormed = true := by decide

/-! ## Decoding: a word of every row, written out from R74 and R80 -/

theorem test_decode_prepare : decodeBytes [0x01#8, 0x00#8, 0x00#8, 0x00#8] = .ok .prepare := by decide
theorem test_decode_process :
    decodeCommand 0b00000000_00100000_00000000_10010010#32 = .ok (.processBlock 1 2 8192) := by decide
theorem test_decode_end : decodeMicro 0b0000_0_000#8 = .ok .endCommand := by decide
theorem test_decode_silence : decodeMicro 0b0001_0_001#8 = .ok (.silence .ch1) := by decide
theorem test_decode_snap : decodeMicro 0b0010_0_011#8 = .ok (.snap .mix) := by decide
theorem test_decode_dryCopy : decodeMicro 0b0011_0_001#8 = .ok (.dryCopy .ch1) := by decide
theorem test_decode_shape : decodeMicro 0b0100_0_000#8 = .ok (.shape .ch0) := by decide
theorem test_decode_upd : decodeMicro 0b0101_1_000#8 = .ok (.upd .hp) := by decide
theorem test_decode_run : decodeMicro 0b0110_1_001#8 = .ok (.run .hp .ch1) := by decide
theorem test_decode_mix : decodeMicro 0b0111_0_001#8 = .ok (.mix .ch1) := by decide
theorem test_decode_gainCalc : decodeMicro 0b1000_0_000#8 = .ok .gainCalc := by decide
theorem test_decode_gain : decodeMicro 0b1001_0_001#8 = .ok (.gain .ch1) := by decide
theorem test_decode_prep : decodeMicro 0b1010_0_000#8 = .ok .prep := by decide

/-- The words of 95_test_vectors.md 2.1 that are reserved. -/
theorem test_reserved_commands :
    decodeCommand 0x00000011#32 = .error (.reservedCommand 0x00000011#32) ∧
    decodeCommand 0x00000000#32 = .error (.reservedCommand 0x00000000#32) ∧
    decodeCommand 0x00400052#32 = .error (.reservedCommand 0x00400052#32) ∧
    decodeCommand 0x80000052#32 = .error (.reservedCommand 0x80000052#32) := by decide

theorem test_reserved_length : decodeBytes [0x01#8, 0x00#8] = .error (.noSuchLength 2) := by decide

/-! ## Arithmetic (95_test_vectors.md 2.4 to 2.8, and the examples of R12) -/

theorem test_mul_rounds :
    plainFp.mul 0 0x3F000000#32 0x3F4CCCCD#32 = 0x3ECCCCCD#32 ∧
    plainFp.mul 1 0x3ECCCCCD#32 0x41400000#32 = 0x4099999A#32 := by decide
theorem test_mul_zero_inf_is_nan : isNaN (plainFp.mul 0 0x00000000#32 0x7F800000#32) = true := by decide
theorem test_add_zeros : plainFp.add 0 0x80000000#32 0x00000000#32 = 0x00000000#32 := by decide
theorem test_sub_rounds : plainFp.sub 0 0x3F800000#32 0x3E99999A#32 = 0x3F333333#32 := by decide
theorem test_div_rounds : plainFp.div 0 0xC1C00000#32 0x41A00000#32 = 0xBF99999A#32 := by decide
theorem test_mul_overflows : plainFp.mul 0 0x7F7FFFFF#32 0x40000000#32 = 0x7F800000#32 := by decide
/-- R13: half of the smallest normal value is subnormal, and a zero where subnormals are flushed. -/
theorem test_flush :
    mul32 false 0x7FC00000#32 0x80800000#32 0x3F000000#32 = 0x80400000#32 ∧
    mul32 true 0x7FC00000#32 0x80800000#32 0x3F000000#32 = 0x80000000#32 := by decide
theorem test_decimal : f32OfDecimal false 8 10 = 0x3F4CCCCD#32 := by decide

/-! ## The host's accesses (95_test_vectors.md 2.2) -/

theorem test_read_status :
    ((busyState [0x00#8]).hostNext { width := 32, off := 0x004#17, op := .read }).stepped.busData
      = some 0x00000003#32 := by decide
theorem test_unwritten_read :
    ((State.reset.hostNext { width := 32, off := 0x10000#17, op := .read }).stepped.fault.map fun f =>
      (f.code, f.detail)) = some (.unwrittenRead, .offset 0x10000) := by decide
theorem test_sample_offset : target 0x18014#17 = .sample .ch1 5 ∧ bufOffset .ch1 8191 = 0x1FFFC := by decide
theorem test_little_endian :
    Memory.setWord [] 0x10000 0x3F800000#32
      = [(0x10000, 0x00#8), (0x10001, 0x00#8), (0x10002, 0x80#8), (0x10003, 0x3F#8)] := by decide
theorem test_reserved_before_busy :
    (((busyState [0x00#8]).hostNext { width := 32, off := 0x00C#17, op := .read }).stepped.fault.map (·.code))
      = some .busAccess := by decide
theorem test_no_command_queue :
    (((busyState [0x00#8]).hostNext { width := 32, off := 0x000#17, op := .write 0x00000001#32 }).stepped.fault.map
      (·.code)) = some .hostBusyAccess := by decide
theorem test_host_process_word : hostProcess 1 2 8192 = wr32 0x000#17 0x00200092#32 := by decide

/-! ## Instructions, one step each -/

/-- R132: in either mode; the second state is busy. -/
theorem test_prepare : (readyState.after .prepare).seq = [0xA0#8, 0x00#8] ∧ (readyState.after .prepare).busy = true := by
  decide
theorem test_prepare_unwritten :
    ((State.reset.after .prepare).fault.map fun f => (f.code, f.detail)) = some (.unwrittenRead, .offset 0x008) := by
  decide
theorem test_process_accepted :
    (readyState.after (.processBlock 1 2 1)).seq.length = 19 ∧
    (readyState.after (.processBlock 1 2 1)).cur = { nin := 1, nout := 2, len := 1 } := by decide
/-- The channel counts are checked before LEN (95_test_vectors.md 2.1). -/
theorem test_process_priority :
    ((readyState.after (.processBlock 3 3 8193)).fault.map fun f => (f.code, f.detail))
      = some (.channelConfig, .command 0x002001F2#32) := by decide
theorem test_end : statusWord ((busyState [0x00#8]).after .endCommand) = 0x00000001#32 := by decide
theorem test_silence :
    ((busyState [0x11#8]).after (.silence .ch1)).buf.word? 0x18000 = some 0x00000000#32 := by decide
theorem test_snap_keeps_minus_zero :
    (({ readyState with param := { readyState.param with drive := some 0x80000000#32 } } : State).after
      (.snap .drive)).snap.drive = 0x80000000#32 := by decide
/-- The ends of the ranges of R93 (95_test_vectors.md 2.3). -/
theorem test_ranges :
    inRange .drive 0x3F800001#32 = false ∧ inRange .drive 0x3F800000#32 = true ∧
    inRange .mix 0x3FC00000#32 = false ∧ inRange .outgain 0xC1C00000#32 = true ∧
    inRange .outgain 0xC1C00001#32 = false ∧ inRange .tone 0x7F800000#32 = true ∧
    inRange .hpf 0x7FC00000#32 = false := by decide
/-- A NaN with a payload is copied bit for bit (95_test_vectors.md 2.9). -/
theorem test_dryCopy :
    (({ readyState with buf := Memory.setWord [] 0x10000 0x7FC00001#32 } : State).after (.dryCopy .ch0)).dry.word? 0
      = some 0x7FC00001#32 := by decide
/-- Drive 0 and sample -0.7 give -0.0 (95_test_vectors.md 1.1). -/
theorem test_shape_drive_zero : shapeSample plainFp 0x00000000#32 0xBF333333#32 = 0x80000000#32 := by
  have h : plainFp.mul 1 (plainFp.mul 0 0x00000000#32 0xBF333333#32) shapingK = minusZero := by decide
  rw [shapeSample, h]
  exact Config.tanhFunction.zeros.2

/-- Rows of 95_test_vectors.md 2.5: 1000 to 1001.0 and to 1001.25, 20 to 21.000002, and +inf, clamped, at 20000. -/
theorem test_hysteresis :
    cutoffMoved plainFp 0x447A4000#32 0x447A0000#32 = false ∧
    cutoffMoved plainFp 0x447A5000#32 0x447A0000#32 = true ∧
    cutoffMoved plainFp 0x41A80001#32 0x41A00000#32 = true ∧
    cutoffMoved plainFp (clamp32 0x7F800000#32 twenty twentyThousand) 0x469C4000#32 = false := by decide
/-- UPD HP reads SNAP[HPF], and a target below 20 is 20. -/
theorem test_upd_target :
    targetCutoff .hp readyState = 0x42C80000#32 ∧ targetCutoff .lp readyState = 0x447A0000#32 ∧
    clamp32 0xFF800000#32 twenty twentyThousand = 0x41A00000#32 := by decide

/-- The dyadic vector of 95_test_vectors.md 2.6 from a state that is not at rest. -/
theorem test_run_dyadic :
    let co : Coef :=
      { b0 := 0x3F000000#32, b1 := 0x3E800000#32, b2 := 0x3E000000#32, a1 := 0xBF000000#32, a2 := 0x3E800000#32 }
    let d : Delay := { x1 := 0x3F800000#32, x2 := 0x40000000#32, y1 := 0xBF800000#32, y2 := 0x3F000000#32 }
    let x : Nat → F32 := fun i => if i = 0 then 0x3F000000#32 else 0xBE800000#32
    filterOutput (fun _ => plainFp) co x d 0 = 0x3E000000#32 ∧
    filterOutput (fun _ => plainFp) co x d 1 = 0x3EE00000#32 ∧
    delayAfter (fun _ => plainFp) co x d 2
      = { x1 := 0xBE800000#32, x2 := 0x3F000000#32, y1 := 0x3EE00000#32, y2 := 0x3E000000#32 } := by decide
/-- The HP step of 95_test_vectors.md 2.6, its fourth output. -/
theorem test_run_hp_step :
    let co : Coef :=
      { b0 := 0x3E95F61A#32, b1 := 0xBF15F61A#32, b2 := 0x3E95F61A#32, a1 := 0x00000000#32, a2 := 0x3E2FB0CD#32 }
    filterOutput (fun _ => plainFp) co (fun _ => 0x3F800000#32) Delay.zero 3 = 0x3D4DD59A#32 := by decide +kernel

/-- Rows of 95_test_vectors.md 1.2 and 2.7. -/
theorem test_mix :
    mixSample plainFp 0x3F000000#32 (dryWeight plainFp 0x3F000000#32) 0x3F4CCCCD#32 0x3E99999A#32 = 0x3F0CCCCD#32 ∧
    mixSample plainFp 0x30800000#32 (dryWeight plainFp 0x30800000#32) 0x3F800000#32 0x3F800000#32
      = 0x3F800000#32 := by decide
theorem test_mix_zero :
    mixSample plainFp 0x00000000#32 (dryWeight plainFp 0x00000000#32) 0x80000000#32 0x3F666666#32
      = 0x00000000#32 := by decide
/-- The exponents of 95_test_vectors.md 2.8; the gain itself is a configuration function. -/
theorem test_gainCalc_exponent :
    plainFp.div 0 0x41400000#32 twenty = 0x3F19999A#32 := by rfl
theorem test_gainCalc_unity : linearGain plainFp 0x80000000#32 = 0x3F800000#32 := by
  have h : plainFp.div 0 0x80000000#32 twenty = minusZero := by decide
  rw [linearGain, h]
  exact Config.pow10Function.unity.2
theorem test_gain :
    gainSample plainFp 0x3F000000#32 0x3F400000#32 = 0x3EC00000#32 ∧
    gainSample plainFp 0x3F800000#32 0x80000000#32 = 0x80000000#32 := by decide
/-- PREP, even with a NaN sample rate (95_test_vectors.md 2.9). -/
theorem test_prep :
    (({ State.reset with sampleRate := some 0x7FC00000#32 } : State).after .prep).mode = .prepared ∧
    (({ State.reset with sampleRate := some 0x7FC00000#32 } : State).after .prep).cached.hp = 0x41A00000#32 := by decide

/-! ## The host's interface -/

theorem test_table_word : decodeTableWord 32 0x200A2 = some (.processBlock 2 2 512) ∧
    decodeTableWord 8 0x69 = some (.run .hp .ch1) := by decide
theorem test_step_runs_placed_word : (State.reset.withFetchWord 8 0xA0).stepped.mode = .prepared := by decide

/-! ## Witnesses: a concrete state and operands that meet all hypotheses of each statement that has any, for
each clause, at a boundary of its range where it has one -/

namespace Sys2Proof.Machine

/-- `readyState` is in progress with a whole mono block still to do. -/
def monoState : State := busyState (sequenceWords (blockSequence 1 1))

/-- An access, of the host or of the parameter writer. -/
def State.busNext (s : State) (writer : Bool) (x : Access) : State := { s with turns := [busTurn writer x] }

theorem readyState_paramsInRange : readyState.paramsInRange := by
  intro p
  cases p <;> exact ⟨_, rfl, by decide⟩

theorem readyState_word : readyState.buf.word? (bufOffset .ch0 0) = some 0x3F000000#32 := by decide

theorem readyState_inputsWritten : readyState.inputsWritten 1 1 := by
  intro c hc i hi
  cases c
  · obtain rfl : i = 0 := by omega
    exact ne_of_eq_of_ne readyState_word (by simp)
  · exact absurd hc (by decide)

end Sys2Proof.Machine

/-- DecodeOfEncodeIsInstruction, at the largest operands. -/
theorem witness_decodeOfEncode : ∃ i : Instr, i = .processBlock 3 3 16383 ∧ i.wellFormed = true := ⟨_, rfl, by decide⟩

/-- EncodeOfDecodeIsWord, in both spaces. -/
theorem witness_encodeOfDecode :
    decode (.command 0x003FFFF2#32) = .ok (.processBlock 3 3 16383) ∧ decode (.micro 0x69#8) = .ok (.run .hp .ch1) := by
  decide

/-- CommandWordsAreClassified, second clause. -/
theorem witness_commandWords : 0x003FFFF2#32 &&& 0xFFC0000F#32 = 0x00000002#32 := by decide

/-- ReservedMicroOpWordsAreRefused, second clause. -/
theorem witness_reservedMicroOp :
    decodeMicro 0xB0#8 = .error (.reservedMicroOp 0xB0#8) ∧
    ∃ (s : State) (rest : List Turn) (tl : List MicroWord),
      s.fault = none ∧ s.busy = true ∧ s.sequencerNext rest ∧ s.seq = 0xB0#8 :: tl :=
  ⟨by decide, busyState [0xB0#8], [], [], rfl, rfl, .inr ⟨rfl, rfl⟩, rfl⟩

/-- StepRunsDecodedMicroOp. -/
theorem witness_stepRunsMicroOp :
    ∃ (s : State) (rest : List Turn) (u : MicroWord) (tl : List MicroWord) (i : Instr) (t : State),
      s.fault = none ∧ s.busy = true ∧ s.sequencerNext rest ∧ s.seq = u :: tl ∧ decodeMicro u = .ok i ∧
      step s = .next t ∧ t.fault = none :=
  ⟨busyState [0x20#8, 0x00#8], [], 0x20#8, [0x00#8], .snap .drive, _, rfl, rfl, .inr ⟨rfl, rfl⟩, rfl, by decide, rfl, rfl⟩

/-- StepRunsIssuedCommand: a command, a reserved word, and a read of CMD. -/
theorem witness_stepRunsCommand (writer : Bool) (op : BusOp) :
    ∃ (s : State) (rest : List Turn), s.fault = none ∧ s.busy = false ∧
      s.turns = busTurn writer { width := 32, off := 0x000#17, op := op } :: rest ∧
      decodeCommand 0x00000152#32 = .ok (.processBlock 1 1 1) ∧
      decodeCommand 0x00000000#32 = .error (.reservedCommand 0x00000000#32) :=
  ⟨readyState.busNext writer _, [], rfl, rfl, rfl, by decide, by decide⟩

/-- RaisedFaultFreezesMachine: a state without a fault, and one with a fault and no reset next. -/
theorem witness_raised :
    ∃ (s s' : State) (f : FaultRecord), s.fault = none ∧ s'.fault = some f ∧ s'.fault ≠ none ∧
      ∀ rest, s'.turns ≠ .reset :: rest :=
  ⟨readyState, readyState.raise .busAccess (.offset 0), _, rfl, rfl, by decide, fun _ h => by cases h⟩

/-- Its step clause: a step of the parameter writer, of the host's command and of a SNAP that raises a fault. -/
theorem witness_raisingStep :
    (∃ s t : State, s.fault = none ∧ step s = .next t ∧ t.fault ≠ none ∧ t.actor = .paramWriter) ∧
    (∃ s t : State, s.fault = none ∧ step s = .next t ∧ t.fault ≠ none ∧ t.actor = .host) ∧
    (∃ s t : State, s.fault = none ∧ step s = .next t ∧ t.fault ≠ none ∧ t.actor = .sequencer) :=
  ⟨⟨readyState.busNext true { width := 16, off := 0x010#17, op := .read }, _, rfl, rfl, by decide, rfl⟩,
    ⟨{ readyState with turns := [hostProcess 3 1 1] }, _, rfl, rfl, by decide, rfl⟩,
    ⟨{ State.reset with busy := true, seq := [0x20#8, 0x00#8] }, _, rfl, rfl, by decide, rfl⟩⟩

/-- R149: the parameter writer's turns still to come, and a new run after a reset, do not keep a run from ending
well; an access of the host still to come does. -/
theorem test_endedWell :
    State.endedWell { readyState with turns := [writerSetParam .mix 0x3F000000#32, .reset, hostPrepare] } ∧
    ¬State.endedWell { readyState with turns := [writerSetParam .mix 0x3F000000#32, pollStatus] } := by
  refine ⟨⟨fun x => ?_, rfl, rfl⟩, fun h => h.1 _ (List.mem_cons_of_mem _ (List.mem_singleton.2 rfl))⟩
  simp [writerSetParam]

/-- KeptDutiesRuleFaultsOut: a block in progress with a dutiful access next, and a launch that keeps the duties. -/
theorem witness_keptDuties :
    (∃ s t : State, s.seqInProgress ∧ s.busy = true ∧ s.blockParamsInRange ∧ s.nextAccessDuty ∧ s.fault = none ∧
      step s = .next t) ∧
    ∃ s t : State, s.launchPremise ∧ Host.Core.run Sys2Proof.core 2 s = .next t := by
  refine ⟨⟨monoState.busNext true { width := 32, off := 0x01C#17, op := .write 0x3F000000#32 }, _,
    .inr ⟨rfl, by decide, .inr ⟨⟨by decide, by decide, by decide⟩, List.suffix_rfl⟩⟩, rfl,
    fun _ => .inl readyState_paramsInRange, ?_, rfl, rfl⟩,
    State.reset.busNext false { width := 32, off := 0x004#17, op := .read }, _, ⟨⟨rfl, rfl, rfl, rfl, rfl,
      fun p => by cases p <;> rfl, rfl, rfl⟩, ?_⟩, rfl⟩
  · intro writer x rest h
    cases writer <;> cases h
    refine ⟨fun _ => by decide, fun _ v hv => ?_⟩
    cases hv
    exact ⟨fun p hp => by cases hp; decide, fun hc => by cases hc⟩
  · rintro (_ | n) t h writer x rest ht
    · cases h
      cases writer <;> cases ht
      exact ⟨fun hb => (by cases hb), fun _ v hv => (by cases hv)⟩
    · rw [turns_run _ _ _ h] at ht
      cases n <;> cases writer <;> cases ht

/-- ResetInputRestartsMachine, in the middle of a command. -/
theorem witness_reset : ∃ (s : State) (rest : List Turn), s.busy = true ∧ s.turns = .reset :: rest :=
  ⟨{ monoState with turns := [.reset] }, [], rfl, rfl⟩

/-- IdleMachineHoldsItsState, with the turn named and past the last turn. -/
theorem witness_idle :
    ∃ (s s' : State), s.fault = none ∧ s.busy = false ∧ s.sequencerNext [.reset] ∧
      s'.fault = none ∧ s'.busy = false ∧ s'.sequencerNext [] :=
  ⟨{ readyState with turns := [.sequencer, .reset] }, readyState, rfl, rfl, .inl rfl, rfl, rfl, .inr ⟨rfl, rfl⟩⟩

/-- MalformedAccessRaisesBusAccess: each of its clauses, at the ends of the reserved range. -/
theorem witness_malformed (writer : Bool) :
    ∀ x ∈ [({ width := 16, off := 0x10000#17, op := .read } : Access), { width := 32, off := 0x10002#17, op := .read },
        { width := 32, off := 0x00C#17, op := .read }, { width := 32, off := 0x024#17, op := .write 0#32 },
        { width := 32, off := 0x0FFFC#17, op := .read }],
      (readyState.busNext writer x).fault = none ∧ (readyState.busNext writer x).turns = busTurn writer x :: [] ∧
      (x.width ≠ 32 ∨ x.off.extractLsb' 0 2 ≠ 0#2 ∨ x.off = 0x00C#17 ∨
        (0x024 ≤ x.off.toNat ∧ x.off.toNat ≤ 0x0FFFF)) := by
  intro x hx
  refine ⟨rfl, rfl, ?_⟩
  simp only [List.mem_cons, List.not_mem_nil, or_false] at hx
  rcases hx with rfl | rfl | rfl | rfl | rfl <;> decide

/-- BusyMachineAcceptsOnlyListedAccesses: accepted accesses, and two that are not. -/
theorem witness_busy (writer : Bool) :
    ∀ x ∈ [({ width := 32, off := 0x008#17, op := .read } : Access), { width := 32, off := 0x020#17, op := .write 0#32 },
        { width := 32, off := 0x008#17, op := .write 0#32 }, { width := 32, off := 0x1FFFC#17, op := .read }],
      (monoState.busNext writer x).fault = none ∧ (monoState.busNext writer x).busy = true ∧
      (monoState.busNext writer x).turns = busTurn writer x :: [] ∧
      x.width = 32 ∧ x.off.extractLsb' 0 2 = 0#2 ∧ x.off ≠ 0x00C#17 ∧
      ¬(0x024 ≤ x.off.toNat ∧ x.off.toNat ≤ 0x0FFFF) := by
  intro x hx
  refine ⟨rfl, rfl, rfl, ?_⟩
  simp only [List.mem_cons, List.not_mem_nil, or_false] at hx
  rcases hx with rfl | rfl | rfl | rfl <;> decide

/-- StatusShowsPreparedAndBusy and StepRunsIssuedCommand's read: the access next, busy or not. -/
theorem witness_status (writer : Bool) (op : BusOp) :
    ∃ (s s' : State) (rest : List Turn), s.fault = none ∧ s.busy = true ∧ s'.fault = none ∧ s'.busy = false ∧
      s.turns = busTurn writer { width := 32, off := 0x004#17, op := op } :: rest ∧
      s'.turns = busTurn writer { width := 32, off := 0x004#17, op := op } :: rest :=
  ⟨monoState.busNext writer _, readyState.busNext writer _, [], rfl, rfl, rfl, rfl, rfl, rfl⟩

/-- TaggedReadReturnsWordOrFaults: a written SAMPLE_RATE, the last PARAM register, the last word of BUF. -/
theorem witness_taggedRead (writer : Bool) :
    (∃ s : State, s.fault = none ∧ s.turns = busTurn writer { width := 32, off := 0x008#17, op := .read } :: [] ∧
      s.sampleRate = some 0x473B8000#32) ∧
    (∃ s : State, s.fault = none ∧ s.turns = busTurn writer { width := 32, off := 0x020#17, op := .read } :: [] ∧
      (0x020#17).toNat = 0x010 + 4 * Param.outgain.index ∧ s.param.get .outgain = some 0x00000000#32) ∧
    (∃ s : State, s.fault = none ∧ s.turns = busTurn writer { width := 32, off := 0x1FFFC#17, op := .read } :: [] ∧
      s.busy = false ∧ 8191 < 8192 ∧ (0x1FFFC#17).toNat = 0x10000 + 0x8000 * Chan.ch1.index + 4 * 8191 ∧
      s.buf.word? (bufOffset .ch1 8191) = none) :=
  ⟨⟨readyState.busNext writer _, rfl, rfl, rfl⟩, ⟨readyState.busNext writer _, rfl, rfl, by decide, rfl⟩,
    ⟨readyState.busNext writer _, rfl, rfl, rfl, by decide, by decide,
      (by decide : readyState.buf.word? (bufOffset .ch1 8191) = none)⟩⟩

/-- SampleWriteStoresLittleEndianWord, at the last word of channel 1. -/
theorem witness_sampleWrite (writer : Bool) :
    ∃ s : State, s.fault = none ∧ s.busy = false ∧ 8191 < 8192 ∧
      (0x1FFFC#17).toNat = 0x10000 + 0x8000 * Chan.ch1.index + 4 * 8191 ∧
      s.turns = busTurn writer { width := 32, off := 0x1FFFC#17, op := .write 0x3F800000#32 } :: [] :=
  ⟨readyState.busNext writer _, rfl, rfl, by decide, by decide, rfl⟩

/-- RegisterWriteStoresWord: SAMPLE_RATE while idle, and a parameter while busy. -/
theorem witness_registerWrite (writer : Bool) (p : Param) :
    (∃ s : State, s.fault = none ∧ s.busy = false ∧
      s.turns = busTurn writer { width := 32, off := 0x008#17, op := .write 0x472C4400#32 } :: []) ∧
    (∃ s : State, s.fault = none ∧ s.busy = true ∧
      s.turns = busTurn writer
        { width := 32, off := BitVec.ofNat 17 (0x010 + 4 * p.index), op := .write 0x3F000000#32 } :: []) :=
  ⟨⟨readyState.busNext writer _, rfl, rfl, rfl⟩, ⟨monoState.busNext writer _, rfl, rfl, rfl⟩⟩

/-- WindowLiesAtBase: an address in the window and one outside it, whatever BASE is. -/
theorem witness_window :
    (∃ addr : BitVec 32, Config.base.toNat ≤ addr.toNat ∧ addr.toNat < Config.base.toNat + 0x20000) ∧
    (∃ addr : BitVec 32, ¬(Config.base.toNat ≤ addr.toNat ∧ addr.toNat < Config.base.toNat + 0x20000)) := by
  refine ⟨⟨Config.base, le_refl _, by omega⟩, ?_⟩
  rcases Nat.eq_zero_or_pos Config.base.toNat with h | h
  · refine ⟨0xFFFFFFFF#32, fun hc => ?_⟩
    have : (0xFFFFFFFF#32).toNat = 4294967295 := by decide
    omega
  · exact ⟨0x00000000#32, fun hc => absurd hc.1 (by simpa using h.ne')⟩

/-- PrepareLoadsPrepSequence: SAMPLE_RATE written, and unwritten. -/
theorem witness_prepare : readyState.sampleRate = some 0x473B8000#32 ∧ State.reset.sampleRate = none := ⟨rfl, rfl⟩

/-- ProcessBlockChecksThenLoads: its five clauses, with LEN 8193, 8192, 1 and 0. -/
theorem witness_processBlock :
    (State.reset.fault = none ∧ State.reset.mode = .unprepared) ∧
    (readyState.fault = none ∧ readyState.mode = .prepared ∧ ¬((1 = 1 ∨ 1 = 2) ∧ (3 = 1 ∨ 3 = 2)) ∧ 8192 < 8193) ∧
    (¬readyState.inputsWritten 2 8192) ∧ readyState.inputsWritten 1 1 ∧ readyState.inputsWritten 2 0 := by
  refine ⟨⟨rfl, rfl⟩, ⟨rfl, rfl, by decide, by decide⟩, fun h => ?_, readyState_inputsWritten,
    fun _ _ i hi => absurd hi (Nat.not_lt_zero i)⟩
  exact h .ch1 (by decide) 8191 (by decide) (by decide)

/-- BlockSequencesAreTheTabledWords and SequencesKeepToTheirChannels: the limits of the channel counts. -/
theorem witness_channelCounts : (1 = 1 ∨ 1 = 2) ∧ ((2 : Nat) = 1 ∨ 2 = 2) ∧ 0x11#8 ∈ sequenceWords (blockSequence 1 2) := by
  decide

/-- SnapTakesParameterOrFaults: its three clauses, the first two at the end of the range of OUTGAIN. -/
theorem witness_snap :
    inRange .outgain 0xC1C00000#32 = true ∧ inRange .outgain 0xC1C00001#32 = false ∧
    ∃ s : State, s.param.outgain = some 0xC1C00001#32 ∧ s.param.get .tone = none :=
  ⟨by decide, by decide, { State.reset with param := { State.reset.param with outgain := some 0xC1C00001#32 } },
    rfl, rfl⟩

/-- The premise of the statements about a micro-op that leaves a state: MicroOpsIgnoreParameterWrites,
OnlySnapRaisesInPipeline, WordsOutsideBlockKeepTheirBytes and EachRegisterHasItsWriters. -/
theorem witness_microOp :
    ∃ (i : Instr) (s t : State), i.isMicroOp = true ∧ (∀ p, i ≠ .snap p) ∧ i ≠ .prep ∧ exec i s = .next t ∧
      ∀ (c : Chan) (j : Nat), j < s.cur.len → 0x10004 < bufOffset c j ∨ bufOffset c j + 4 ≤ 0x10004 := by
  refine ⟨.run .lp .ch0, readyState, _, rfl, by simp, by simp, test_exec_is_after _ _, fun c j hj => ?_⟩
  obtain rfl : j = 0 := by simpa [readyState] using hj
  cases c <;> decide

/-- DriveZeroSilencesFiniteSamples, with drive -0.0 and a finite sample, and with an infinity. -/
theorem witness_driveZero :
    ∀ x ∈ [0x3F000000#32, 0x7F800000#32], ∃ s t : State, isZero s.snap.drive = true ∧ exec (.shape .ch0) s = .next t ∧
      0 < s.cur.len ∧ s.buf.word? (bufOffset .ch0 0) = some x := by
  intro x _
  exact ⟨{ readyState with snap := { readyState.snap with drive := 0x80000000#32 }, buf := Memory.setWord [] 0x10000 x },
    _, (by decide : isZero 0x80000000#32 = true), test_exec_is_after _ _, Nat.one_pos,
    Memory.word?_setWord_self _ _ _⟩

/-- ShapedSamplesStayWithinOne. -/
theorem witness_shapedSamples :
    ∃ s t : State, isFinite s.snap.drive = true ∧ isFinite 0x3F000000#32 = true ∧ exec (.shape .ch0) s = .next t ∧
      0 < s.cur.len ∧ s.buf.word? (bufOffset .ch0 0) = some 0x3F000000#32 :=
  ⟨readyState, _, by decide, by decide, test_exec_is_after _ _, by decide, readyState_word⟩

/-- UpdRedesignsBeyondOneHertz: both clauses, 1000.0 from 20.0 and 20.0 from 20.0, with and without flushing. -/
theorem witness_upd (flush : Bool) (nan : F32) :
    lt32 0x3F800000#32 (abs32 (sub32 flush nan 0x447A0000#32 0x41A00000#32)) = true ∧
    lt32 0x3F800000#32 (abs32 (sub32 flush nan 0x41A00000#32 0x41A00000#32)) = false := by
  have h : sub32 flush nan 0x447A0000#32 0x41A00000#32 = 0x44750000#32 := by cases flush <;> rfl
  have h' : sub32 flush nan 0x41A00000#32 0x41A00000#32 = 0x00000000#32 := by cases flush <;> rfl
  rw [h, h']
  decide

/-- HysteresisComparesExactly, at the distance 3. -/
theorem witness_hysteresis :
    le32 0x41A00000#32 0x447AC000#32 = true ∧ le32 0x447AC000#32 0x469C4000#32 = true ∧
    le32 0x41A00000#32 0x447A0000#32 = true ∧ le32 0x447A0000#32 0x469C4000#32 = true ∧
    |units 0x447AC000#32 - units 0x447A0000#32| ≤ 3 * 2 ^ 149 := by decide

/-- SecondUpdNeverRecomputes: the second state is the one the first UPD leaves. -/
theorem witness_secondUpd :
    ∃ s t u u' : State, exec (.upd .lp) s = .next t ∧ u.snap = t.snap ∧ u.cached = t.cached ∧
      exec (.upd .lp) u = .next u' :=
  ⟨readyState, _, _, _, test_exec_is_after _ _, rfl, rfl, test_exec_is_after _ _⟩

/-- RunKeepsChannelsApart: the two states differ in what the other channel holds. -/
theorem witness_runChannels :
    ∃ s s' t t' : State, exec (.run .lp .ch0) s = .next t ∧ exec (.run .lp .ch0) s' = .next t' ∧
      s'.cur.len = s.cur.len ∧ s'.draws = s.draws ∧ s'.coef.get .lp = s.coef.get .lp ∧
      (s'.dly.get .lp).get .ch0 = (s.dly.get .lp).get .ch0 ∧
      (∀ i, i < s.cur.len → s'.buf.word? (bufOffset .ch0 i) = s.buf.word? (bufOffset .ch0 i)) ∧
      s'.buf.word? (bufOffset .ch1 0) ≠ s.buf.word? (bufOffset .ch1 0) := by
  refine ⟨readyState, { readyState with buf := readyState.buf.setWord 0x18000 0x3F800000#32 }, _, _,
    test_exec_is_after _ _, test_exec_is_after _ _, rfl, rfl, rfl, rfl, fun i hi => ?_, by decide⟩
  obtain rfl : i = 0 := by simpa [readyState] using hi
  decide

/-- MixZeroReturnsDryWord, with mix -0.0: a finite, an infinite wet word; the exception's dry -0.0. -/
theorem witness_mixZero :
    ∀ p ∈ [(0x3F000000#32, 0x3F000000#32), (0x80000000#32, 0xBF000000#32), (0x3F000000#32, 0x7F800000#32)],
      ∃ s t : State, isZero s.snap.mix = true ∧ exec (.mix .ch0) s = .next t ∧ 0 < s.cur.len ∧
        s.dry.word? (dryIndex .ch0 0) = some p.1 ∧ s.buf.word? (bufOffset .ch0 0) = some p.2 := by
  intro p _
  exact ⟨{ readyState with
      snap := { readyState.snap with mix := 0x80000000#32 }
      buf := Memory.setWord [] 0x10000 p.2
      dry := Memory.setWord [] 0 p.1 },
    _, (by decide : isZero 0x80000000#32 = true), test_exec_is_after _ _, Nat.one_pos,
    Memory.word?_setWord_self _ _ _, Memory.word?_setWord_self _ _ _⟩

/-- ZeroDecibelsGiveUnityGain. -/
theorem witness_zeroDecibels : ∃ s t : State, isZero s.snap.outgain = true ∧ exec .gainCalc s = .next t :=
  ⟨readyState, _, by decide, test_exec_is_after _ _⟩

/-- UnityGainKeepsSamples: a number and a NaN. -/
theorem witness_unityGain :
    ∀ x ∈ [0x80000000#32, 0x7FC00000#32], ∃ s t : State, s.glin = 0x3F800000#32 ∧ exec (.gain .ch0) s = .next t ∧
      0 < s.cur.len ∧ s.buf.word? (bufOffset .ch0 0) = some x := by
  intro x _
  exact ⟨{ readyState with buf := Memory.setWord [] 0x10000 x }, _, rfl, test_exec_is_after _ _, Nat.one_pos,
    Memory.word?_setWord_self _ _ _⟩

/-- PrepResetsFiltersAndPrepares and DryCopyCopiesBitForBit: a written rate, a written word in the block. -/
theorem witness_prep_dryCopy :
    readyState.sampleRate = some 0x473B8000#32 ∧ 0 < readyState.cur.len ∧
    readyState.buf.word? (bufOffset .ch0 0) = some 0x3F000000#32 := ⟨rfl, by decide, readyState_word⟩

/-- EndClearsBusy: a state with END at the head of SEQ. -/
theorem witness_end :
    ∃ s t : State, s.seqInProgress ∧ s.seq = 0x00#8 :: [] ∧ s.mode = .prepared ∧
      exec .endCommand s = .next t :=
  ⟨busyState [0x00#8], _, .inr ⟨rfl, by decide, .inl ⟨[0xA0#8], by decide⟩⟩, rfl, rfl, test_exec_is_after _ _⟩

/-- OnlyResetUnprepares. -/
theorem witness_onlyReset : ∃ s t : State, step s = .next t ∧ s.mode = .prepared :=
  ⟨readyState, _, rfl, rfl⟩

/-- BusAccessLeavesInternalStateAlone: a read. -/
theorem witness_busAccess (writer : Bool) :
    ∃ (s t : State) (x : Access) (rest : List Turn), s.turns = busTurn writer x :: rest ∧
      (x.off ≠ 0x000#17 ∨ x.op = .read ∨ s.busy = true) ∧ step s = .next t := by
  cases writer
  · exact ⟨readyState.busNext false { width := 32, off := 0x004#17, op := .read }, _, _, [], rfl, .inr (.inl rfl), rfl⟩
  · exact ⟨readyState.busNext true { width := 32, off := 0x010#17, op := .write 0x3F000000#32 }, _, _, [], rfl,
      .inl (by decide), rfl⟩

/-- BufferHasOneOwner: a parameter write while busy, and an idle turn of the sequencer. -/
theorem witness_bufferOwner :
    (∃ s t : State, step s = .next t ∧ s.busy = true ∧ s.busAccessNext) ∧
    (∃ s t : State, step s = .next t ∧ s.busy = false ∧ ¬s.busAccessNext ∧ ∀ rest, s.turns ≠ .reset :: rest) := by
  refine ⟨⟨monoState.busNext true { width := 32, off := 0x01C#17, op := .write 0x3F000000#32 }, _, rfl, rfl, true, _, _,
    rfl⟩, readyState, _, rfl, rfl, ?_, fun _ h => by cases h⟩
  rintro ⟨_, _, _, h⟩
  cases h

/-- EmptyBlockChangesNoSample. -/
theorem witness_emptyBlock :
    ∃ (i : Instr) (s : State), i.isMicroOp = true ∧ i ≠ .prep ∧ s.cur.len = 0 :=
  ⟨.run .lp .ch0, { readyState with cur := { nin := 1, nout := 1, len := 0 } }, rfl, by decide, rfl⟩

/-- PrimitivesRoundToNearest, from R12: the largest finite value and half a place above it, where the tie goes to an
infinity, and just below that; a tie between two finite values; and `x - x`. -/
theorem test_rounding_corners :
    add32 false 0#32 0x7F7FFFFF#32 0x73000000#32 = 0x7F800000#32 ∧
    add32 false 0#32 0x7F7FFFFF#32 0x72FFFFFF#32 = 0x7F7FFFFF#32 ∧
    add32 false 0#32 0x4B800000#32 0x3F800000#32 = 0x4B800000#32 ∧
    sub32 false 0#32 0x3F4CCCCD#32 0x3F4CCCCD#32 = 0x00000000#32 := by
  refine ⟨?_, ?_, ?_, ?_⟩ <;> decide

/-- Assumption 19: a subnormal drive with an infinite sample, with and without flushing. -/
theorem test_subnormal_drive :
    isNaN (mul32 true 0x7FC00000#32 0x00400000#32 0x7F800000#32) = true ∧
    mul32 false 0x7FC00000#32 0x00400000#32 0x7F800000#32 = 0x7F800000#32 := by decide

/-- ComparisonOrdersValues and PrimitivesRoundToNearest: finite operands with a finite sum, difference, product
and quotient, and a NaN. -/
theorem witness_arithmetic :
    isNaN 0x3F4CCCCD#32 = false ∧ isNaN 0x7FC00000#32 = true ∧ isFinite 0x3F4CCCCD#32 = true ∧
    isFinite 0x3DCCCCCD#32 = true ∧ isZero 0x3DCCCCCD#32 = false ∧
    isFinite (add32 false 0#32 0x3F4CCCCD#32 0x3DCCCCCD#32) = true ∧
    isFinite (sub32 false 0#32 0x3F4CCCCD#32 0x3DCCCCCD#32) = true ∧
    isFinite (mul32 false 0#32 0x3F4CCCCD#32 0x3DCCCCCD#32) = true ∧
    isFinite (div32 false 0#32 0x3F4CCCCD#32 0x3DCCCCCD#32) = true := by
  refine ⟨?_, ?_, ?_, ?_, ?_, ?_, ?_, ?_, ?_⟩ <;> decide

/-- The four statements that every step keeps an invariant: a prepared state in the middle of a block meets all
of them, and takes a step that is no reset. -/
theorem witness_invariants :
    ∃ s t : State, s.storesCanonical ∧ s.coefMatchesCutoff ∧ s.seqInProgress ∧ s.cur.legal ∧ s.cutoffsInRange ∧
      s.snapshotNumeric ∧ s.mode = .prepared ∧ (∀ rest, s.turns ≠ .reset :: rest) ∧ step s = .next t :=
  ⟨monoState, _, ⟨by decide, by decide⟩, fun _ k => by cases k <;> rfl,
    .inr ⟨rfl, by decide, .inr ⟨⟨by decide, by decide, by decide⟩, List.suffix_rfl⟩⟩, ⟨by decide, by decide, by decide⟩,
    fun _ k => by cases k <;> decide, fun p => by cases p <;> decide, rfl, fun _ h => (by cases h), rfl⟩

/-- CommandEndsWithinTwentyThreeSteps: the whole of a stereo block is still to do. -/
theorem witness_commandEnds :
    ∃ s : State, s.seqInProgress ∧ s.busy = true ∧ s.fault = none ∧ s.turns = [] ∧ s.paramsInRange :=
  ⟨{ busyState (sequenceWords (blockSequence 2 2)) with cur := { nin := 2, nout := 2, len := 8192 } },
    .inr ⟨rfl, by decide, .inr ⟨⟨by decide, by decide, by decide⟩, List.suffix_rfl⟩⟩, rfl, rfl, rfl,
    readyState_paramsInRange⟩

/-- PrepareRunsToPrepared. -/
theorem witness_prepareRuns (writer : Bool) :
    ∃ (s : State) (fs : F32), s.fault = none ∧ s.busy = false ∧ s.sampleRate = some fs ∧
      s.turns = [busTurn writer { width := 32, off := 0x000#17, op := .write 0x00000001#32 }] :=
  ⟨readyState.busNext writer _, 0x473B8000#32, rfl, rfl, rfl, rfl⟩

/-- BlockComputesWholeChain: a mono input with a stereo output, so that both kinds of channel occur. -/
theorem witness_wholeChain :
    ∃ (s : State) (x : Chan → Nat → F32), s.cur.legal ∧
      s.seq = sequenceWords (blockSequence s.cur.nin s.cur.nout) ∧ s.busy = true ∧ s.fault = none ∧
      s.turns = [] ∧ s.paramsInRange ∧ 0 < s.cur.len ∧ Chan.ch0.index < s.cur.nin ∧ s.cur.nin ≤ Chan.ch1.index ∧
      Chan.ch1.index < max s.cur.nin s.cur.nout ∧
      ∀ c i, c.index < s.cur.nin → i < s.cur.len → s.buf.word? (bufOffset c i) = some (x c i) := by
  refine ⟨{ busyState (sequenceWords (blockSequence 1 2)) with cur := { nin := 1, nout := 2, len := 1 } },
    fun _ _ => 0x3F000000#32, ⟨by decide, by decide, by decide⟩, rfl, rfl, rfl, rfl, readyState_paramsInRange,
    by decide, by decide, by decide, by decide, fun c i hc hi => ?_⟩
  obtain rfl : i = 0 := Nat.lt_one_iff.1 hi
  cases c
  · exact readyState_word
  · exact absurd hc (by decide)

/-- WordsOutsideBlockKeepTheirBytes, step clause: a mono block in progress, its channel 1 outside, and another content
of BUF that agrees inside. -/
theorem witness_wordsOutside :
    ∃ (s t : State) (other : Memory), s.seqInProgress ∧ s.busy = true ∧ s.fault = none ∧ s.sequencerNext [] ∧
      step s = .next t ∧
      (∀ (c : Chan) (j : Nat), c.index < max s.cur.nin s.cur.nout → j < s.cur.len →
        0x18000 < bufOffset c j ∨ bufOffset c j + 4 ≤ 0x18000) ∧
      (∀ (c : Chan) (j : Nat), c.index < max s.cur.nin s.cur.nout → j < s.cur.len →
        other.word? (bufOffset c j) = s.buf.word? (bufOffset c j)) ∧ other ≠ s.buf := by
  refine ⟨monoState, _, Memory.setWord monoState.buf 0x18000 0x3F800000#32,
    .inr ⟨rfl, by decide, .inr ⟨⟨by decide, by decide, by decide⟩, List.suffix_rfl⟩⟩, rfl, rfl, .inr ⟨rfl, rfl⟩, rfl,
    fun c j hc hj => ?_, fun c j hc hj => ?_, by decide⟩ <;>
  · obtain rfl : j = 0 := Nat.lt_one_iff.1 hj
    cases c
    · decide
    · exact absurd hc (by decide)
end

section
/-! Proofs of the family 00_scope.md: comparison in exact values, the rounding of the four primitives under
gradual underflow, and the ranges of a shaped sample and of the gain at 0 dB. -/

namespace Sys2Proof.Machine

/-! ## Comparison (R14) -/

/-- With a NaN operand both comparisons are false. -/
theorem lt32_le32_of_isNaN {a b : F32} (h : isNaN a = true ∨ isNaN b = true) :
    lt32 a b = false ∧ le32 a b = false := by
  rcases h with h | h <;> simp [lt32, le32, h]

theorem lt32_iff_units {a b : F32} (ha : isNaN a = false) (hb : isNaN b = false) :
    lt32 a b = true ↔ units a < units b := by
  simp [lt32, ha, hb, orderKey_lt_iff]

theorem le32_iff_units {a b : F32} (ha : isNaN a = false) (hb : isNaN b = false) :
    le32 a b = true ↔ units a ≤ units b := by
  simp [le32, ha, hb, orderKey_le_iff]

/-- The mask keeps exactly bits 30:0. -/
theorem abs32_eq_and (a : F32) : abs32 a = a &&& 0x7FFFFFFF#32 := by
  apply BitVec.eq_of_toNat_eq
  rw [abs32, toNat_ofSignMag false (magBits_lt a), BitVec.toNat_and]
  have hmask : (0x7FFFFFFF#32 : F32).toNat = 2 ^ 31 - 1 := rfl
  rw [hmask, Nat.and_two_pow_sub_one_eq_mod]
  simp [magBits]

/-! ## Magnitude and sign of an exact value -/

@[simp] theorem natAbs_units (v : F32) : (units v).natAbs = magUnits v := by
  unfold units
  split <;> simp

theorem magUnits_pos {v : F32} (h : isZero v = false) : 0 < magUnits v := by
  have hm : magBits v ≠ 0 := by simpa [isZero] using h
  rw [magUnits_eq, ← unitsOfMag_zero]
  exact unitsOfMag_strictMono (by omega)

theorem sign_units {v : F32} (h : isZero v = false) : (units v).sign = if signBit v then -1 else 1 := by
  have hpos : (0 : Int) < magUnits v := by exact_mod_cast magUnits_pos h
  unfold units
  split
  · rw [Int.sign_neg, Int.sign_eq_one_of_pos hpos]
  · exact Int.sign_eq_one_of_pos hpos

theorem units_mul_units (a b : F32) :
    units a * units b =
      if signBit a ^^ signBit b then -((magUnits a * magUnits b : Nat) : Int) else (magUnits a * magUnits b : Nat) := by
  unfold units
  cases signBit a <;> cases signBit b <;> simp

/-- The exact quotient by a nonzero divisor, written over the divisor's magnitude. -/
theorem units_mul_sign_units {a b : F32} (hb : isZero b = false) :
    units a * 2 ^ 149 * (units b).sign =
      if signBit a ^^ signBit b then -((magUnits a * 2 ^ 149 : Nat) : Int) else (magUnits a * 2 ^ 149 : Nat) := by
  rw [sign_units hb]
  unfold units
  cases signBit a <;> cases signBit b <;> simp

theorem ofSignMag_zero_eq (b : Bool) : ofSignMag b 0 = if b then 0x80000000#32 else 0x00000000#32 := by
  cases b <;> rfl

theorem signBit_ofSignMag_roundMag (b : Bool) (num den : Nat) : signBit (ofSignMag b (roundMag num den)) = b :=
  signBit_ofSignMag b (roundMag_lt num den)

/-! ## The primitives on finite operands with gradual underflow (R12) -/

section
variable (nan : F32) {a b : F32}

theorem add32_eq_of_isFinite (ha : isFinite a = true) (hb : isFinite b = true) :
    add32 false nan a b =
      if units a + units b = 0 then ofSignMag (signBit a && signBit b) 0
      else ofSignMag (decide (units a + units b < 0)) (roundMag (units a + units b).natAbs 1) := by
  simp [add32, addCore, flushSub_eq, isNaN_of_isFinite, isInf_of_isFinite, ha, hb]

theorem mul32_eq_of_isFinite (ha : isFinite a = true) (hb : isFinite b = true) :
    mul32 false nan a b =
      ofSignMag (signBit a ^^ signBit b) (roundMag (magUnits a * magUnits b) (2 ^ 149)) := by
  simp only [mul32, mulCore, flushSub_eq (.inr rfl), isNaN_of_isFinite ha, isNaN_of_isFinite hb, isInf_of_isFinite ha,
    isInf_of_isFinite hb, Bool.or_false, Bool.false_eq_true, if_false]

theorem div32_eq_of_isFinite (ha : isFinite a = true) (hb : isFinite b = true) (hz : isZero b = false) :
    div32 false nan a b =
      ofSignMag (signBit a ^^ signBit b) (roundMag (magUnits a * 2 ^ 149) (magUnits b)) := by
  simp only [div32, divCore, flushSub_eq (.inr rfl), isNaN_of_isFinite ha, isNaN_of_isFinite hb, isInf_of_isFinite ha,
    isInf_of_isFinite hb, hz, Bool.or_false, Bool.false_eq_true, if_false]

theorem roundsTo_add32 (ha : isFinite a = true) (hb : isFinite b = true) :
    RoundsTo (add32 false nan a b) (units a + units b) 1 := by
  rw [add32_eq_of_isFinite nan ha hb]
  generalize units a + units b = z
  split
  · next hz =>
    have h := roundsTo_ofSignMag (num := 0) Nat.one_pos (signBit a && signBit b)
    rw [roundMag_zero Nat.one_pos] at h
    simpa [hz] using h
  · have hz : (if decide (z < 0) then -(z.natAbs : Int) else z.natAbs) = z := by
      simp only [decide_eq_true_eq]
      split <;> omega
    have h := roundsTo_ofSignMag (num := z.natAbs) Nat.one_pos (decide (z < 0))
    rwa [hz] at h

/-- The sign of a zero sum: negative only where both operands are. -/
theorem add32_eq_zero_of_units (ha : isFinite a = true) (hb : isFinite b = true) (h : units a + units b = 0) :
    add32 false nan a b = if signBit a && signBit b then 0x80000000#32 else 0x00000000#32 := by
  rw [add32_eq_of_isFinite nan ha hb, if_pos h, ofSignMag_zero_eq]

theorem roundsTo_mul32 (ha : isFinite a = true) (hb : isFinite b = true) :
    RoundsTo (mul32 false nan a b) (units a * units b) (2 ^ 149) := by
  rw [mul32_eq_of_isFinite nan ha hb, units_mul_units]
  exact roundsTo_ofSignMag (by positivity) _

theorem roundsTo_div32 (ha : isFinite a = true) (hb : isFinite b = true) (hz : isZero b = false) :
    RoundsTo (div32 false nan a b) (units a * 2 ^ 149 * (units b).sign) (units b).natAbs := by
  rw [div32_eq_of_isFinite nan ha hb hz, units_mul_sign_units hz, natAbs_units]
  exact roundsTo_ofSignMag (magUnits_pos hz) _

end

/-! ## Products that are no NaN -/

theorem isNaN_ofSignMag {m : Nat} (b : Bool) (h : m ≤ infMag) : isNaN (ofSignMag b m) = false := by
  have hi : infMag = 0x7F800000 := rfl
  rw [isNaN, magBits_ofSignMag b (by omega)]
  exact decide_eq_false (by omega)

theorem isNaN_flushSub {flush : Bool} {v : F32} (h : isNaN v = false) : isNaN (flushSub flush v) = false := by
  unfold flushSub
  split
  · exact isNaN_ofSignMag _ (Nat.zero_le _)
  · exact h

/-- A product of numbers is a NaN only where it is that of an infinity and a zero. -/
theorem isNaN_mulCore {nan a b : F32} (ha : isNaN a = false) (hb : isNaN b = false)
    (h : (isInf a || isInf b) = false ∨ (isZero a || isZero b) = false) : isNaN (mulCore nan a b) = false := by
  simp only [mulCore, ha, hb, Bool.or_false, Bool.false_eq_true, if_false]
  rcases h with h | h
  · rw [h]
    exact isNaN_ofSignMag _ (roundMag_le _ _)
  · rw [h]
    split
    · exact isNaN_ofSignMag _ le_rfl
    · exact isNaN_ofSignMag _ (roundMag_le _ _)

/-- A product of finite values may overflow, but is no NaN. -/
theorem isNaN_mul32_of_isFinite {flush : Bool} {nan a b : F32} (ha : isFinite a = true) (hb : isFinite b = true) :
    isNaN (mul32 flush nan a b) = false := by
  have fa := isFinite_flushSub (flush := flush) ha
  have fb := isFinite_flushSub (flush := flush) hb
  exact isNaN_flushSub (isNaN_mulCore (isNaN_of_isFinite fa) (isNaN_of_isFinite fb)
    (.inl (by rw [isInf_of_isFinite fa, isInf_of_isFinite fb]; rfl)))

/-- A number times 12.0 is no NaN: a product of a zero and an infinity would need the number to be both. -/
theorem isNaN_mul32_shapingK {flush : Bool} {nan a : F32} (ha : isNaN a = false) :
    isNaN (mul32 flush nan a shapingK) = false := by
  have hK : flushSub flush shapingK = shapingK := flushSub_eq (.inl (by decide))
  have hKn : isNaN shapingK = false := by decide
  have hKi : isInf shapingK = false := by decide
  have hKz : isZero shapingK = false := by decide
  rw [mul32, hK]
  refine isNaN_flushSub (isNaN_mulCore (isNaN_flushSub ha) hKn ?_)
  cases hz : isZero (flushSub flush a)
  · exact .inr (by rw [hKz]; rfl)
  · exact .inl (by rw [isInf_of_isFinite (isFinite_of_isZero hz), hKi]; rfl)

/-! ## The waveshaper and the gain -/

/-- What SHAPE leaves where a written word stood. -/
theorem word?_of_exec_shape {s t : State} {c : Chan} {i : Nat} {x : F32} (h : exec (.shape c) s = .next t)
    (hi : i < s.cur.len) (hx : s.buf.word? (bufOffset c i) = some x) :
    t.buf.word? (bufOffset c i) = some (shapeSample (s.fp i) s.snap.drive x) := by
  obtain rfl : State.retire (s.mapBuf c fun i x => shapeSample (s.fp i) s.snap.drive x) = t :=
    Host.Outcome.next.inj h
  rw [State.buf_retire, State.word?_mapBuf s c _ hi, State.bufWord_of_written hx]

/-- What GAINCALC leaves in GLIN. -/
theorem glin_of_exec_gainCalc {s t : State} (h : exec .gainCalc s = .next t) :
    t.glin = linearGain (s.fp 0) s.snap.outgain := by
  obtain rfl : State.retire { s with glin := linearGain (s.fp 0) s.snap.outgain } = t := Host.Outcome.next.inj h
  rfl

/-- The argument of the hyperbolic tangent is a number, and its values lie in [-1, 1] (T3). -/
theorem shapeSample_bounded {e : Fp} {d x : F32} (hd : isFinite d = true) (hx : isFinite x = true) :
    le32 minusOne (shapeSample e d x) = true ∧ le32 (shapeSample e d x) one = true :=
  Config.tanhFunction.bounded.1 _ (isNaN_mul32_shapingK (isNaN_mul32_of_isFinite hd hx))

/-- 0 dB over 20.0 is a zero, where the power of ten is 1.0 (P1). -/
theorem linearGain_of_isZero {e : Fp} {g : F32} (hg : isZero g = true) : linearGain e g = one := by
  obtain ⟨hplus, hminus⟩ := Config.pow10Function.unity
  rw [linearGain, Fp.div, div32_zero_twenty hg]
  rcases isZero_cases hg with rfl | rfl
  · exact hplus
  · exact hminus

end Sys2Proof.Machine

open Sys2Proof Sys2Proof.Machine

/-- Settles O27: the product with drive and with 12.0 is no NaN, and Tanh32 is bounded (T3). -/
theorem shapedSamplesStayWithinOne : Obligations.ShapedSamplesStayWithinOne := by
  intro s t c i x hd hx hexec hi hw
  exact ⟨_, word?_of_exec_shape hexec hi hw, shapeSample_bounded hd hx⟩

/-- Settles O36: a zero over 20.0 is a zero, and Pow10_32 of a zero is 1.0 (P1). -/
theorem zeroDecibelsGiveUnityGain : Obligations.ZeroDecibelsGiveUnityGain := by
  intro s t hz hexec
  rw [glin_of_exec_gainCalc hexec]
  exact linearGain_of_isZero hz

/-- Settles O50: the order of the words is the order of the exact values. -/
theorem comparisonOrdersValues : Obligations.ComparisonOrdersValues := fun a b =>
  ⟨fun ha hb => ⟨lt32_iff_units ha hb, le32_iff_units ha hb⟩, lt32_le32_of_isNaN, by decide, abs32_eq_and a,
    fun _ => rfl⟩

/-- Settles O51: each primitive is one signed rounding of the exact result, and subtraction is addition of the
negated operand. -/
theorem primitivesRoundToNearest : Obligations.PrimitivesRoundToNearest := by
  intro nan a b ha hb
  have hb' : isFinite (neg32 b) = true := by rwa [isFinite_neg32]
  have hsub : units a - units b = units a + units (neg32 b) := by rw [units_neg32, sub_eq_add_neg]
  refine ⟨roundsTo_add32 nan ha hb, add32_eq_zero_of_units nan ha hb, ?_, fun h => ?_, roundsTo_mul32 nan ha hb, ?_,
    fun hz => ⟨roundsTo_div32 nan ha hb hz, ?_⟩⟩
  · rw [hsub]
    exact roundsTo_add32 nan ha hb'
  · rw [hsub] at h
    rw [sub32, add32_eq_zero_of_units nan ha hb' h, signBit_neg32]
  · rw [mul32_eq_of_isFinite nan ha hb]
    exact signBit_ofSignMag_roundMag _ _ _
  · rw [div32_eq_of_isFinite nan ha hb hz]
    exact signBit_ofSignMag_roundMag _ _ _
end

section
/-! Proofs of the family 10_state.md: what an instruction can leave, said once; the invariants of the stores, the
coefficients and SEQ; who writes each register; and what an access of the bus does to the state. -/

namespace Sys2Proof.Machine

/-! ## What an instruction leaves -/

/-- The micro-ops that rewrite the words of one channel of BUF, each from its own word. -/
def RewritesChannel (i : Instr) (c : Chan) : Prop :=
  i = .silence c ∨ i = .shape c ∨ i = .mix c ∨ i = .gain c

theorem RewritesChannel.isMicroOp {i : Instr} {c : Chan} (h : RewritesChannel i c) : i.isMicroOp = true := by
  rcases h with rfl | rfl | rfl | rfl <;> rfl

/-- What an instruction leaves, with the checks it has passed. -/
inductive ExecLeaves (s : State) : Instr → State → Prop where
  /-- A check failed: a command's own checks, or those of SNAP. -/
  | raised (i : Instr) (code : FaultCode) (detail : FaultDetail) (checks : i.isMicroOp = false ∨ ∃ p, i = .snap p) :
      ExecLeaves s i (s.raise code detail)
  | prepare (written : s.sampleRate ≠ none) :
      ExecLeaves s .prepare { s with busy := true, seq := sequenceWords prepareSequence }
  | processBlock (nin nout len : Nat) (prepared : s.mode = .prepared) (legal : Cur.legal ⟨nin, nout, len⟩)
      (written : unwrittenInput s.buf nin len = none) :
      ExecLeaves s (.processBlock nin nout len)
        { s with cur := ⟨nin, nout, len⟩, busy := true, seq := sequenceWords (blockSequence nin nout) }
  | endCommand : ExecLeaves s .endCommand (State.retire { s with busy := false })
  | rewritten (i : Instr) (c : Chan) (f : Nat → F32 → F32) (op : RewritesChannel i c) :
      ExecLeaves s i (s.mapBuf c f).retire
  | snap (p : Param) (v : F32) (written : s.param.get p = some v) (valid : inRange p v = true) :
      ExecLeaves s (.snap p) (State.retire { s with snap := s.snap.set p v })
  | dryCopy (c : Chan) :
      ExecLeaves s (.dryCopy c)
        (State.retire { s with dry := s.dry.mapWords (dryIndex c) (fun i _ => s.bufWord c i) s.cur.len })
  | updKept (k : Kind) (near : cutoffMoved (s.fp 0) (targetCutoff k s) (s.cached.get k) = false) :
      ExecLeaves s (.upd k) s.retire
  | updMoved (k : Kind) (moved : cutoffMoved (s.fp 0) (targetCutoff k s) (s.cached.get k) = true) :
      ExecLeaves s (.upd k)
        (State.retire
          { s with
            coef := s.coef.set k (Config.design k (targetCutoff k s) s.sr)
            cached := s.cached.set k (targetCutoff k s) })
  | run (k : Kind) (c : Chan) (r : Delay × Memory)
      (loop : filterLoop s.fp (s.coef.get k) (bufOffset c) (fun i => Config.unwrittenWord s.draws i 0)
        ((s.dly.get k).get c, s.buf) s.cur.len = r) :
      ExecLeaves s (.run k c) (State.retire { s with dly := s.dly.set k ((s.dly.get k).set c r.1), buf := r.2 })
  | gainCalc : ExecLeaves s .gainCalc (State.retire { s with glin := linearGain (s.fp 0) s.snap.outgain })
  | prep :
      ExecLeaves s .prep
        (State.retire
          { s with
            sr := latchedRate s
            coef := { lp := Config.design .lp twenty (latchedRate s), hp := Config.design .hp twenty (latchedRate s) }
            cached := { lp := twenty, hp := twenty }
            dly :=
              { lp := { ch0 := Delay.zero, ch1 := Delay.zero }, hp := { ch0 := Delay.zero, ch1 := Delay.zero } }
            mode := .prepared })

theorem execPrepare_leaves {s t : State} (h : execPrepare s = .next t) : ExecLeaves s .prepare t := by
  cases h
  split
  · exact .raised _ _ _ (.inl rfl)
  · next hwritten => exact .prepare (ne_of_eq_of_ne hwritten (by simp))

theorem execProcessBlock_leaves {nin nout len : Nat} {s t : State} (h : execProcessBlock nin nout len s = .next t) :
    ExecLeaves s (.processBlock nin nout len) t := by
  cases h
  dsimp only
  split
  · exact .raised _ _ _ (.inl rfl)
  · next hmode =>
    split
    · exact .raised _ _ _ (.inl rfl)
    · next hcount =>
      split
      · exact .raised _ _ _ (.inl rfl)
      · next hlen =>
        have hprepared : s.mode = .prepared := by cases h : s.mode <;> simp_all
        obtain ⟨hin, hout⟩ : legalChannelCount nin = true ∧ legalChannelCount nout = true := by simpa using hcount
        split
        · exact .raised _ _ _ (.inl rfl)
        · next hwritten => exact .processBlock nin nout len hprepared ⟨hin, hout, Nat.not_lt.1 hlen⟩ hwritten

theorem execSnap_leaves {p : Param} {s t : State} (h : execSnap p s = .next t) : ExecLeaves s (.snap p) t := by
  cases h
  cases hv : s.param.get p with
  | none => exact .raised _ _ _ (.inr ⟨p, rfl⟩)
  | some v =>
    dsimp only
    split
    · next hvalid => exact .snap p v hv hvalid
    · exact .raised _ _ _ (.inr ⟨p, rfl⟩)

theorem execUpd_leaves {k : Kind} {s t : State} (h : execUpd k s = .next t) : ExecLeaves s (.upd k) t := by
  cases h
  cases hm : cutoffMoved (s.fp 0) (targetCutoff k s) (s.cached.get k) with
  | false => simpa [hm] using ExecLeaves.updKept k hm
  | true => simpa [hm] using ExecLeaves.updMoved k hm

/-- Every instruction leaves one of these states. -/
theorem exec_leaves {i : Instr} {s t : State} (h : exec i s = .next t) : ExecLeaves s i t := by
  cases i with
  | prepare => exact execPrepare_leaves h
  | processBlock nin nout len => exact execProcessBlock_leaves h
  | snap p => exact execSnap_leaves h
  | upd k => exact execUpd_leaves h
  | endCommand => cases h; exact .endCommand
  | silence c => cases h; exact .rewritten _ c _ (.inl rfl)
  | dryCopy c => cases h; exact .dryCopy c
  | shape c => cases h; exact .rewritten _ c _ (.inr (.inl rfl))
  | run k c => cases h; exact .run k c _ rfl
  | mix c => cases h; exact .rewritten _ c _ (.inr (.inr (.inl rfl)))
  | gainCalc => cases h; exact .gainCalc
  | gain c => cases h; exact .rewritten _ c _ (.inr (.inr (.inr rfl)))
  | prep => cases h; exact .prep

/-! ## What a turn can leave -/

/-- The state at the start of a turn: the turn is taken, and the agent is the one whose turn it was. -/
abbrev State.onTurn (s : State) (rest : List Turn) (agent : Agent) : State := { s with turns := rest, actor := agent }

/-- An access without command reaches SAMPLE_RATE, PARAM, BUF and the record of a fault, and nothing internal (R46). -/
theorem AccessLeaves.eq_update {x : Access} {s t : State} (h : AccessLeaves x s t) :
    t =
      { s with
        fault := t.fault, sampleRate := t.sampleRate, param := t.param, buf := t.buf, busData := t.busData } := by
  cases h <;> rfl

theorem busTurn_inj {writer writer' : Bool} {x x' : Access} (h : busTurn writer x = busTurn writer' x') :
    writer = writer' ∧ x = x' := by
  cases writer <;> cases writer' <;> simp_all [busTurn]

theorem State.sequencerNext.ne_busTurn {s : State} {rest rest' : List Turn} {writer : Bool} {x : Access}
    (h : s.sequencerNext rest) : s.turns ≠ busTurn writer x :: rest' := by
  cases writer <;> obtain h | ⟨h, -⟩ := h <;> simp [h, busTurn]

/-- On the turn of an outside agent: an access without command, or one that writes CMD while BUSY = 0. -/
theorem step_busTurn_cases {s t : State} {writer : Bool} {x : Access} {rest : List Turn}
    (hn : s.turns = busTurn writer x :: rest) (h : step s = .next t) :
    AccessLeaves x (s.onTurn rest (busAgent writer)) t ∨
    ∃ w, s.busy = false ∧ target x.off = .cmd ∧ x.op = .write w := by
  cases step_takes h with
  | reset rest' turn _ => cases writer <;> simp [hn, busTurn] at turn
  | access writer' x' rest' _ turn leaves =>
    obtain ⟨hturn, rfl⟩ := List.cons.inj (hn.symm.trans turn)
    obtain ⟨rfl, rfl⟩ := busTurn_inj hturn
    exact .inl leaves
  | command writer' x' rest' w i _ idle turn _ there op _ _ =>
    obtain ⟨-, rfl⟩ := busTurn_inj (List.cons.inj (hn.symm.trans turn)).1
    exact .inr ⟨w, idle, there, op⟩
  | micro rest' u tl i _ _ turn _ _ _ => exact absurd hn turn.ne_busTurn
  | idle rest' _ _ turn _ => exact absurd hn turn.ne_busTurn

/-- On the sequencer's turn in the middle of a command: the head of SEQ runs. -/
theorem step_sequencer_busy {s t : State} {rest : List Turn} (hb : s.busy = true) (hf : s.fault = none)
    (hn : s.sequencerNext rest) (h : step s = .next t) :
    ∃ u tl i, s.seq = u :: tl ∧ decodeMicro u = .ok i ∧ exec i (s.onTurn rest .sequencer) = .next t := by
  cases step_takes h with
  | reset rest' turn _ => obtain hn | ⟨hn, -⟩ := hn <;> simp [hn] at turn
  | access writer x rest' _ turn _ => exact absurd turn hn.ne_busTurn
  | command writer x rest' _ _ _ _ turn _ _ _ _ _ => exact absurd turn hn.ne_busTurn
  | micro rest' u tl i _ _ _ head decodes _ =>
    exact ⟨u, tl, i, head, decodes, (step_of_micro hf hb hn head decodes).symm.trans h⟩
  | idle rest' _ idle _ _ => simp [hb] at idle

/-! ## Invariants that a step keeps -/

/-- What a reset establishes, and neither a turn taken nor a bus access nor an instruction breaks, every step
keeps. -/
theorem step_keeps {P : State → Prop} {s t : State} (h : step s = .next t)
    (reset : ∀ rest, s.turns = .reset :: rest → P (s.afterReset rest))
    (turn : ∀ rest agent, P (s.onTurn rest agent))
    (access : ∀ x u v, P u → AccessLeaves x u v → P v) (run : ∀ i u v, P u → ExecLeaves u i v → P v) : P t := by
  cases step_takes h with
  | reset rest next leaves => exact leaves ▸ reset rest next
  | access writer x rest _ _ leaves => exact access x _ t (turn _ _) leaves
  | command writer x rest w i _ _ _ _ _ _ _ runs => exact run i _ t (turn _ _) (exec_leaves runs)
  | micro rest u tl i _ _ _ _ _ runs => exact run i _ t (turn _ _) (exec_leaves runs)
  | idle rest _ _ _ leaves => exact leaves ▸ turn _ _

/-! ### Both stores stay canonical (R48) -/

theorem storesCanonical_access {x : Access} {s t : State} (hs : s.storesCanonical) (h : AccessLeaves x s t) :
    t.storesCanonical := by
  cases h with
  | sample c i v _ => exact ⟨Memory.wf_setWord hs.1 _ v, hs.2⟩
  | _ => exact hs

theorem storesCanonical_exec {i : Instr} {s t : State} (hs : s.storesCanonical) (h : ExecLeaves s i t) :
    t.storesCanonical := by
  cases h with
  | rewritten _ c f _ => exact ⟨State.buf_mapBuf_wf s c f hs.1, hs.2⟩
  | dryCopy c => exact ⟨hs.1, Memory.wf_mapWords hs.2 _⟩
  | run k c r loop => exact ⟨loop ▸ filterLoop_wf _ _ _ _ _ _ hs.1 _, hs.2⟩
  | _ => exact hs

/-! ### The coefficients stay those of the cached cutoff (R44) -/

theorem coefMatchesCutoff_exec {i : Instr} {s t : State} (hs : s.coefMatchesCutoff) (h : ExecLeaves s i t) :
    t.coefMatchesCutoff := by
  cases h with
  | updMoved k _ =>
    intro hmode k'
    by_cases hk : k' = k
    · subst hk
      simp
    · simpa [PerKind.get_set_ne _ _ hk] using hs hmode k'
  | prep => rintro - (_ | _) <;> rfl
  | _ => exact hs

/-! ### The mode and the context -/

theorem prepared_exec {i : Instr} {s t : State} (hs : s.mode = .prepared) (h : ExecLeaves s i t) :
    t.mode = .prepared := by
  cases h with
  | prep => rfl
  | _ => exact hs

theorem legal_exec {i : Instr} {s t : State} (hs : s.cur.legal) (h : ExecLeaves s i t) : t.cur.legal := by
  cases h with
  | processBlock nin nout len _ legal _ => exact legal
  | _ => exact hs

/-! ### SEQ stays a rest of its command's sequence -/

/-- The words of a sequence that ends a command: END is its last word and no other. -/
def EndsWithEnd (ws : List MicroWord) : Prop := ws = ws.dropLast ++ [0x00#8] ∧ 0x00#8 ∉ ws.dropLast

theorem endsWithEnd_prepareSequence : EndsWithEnd (sequenceWords prepareSequence) :=
  ⟨by decide, by decide⟩

theorem legalChannelCount_iff {n : Nat} : legalChannelCount n = true ↔ n = 1 ∨ n = 2 := by simp [legalChannelCount]

theorem endsWithEnd_blockSequence {nin nout : Nat} (hin : legalChannelCount nin = true)
    (hout : legalChannelCount nout = true) : EndsWithEnd (sequenceWords (blockSequence nin nout)) := by
  rcases legalChannelCount_iff.1 hin with rfl | rfl <;> rcases legalChannelCount_iff.1 hout with rfl | rfl <;>
    exact ⟨by decide, by decide⟩

/-- The head of a rest of such a sequence is END exactly when nothing comes after it. -/
theorem EndsWithEnd.head_eq_iff {ws tl : List MicroWord} {u : MicroWord} (h : EndsWithEnd ws) (hs : u :: tl <:+ ws) :
    u = 0x00#8 ↔ tl = [] := by
  obtain ⟨hws, hbody⟩ := h
  rw [hws] at hs
  obtain h | ⟨q, h, hq⟩ := List.suffix_concat_iff.1 hs
  · cases h
  · cases q with
    | nil =>
      obtain ⟨rfl, rfl⟩ := List.cons.inj h
      simp
    | cons v q =>
      obtain ⟨rfl, rfl⟩ := List.cons.inj h
      have hne : u ≠ 0x00#8 := fun e => hbody (e ▸ hq.subset List.mem_cons_self)
      simp [hne]

theorem EndsWithEnd.ne_nil {ws : List MicroWord} (h : EndsWithEnd ws) : ws ≠ [] := by
  rw [h.1]
  simp

/-- What a micro-op does to the control state: a SNAP that raises leaves it, and any other removes the head of SEQ
and keeps BUSY and CUR, but for END, which clears BUSY. -/
theorem exec_micro_control {i : Instr} {s t : State} (hm : i.isMicroOp = true) (h : exec i s = .next t) :
    t.cur = s.cur ∧
    ((t.seq = s.seq ∧ t.busy = s.busy) ∨
      (t.seq = s.seq.tail ∧ t.busy = (s.busy && decide (i ≠ .endCommand)))) := by
  cases exec_leaves h with
  | raised _ code detail _ => exact ⟨rfl, .inl ⟨rfl, rfl⟩⟩
  | prepare => cases hm
  | processBlock => cases hm
  | endCommand => exact ⟨rfl, .inr ⟨rfl, by simp⟩⟩
  | rewritten _ c f op =>
    have hne : i ≠ .endCommand := by rcases op with rfl | rfl | rfl | rfl <;> simp
    exact ⟨rfl, .inr ⟨rfl, by simp [hne]⟩⟩
  | _ => exact ⟨rfl, .inr ⟨rfl, by simp⟩⟩

/-- A command word is PREPARE or a PROCESS_BLOCK. -/
theorem decodeCommand_ok {w : Word} {i : Instr} (h : decodeCommand w = .ok i) :
    i = .prepare ∨ ∃ nin nout len, i = .processBlock nin nout len := by
  unfold decodeCommand at h
  split at h
  · exact .inl (Except.ok.inj h).symm
  · split at h
    · exact .inr ⟨_, _, _, (Except.ok.inj h).symm⟩
    · cases h

/-- In the middle of a command SEQ is a nonempty rest of a sequence that ends with its END, and every rest of that
sequence is a rest of the command. -/
theorem State.seqInProgress.sequence {s : State} (h : s.seqInProgress) (hb : s.busy = true) :
    ∃ ws, EndsWithEnd ws ∧ s.seq <:+ ws ∧
      ∀ t : State, t.cur = s.cur → t.busy = true → t.seq ≠ [] → t.seq <:+ ws → t.seqInProgress := by
  obtain ⟨hb', -⟩ | ⟨-, -, hs | ⟨hl, hs⟩⟩ := h
  · rw [hb] at hb'
    cases hb'
  · exact ⟨_, endsWithEnd_prepareSequence, hs, fun t _ htb hne ht => .inr ⟨htb, hne, .inl ht⟩⟩
  · refine ⟨_, endsWithEnd_blockSequence hl.1 hl.2.1, hs, fun t hc htb hne ht => .inr ⟨htb, hne, .inr ?_⟩⟩
    rw [hc]
    exact ⟨hl, ht⟩

theorem seqInProgress_micro {s t : State} {u : MicroWord} {tl : List MicroWord} {i : Instr} (hs : s.seqInProgress)
    (hb : s.busy = true) (hu : s.seq = u :: tl) (hd : decodeMicro u = .ok i) (h : exec i s = .next t) :
    t.seqInProgress := by
  obtain ⟨ws, hws, hsuf, rest⟩ := hs.sequence hb
  obtain ⟨hm, hend⟩ := decodeMicro_ok hd
  obtain ⟨hcur, ⟨hseq, hbusy⟩ | ⟨hseq, hbusy⟩⟩ := exec_micro_control hm h
  · exact rest t hcur (hbusy.trans hb) (by simp [hseq, hu]) (hseq ▸ hsuf)
  · rw [hu, List.tail_cons] at hseq
    rw [hu] at hsuf
    have hlast : i = .endCommand ↔ tl = [] := hend.trans (hws.head_eq_iff hsuf)
    by_cases htl : tl = []
    · exact .inl ⟨by simp [hbusy, hlast.2 htl], hseq.trans htl⟩
    · refine rest t hcur ?_ (hseq ▸ htl) (hseq ▸ (List.suffix_cons u tl).trans hsuf)
      simp [hbusy, hb, mt hlast.1 htl]

theorem seqInProgress_command {s t : State} {w : Word} {i : Instr} (hs : s.seqInProgress) (hd : decodeCommand w = .ok i)
    (h : exec i s = .next t) : t.seqInProgress := by
  obtain rfl | ⟨nin, nout, len, rfl⟩ := decodeCommand_ok hd
  · cases exec_leaves h with
    | raised => exact hs
    | prepare _ => exact .inr ⟨rfl, endsWithEnd_prepareSequence.ne_nil, .inl List.suffix_rfl⟩
    | rewritten _ _ _ op => cases op.isMicroOp
  · cases exec_leaves h with
    | raised => exact hs
    | processBlock _ _ _ _ legal _ =>
      exact .inr ⟨rfl, (endsWithEnd_blockSequence legal.1 legal.2.1).ne_nil, .inr ⟨legal, List.suffix_rfl⟩⟩
    | rewritten _ _ _ op => cases op.isMicroOp

theorem seqInProgress_step {s t : State} (hs : s.seqInProgress) (h : step s = .next t) : t.seqInProgress := by
  have turn : ∀ rest agent, (s.onTurn rest agent).seqInProgress := fun _ _ => hs
  cases step_takes h with
  | reset rest _ leaves => exact leaves ▸ .inl ⟨rfl, rfl⟩
  | access writer x rest _ _ leaves => rw [leaves.eq_update]; exact turn rest (busAgent writer)
  | command writer x rest w i _ _ _ _ _ _ decodes runs => exact seqInProgress_command (turn _ _) decodes runs
  | micro rest u tl i _ busy _ head decodes runs =>
    exact seqInProgress_micro (turn rest .sequencer) busy head decodes runs
  | idle rest _ _ _ leaves => exact leaves ▸ turn _ _

/-! ## The step of an outside agent, by what its access names -/

/-- Only offset 0x000 names CMD. -/
theorem eq_zero_of_target_cmd {off : BitVec 17} (h : target off = .cmd) : off = 0x000#17 := by
  unfold target at h
  split at h
  · cases h
  · apply BitVec.eq_of_toNat_eq
    unfold registerTarget at h
    split at h <;> first | assumption | cases h

section
variable {s : State} {writer : Bool} {off : BitVec 17} {rest : List Turn}

/-- A read that passes the checks returns what the offset names. -/
theorem step_of_read (hf : s.fault = none)
    (hn : s.turns = busTurn writer { width := 32, off := off, op := .read } :: rest)
    (ha : Access.accepted { width := 32, off := off, op := .read } = true)
    (hb : s.busy = true → allowedWhileBusy (target off) false = true) :
    step s = .next (busRead { width := 32, off := off, op := .read } (s.onTurn rest (busAgent writer))) :=
  step_of_done hf hn (busAccess_read ha rfl hb)

/-- A write that passes the checks and issues no command stores its word. -/
theorem step_of_write {v : Word} {t : State} (hf : s.fault = none)
    (hn : s.turns = busTurn writer { width := 32, off := off, op := .write v } :: rest)
    (ha : Access.accepted { width := 32, off := off, op := .write v } = true)
    (hb : s.busy = true → allowedWhileBusy (target off) true = true)
    (hw : busWrite { width := 32, off := off, op := .write v } v (s.onTurn rest (busAgent writer)) = .done t) :
    step s = .next t :=
  step_of_done hf hn ((busAccess_write (s := s.onTurn rest (busAgent writer)) ha rfl hb).trans hw)

/-- An access that raises a fault and does nothing else. -/
theorem step_of_raise {x : Access} {code : FaultCode} {detail : FaultDetail} (hf : s.fault = none)
    (hn : s.turns = busTurn writer x :: rest)
    (h : busAccess x (s.onTurn rest (busAgent writer)) =
      .done (State.raise code detail (s.onTurn rest (busAgent writer)))) :
    step s = .next
      { s with
        turns := rest, actor := busAgent writer,
        fault := some { code := code, agent := busAgent writer, detail := detail } } :=
  (step_of_done hf hn h).trans (congrArg _ (State.raise_of_none (s := s.onTurn rest (busAgent writer)) hf code detail))

end

/-- A tagged word that is written is returned, and one that is not raises UNWRITTEN_READ with the offset (R27). -/
theorem readTagged_eq {s : State} (hf : s.fault = none) (off : BitVec 17) (held : Option Word) :
    (∀ v, held = some v → s.readTagged off held = { s with busData := some v }) ∧
    (held = none → s.readTagged off held =
      { s with fault := some { code := .unwrittenRead, agent := s.actor, detail := .offset off.toNat } }) := by
  refine ⟨fun v hv => ?_, fun hv => ?_⟩ <;> rw [hv]
  · rfl
  · exact State.raise_of_none hf _ _

/-- Every access of 32 bits to a PARAM register passes the checks. -/
theorem accepted_param (p : Param) (op : BusOp) :
    Access.accepted { width := 32, off := BitVec.ofNat 17 (0x010 + 4 * p.index), op := op } = true := by
  cases p <;> exact accepted_of _ (by decide) (by decide) (by decide)

/-- A tagged word an agent may read: its offset passes the checks and the read is that of the word. -/
structure TaggedWord (s : State) (off : BitVec 17) (held : Option Word) : Prop where
  accepted : Access.accepted { width := 32, off := off, op := .read } = true
  allowed : s.busy = true → allowedWhileBusy (target off) false = true
  read : ∀ rest agent, busRead { width := 32, off := off, op := .read } (s.onTurn rest agent) =
    State.readTagged (s.onTurn rest agent) off held

theorem taggedWord_sampleRate (s : State) : TaggedWord s 0x008#17 s.sampleRate :=
  ⟨by decide, fun _ => by decide, fun _ _ => by simp [busRead, target_sampleRate]⟩

theorem taggedWord_param (s : State) (p : Param) :
    TaggedWord s (BitVec.ofNat 17 (0x010 + 4 * p.index)) (s.param.get p) :=
  ⟨accepted_param p _, fun _ => by rw [target_param]; rfl, fun _ _ => by simp only [busRead, target_param]⟩

theorem taggedWord_sample {s : State} {off : BitVec 17} {c : Chan} {i : Nat} (hidle : s.busy = false) (hi : i < 8192)
    (hoff : off.toNat = 0x10000 + 0x8000 * c.index + 4 * i) : TaggedWord s off (s.buf.word? (bufOffset c i)) :=
  ⟨accepted_of _ (by omega) (by omega) (by omega), fun hb => by simp [hidle] at hb,
    fun _ _ => by simp only [busRead, target_sample hi hoff]⟩

/-- The bits of STATUS (R23). -/
theorem statusWord_bits (s : State) :
    (statusWord s).getLsbD 0 = decide (s.mode = .prepared) ∧ (statusWord s).getLsbD 1 = s.busy ∧
    (statusWord s).extractLsb' 2 30 = 0#30 := by
  have bits : ∀ busy prepared : Bool,
      (0#30 ++ BitVec.ofBool busy ++ BitVec.ofBool prepared).getLsbD 0 = prepared ∧
      (0#30 ++ BitVec.ofBool busy ++ BitVec.ofBool prepared).getLsbD 1 = busy ∧
      (0#30 ++ BitVec.ofBool busy ++ BitVec.ofBool prepared).extractLsb' 2 30 = 0#30 := by decide
  exact bits (busyBit s) (preparedBit s)

/-! ## RUN works on its own channel -/

/-- What RUN leaves on its channel: the recursion from the delay memory and the words it found. -/
theorem run_recursion {s t : State} {k : Kind} {c : Chan} (h : exec (.run k c) s = .next t) :
    (t.dly.get k).get c = delayAfter s.fp (s.coef.get k) (s.bufWord c) ((s.dly.get k).get c) s.cur.len ∧
    ∀ i, i < s.cur.len → t.buf.word? (bufOffset c i) =
      some (filterOutput s.fp (s.coef.get k) (s.bufWord c) ((s.dly.get k).get c) i) := by
  cases h
  refine ⟨?_, fun i hi => filterLoop_word? _ _ _ _ _ _ (bufOffset_spaced c) hi⟩
  simp only [State.dly_retire, PerKind.get_set_self, PerChan.get_set_self]
  exact filterLoop_delay _ _ _ _ _ _ (bufOffset_spaced c) _

/-- The free values of two states with the same draw counter agree. -/
theorem State.fp_congr {s s' : State} (h : s'.draws = s.draws) : s'.fp = s.fp := by
  funext i
  rw [State.fp, State.fp, h]

theorem State.bufWord_congr {s s' : State} {c : Chan} {i : Nat} (hd : s'.draws = s.draws)
    (h : s'.buf.word? (bufOffset c i) = s.buf.word? (bufOffset c i)) : s'.bufWord c i = s.bufWord c i := by
  rw [State.bufWord, State.bufWord, h, hd]

/-- RUN depends on the words of its channel, its coefficients and its delay memory only. -/
theorem run_congr {s s' t t' : State} {k : Kind} {c : Chan} (h : exec (.run k c) s = .next t)
    (h' : exec (.run k c) s' = .next t') (hlen : s'.cur.len = s.cur.len) (hdraws : s'.draws = s.draws)
    (hcoef : s'.coef.get k = s.coef.get k) (hdly : (s'.dly.get k).get c = (s.dly.get k).get c)
    (hbuf : ∀ i, i < s.cur.len → s'.buf.word? (bufOffset c i) = s.buf.word? (bufOffset c i)) :
    (t'.dly.get k).get c = (t.dly.get k).get c ∧
    ∀ i, i < s.cur.len → t'.buf.word? (bufOffset c i) = t.buf.word? (bufOffset c i) := by
  obtain ⟨hd, hw⟩ := run_recursion h
  obtain ⟨hd', hw'⟩ := run_recursion h'
  have input : ∀ i, i < s.cur.len → s'.bufWord c i = s.bufWord c i := fun i hi =>
    State.bufWord_congr hdraws (hbuf i hi)
  rw [hlen, State.fp_congr hdraws, hcoef, hdly] at hd' hw'
  refine ⟨?_, fun i hi => ?_⟩
  · rw [hd', hd, delayAfter_congr input]
  · rw [hw' i hi, hw i hi, filterOutput_congr fun j hj => input j (hj.trans_lt hi)]

/-! ## A micro-op neither changes nor reads BUF outside its channel -/

/-- The channel a micro-op works on. -/
def channelOf : Instr → Option Chan
  | .silence c | .dryCopy c | .shape c | .run _ c | .mix c | .gain c => some c
  | .prepare | .processBlock _ _ _ | .endCommand | .snap _ | .upd _ | .gainCalc | .prep => none

theorem RewritesChannel.channelOf {i : Instr} {c : Chan} (h : RewritesChannel i c) : c ∈ channelOf i := by
  rcases h with rfl | rfl | rfl | rfl <;> rfl

/-- A byte outside the block's words on the instruction's channel keeps its value. -/
theorem byte?_exec_of_outside {i : Instr} {s t : State} {a : Nat} (h : exec i s = .next t)
    (ha : ∀ c ∈ channelOf i, ∀ j, j < s.cur.len → a < bufOffset c j ∨ bufOffset c j + 4 ≤ a) :
    t.buf.byte? a = s.buf.byte? a := by
  cases exec_leaves h with
  | rewritten _ c f op => exact State.byte?_mapBuf_of_outside s c f (ha c op.channelOf)
  | run k c r loop => exact loop ▸ filterLoop_byte?_of_outside _ _ _ _ _ _ (ha c rfl)
  | _ => rfl

/-- A word of the block on another channel keeps its value and its written tag. -/
theorem word?_exec_of_other {i : Instr} {s t : State} {c : Chan} {j : Nat} (h : exec i s = .next t)
    (hc : c ∉ channelOf i) (hlen : ∀ c' ∈ channelOf i, s.cur.len ≤ maxBlockLen) (hj : j < s.cur.len) :
    t.buf.word? (bufOffset c j) = s.buf.word? (bufOffset c j) :=
  Memory.word?_congr fun a h1 h2 => byte?_exec_of_outside h fun c' hc' j' hj' => by
    have hl := hlen c' hc'
    have hne : c' ≠ c := fun e => hc (e ▸ hc')
    have := bufOffset_disjoint hne (hj'.trans_le hl) (hj.trans_le hl)
    omega

/-- Rewriting a channel leaves the same words there from any BUF with the same words there. -/
theorem word?_mapBuf_congr {s : State} {other : Memory} {c : Chan} {f : Nat → F32 → F32} {j : Nat}
    (hj : j < s.cur.len) (same : other.word? (bufOffset c j) = s.buf.word? (bufOffset c j)) :
    (State.mapBuf { s with buf := other } c f).buf.word? (bufOffset c j) =
      (s.mapBuf c f).buf.word? (bufOffset c j) := by
  rw [State.word?_mapBuf s c f hj, State.word?_mapBuf { s with buf := other } c f hj]
  exact congrArg (fun x => some (f j x)) (State.bufWord_congr rfl same)

/-- From another BUF with the same words on its channel a micro-op leaves the same state but for BUF, and the same
words on its channel. -/
theorem exec_of_otherBuf {i : Instr} {s t : State} {other : Memory} (hm : i.isMicroOp = true) (h : exec i s = .next t)
    (same : ∀ c ∈ channelOf i, ∀ j, j < s.cur.len → other.word? (bufOffset c j) = s.buf.word? (bufOffset c j)) :
    ∃ t', exec i { s with buf := other } = .next t' ∧ t' = { t with buf := t'.buf } ∧
      ∀ c ∈ channelOf i, ∀ j, j < s.cur.len → t'.buf.word? (bufOffset c j) = t.buf.word? (bufOffset c j) := by
  have rewrites : ∀ {c : Chan} (f : Nat → F32 → F32), c ∈ channelOf i →
      ∀ c' ∈ some c, ∀ j, j < s.cur.len →
        (State.mapBuf { s with buf := other } c f).retire.buf.word? (bufOffset c' j) =
          (s.mapBuf c f).retire.buf.word? (bufOffset c' j) := by
    rintro c f hc _ ⟨⟩ j hj
    exact word?_mapBuf_congr hj (same c hc j hj)
  cases i with
  | prepare => cases hm
  | processBlock => cases hm
  | silence c => cases h; exact ⟨_, rfl, rfl, rewrites _ rfl⟩
  | shape c => cases h; exact ⟨_, rfl, rfl, rewrites _ rfl⟩
  | mix c => cases h; exact ⟨_, rfl, rfl, rewrites _ rfl⟩
  | gain c => cases h; exact ⟨_, rfl, rfl, rewrites _ rfl⟩
  | endCommand => cases h; exact ⟨_, rfl, rfl, nofun⟩
  | upd k => cases h; exact ⟨_, rfl, rfl, nofun⟩
  | gainCalc => cases h; exact ⟨_, rfl, rfl, nofun⟩
  | prep => cases h; exact ⟨_, rfl, rfl, nofun⟩
  | snap p =>
    cases h
    refine ⟨_, rfl, ?_, nofun⟩
    dsimp only
    cases s.param.get p with
    | none => rfl
    | some v => dsimp only; split <;> rfl
  | dryCopy c =>
    have hcopied : s.dry.mapWords (dryIndex c) (fun j _ => State.bufWord { s with buf := other } c j) s.cur.len =
        s.dry.mapWords (dryIndex c) (fun j _ => s.bufWord c j) s.cur.len :=
      Memory.mapWords_congr fun j _ hj => State.bufWord_congr rfl (same c rfl j hj)
    cases h
    refine ⟨_, rfl, ?_, ?_⟩
    · simp only [hcopied]
      rfl
    · rintro _ ⟨⟩ j hj
      exact same c rfl j hj
  | run k c =>
    obtain ⟨t', h'⟩ := exec_next (.run k c) { s with buf := other }
    obtain ⟨hdly, hbuf⟩ := run_congr h h' rfl rfl rfl rfl (same c rfl)
    refine ⟨t', h', ?_, ?_⟩
    · cases h
      cases h'
      simp only [State.dly_retire, PerKind.get_set_self, PerChan.get_set_self] at hdly
      simp only [hdly]
      rfl
    · rintro _ ⟨⟩
      exact hbuf

/-! ### The micro-ops of a block stay on its channels -/

theorem mem_of_decodeMicro {is : List Instr} {u : MicroWord} {i : Instr} (his : ∀ j ∈ is, j.isMicroOp = true)
    (hu : u ∈ sequenceWords is) (hd : decodeMicro u = .ok i) : i ∈ is := by
  obtain ⟨j, hj, rfl⟩ := List.mem_map.1 hu
  rw [decodeMicro_seqWord (his j hj)] at hd
  exact Except.ok.inj hd ▸ hj

/-- R83: the micro-ops of a block are on the channels below B = max(NIN, NOUT). -/
theorem blockSequence_channels {nin nout : Nat} (hin : legalChannelCount nin = true)
    (hout : legalChannelCount nout = true) :
    ∀ i ∈ blockSequence nin nout, i.isMicroOp = true ∧ ∀ c ∈ channelOf i, c.index < max nin nout := by
  rcases legalChannelCount_iff.1 hin with rfl | rfl <;> rcases legalChannelCount_iff.1 hout with rfl | rfl <;> decide

/-- PREPARE's micro-ops are on no channel. -/
theorem prepareSequence_channels : ∀ i ∈ prepareSequence, i.isMicroOp = true ∧ channelOf i = none := by decide

/-- A micro-op with a channel is one of a block in progress, on a channel of it. -/
theorem State.seqInProgress.channel_lt {s : State} {u : MicroWord} {tl : List MicroWord} {i : Instr} {c : Chan}
    (h : s.seqInProgress) (hu : s.seq = u :: tl) (hd : decodeMicro u = .ok i) (hc : c ∈ channelOf i) :
    c.index < max s.cur.nin s.cur.nout ∧ s.cur.len ≤ maxBlockLen := by
  have hmem : u ∈ s.seq := by simp [hu]
  obtain ⟨-, hs⟩ | ⟨-, -, hs | ⟨⟨hin, hout, hlen⟩, hs⟩⟩ := h
  · simp [hs] at hmem
  · have := prepareSequence_channels i
      (mem_of_decodeMicro (fun j hj => (prepareSequence_channels j hj).1) (hs.subset hmem) hd)
    simp [this] at hc
  · have ops := blockSequence_channels hin hout
    exact ⟨(ops i (mem_of_decodeMicro (fun j hj => (ops j hj).1) (hs.subset hmem) hd)).2 c hc, hlen⟩

end Sys2Proof.Machine

open Sys2Proof Sys2Proof.Machine

/-- Settles O52: only a sample write, a micro-op on BUF and DRYCOPY touch the stores, and each writes words one
after the other. -/
theorem stepKeepsStoresCanonical : Obligations.StepKeepsStoresCanonical := fun _ _ hs h =>
  step_keeps h (reset := fun _ _ => ⟨.nil, .nil⟩) (turn := fun _ _ => hs)
    (access := fun _ _ _ => storesCanonical_access) (run := fun _ _ _ => storesCanonical_exec)

/-- Settles O53: PREP designs both kinds at 20.0, and UPD writes COEF[k] and CACHED[k] together. -/
theorem stepKeepsCoefficientsMatchingCutoff : Obligations.StepKeepsCoefficientsMatchingCutoff := fun _ _ hs h =>
  step_keeps h (reset := fun _ _ hmode => by cases hmode) (turn := fun _ _ => hs)
    (access := fun _ _ _ hu leaves => by rw [leaves.eq_update]; exact hu)
    (run := fun _ _ _ => coefMatchesCutoff_exec)

/-- Settles O54: a micro-op takes the head off SEQ, END is the last word of every sequence and no other, and only a
PROCESS_BLOCK whose checks passed writes CUR. -/
theorem stepKeepsSequenceInProgress : Obligations.StepKeepsSequenceInProgress := fun _ _ h =>
  ⟨fun hs => seqInProgress_step hs h, fun noReset hl =>
    step_keeps (P := fun u => u.cur.legal) h (reset := fun rest next => absurd next (noReset rest))
      (turn := fun _ _ => hl) (access := fun _ _ _ hu leaves => by rw [leaves.eq_update]; exact hu)
      (run := fun _ _ _ => legal_exec)⟩

/-- Settles O14: each of the three reads passes the checks and is that of a tagged word. -/
theorem taggedReadReturnsWordOrFaults : Obligations.TaggedReadReturnsWordOrFaults := by
  intro s writer off rest held hf hn hword
  have tagged : TaggedWord s off held := by
    obtain ⟨rfl, rfl⟩ | ⟨p, hp, rfl⟩ | ⟨hidle, c, i, hi, hoff, rfl⟩ := hword
    · exact taggedWord_sampleRate s
    · obtain rfl : off = BitVec.ofNat 17 (0x010 + 4 * p.index) := by simp [← hp]
      exact taggedWord_param s p
    · exact taggedWord_sample hidle hi hoff
  rw [step_of_read hf hn tagged.accepted tagged.allowed, tagged.read]
  obtain ⟨returned, raised⟩ := readTagged_eq (s := s.onTurn rest (busAgent writer)) hf off held
  exact ⟨fun v hv => congrArg _ (returned v hv), fun hv => congrArg _ (raised hv)⟩

/-- Settles O32: the recursion of RUN reads its own channel only, and the free values are drawn by the same
counter. -/
theorem runKeepsChannelsApart : Obligations.RunKeepsChannelsApart := fun _ _ _ _ _ _ => run_congr

/-- Settles O44, from the states an instruction can leave. -/
theorem eachRegisterHasItsWriters : Obligations.EachRegisterHasItsWriters := by
  intro i s t h
  cases exec_leaves h with
  | rewritten _ c f op =>
    have hop : ∃ c, i = .silence c ∨ i = .shape c ∨ (∃ k, i = .run k c) ∨ i = .mix c ∨ i = .gain c := by
      rcases op with rfl | rfl | rfl | rfl <;> exact ⟨c, by simp⟩
    simp [hop]
  | _ => simp

/-- Settles O45: an instruction either leaves MODE or sets it to Prepared. -/
theorem onlyResetUnprepares : Obligations.OnlyResetUnprepares := by
  intro s t h hmode
  by_cases hreset : ∃ rest, s.turns = .reset :: rest
  · exact .inr hreset
  · exact .inl (step_keeps (P := fun u => u.mode = .prepared) h
      (reset := fun rest next => absurd ⟨rest, next⟩ hreset)
      (turn := fun _ _ => hmode) (access := fun _ _ _ hu leaves => by rw [leaves.eq_update]; exact hu)
      (run := fun _ _ _ => prepared_exec))

/-- Settles O46: what an access without a command can leave, and only a write to CMD while idle issues one. -/
theorem busAccessLeavesInternalStateAlone : Obligations.BusAccessLeavesInternalStateAlone := by
  intro s t writer x rest hn hx h
  obtain leaves | ⟨w, hidle, hcmd, hwrite⟩ := step_busTurn_cases hn h
  · rw [leaves.eq_update]
    exact ⟨rfl, rfl, rfl, rfl, rfl, rfl, rfl, rfl, rfl, rfl, rfl⟩
  · obtain hoff | hread | hbusy := hx
    · exact absurd (eq_zero_of_target_cmd hcmd) hoff
    · simp [hwrite] at hread
    · simp [hidle] at hbusy

/-- Settles O49: a micro-op writes and reads BUF on its own channel only, and the channels of a block's micro-ops are
those of the block. -/
theorem wordsOutsideBlockKeepTheirBytes : Obligations.WordsOutsideBlockKeepTheirBytes := by
  refine ⟨fun i s t a _ h ha => byte?_exec_of_outside h fun c _ => ha c, ?_⟩
  intro s t rest hseq hb hf hn hstep
  obtain ⟨u, tl, i, hu, hd, h⟩ := step_sequencer_busy hb hf hn hstep
  have onBlock : ∀ c ∈ channelOf i, c.index < max s.cur.nin s.cur.nout ∧ s.cur.len ≤ maxBlockLen := fun c hc =>
    hseq.channel_lt hu hd hc
  have outside : ∀ a, (∀ (c : Chan) (j : Nat), c.index < max s.cur.nin s.cur.nout → j < s.cur.len →
      a < bufOffset c j ∨ bufOffset c j + 4 ≤ a) → t.buf.byte? a = s.buf.byte? a := fun a ha =>
    byte?_exec_of_outside (s := s.onTurn rest .sequencer) h fun c hc j => ha c j (onBlock c hc).1
  refine ⟨outside, fun other same => ?_⟩
  obtain ⟨t', h', hframe, hwords⟩ := exec_of_otherBuf (s := s.onTurn rest .sequencer) (decodeMicro_ok hd).1 h
    fun c hc j => same c j (onBlock c hc).1
  refine ⟨t', (step_of_micro (s := { s with buf := other }) hf hb hn hu hd).trans h', hframe, fun c j hc hj => ?_⟩
  by_cases hci : c ∈ channelOf i
  · exact hwords c hci j hj
  · have hlen : ∀ c' ∈ channelOf i, s.cur.len ≤ maxBlockLen := fun c' hc' => (onBlock c' hc').2
    rw [word?_exec_of_other (s := State.onTurn { s with buf := other } rest .sequencer) h' hci hlen hj,
      word?_exec_of_other (s := s.onTurn rest .sequencer) h hci hlen hj]
    exact same c j hc hj

/-- Settles O7: an idle write to CMD passes every check and issues its word; a read of CMD is allowed in any state. -/
theorem stepRunsIssuedCommand : Obligations.StepRunsIssuedCommand := by
  intro s writer rest hf
  refine ⟨fun w hidle hn => ?_, fun hn => ?_⟩
  · have hissue : busAccess { width := 32, off := 0x000#17, op := .write w } (s.onTurn rest (busAgent writer)) =
        .issue w (s.onTurn rest (busAgent writer)) := by
      rw [busAccess_write (v := w) (accepted_of _ (by decide) (by decide) (by decide)) rfl (by simp [hidle])]
      simp only [busWrite, target_cmd]
    rw [step_of_issue hf hn hissue]
    refine ⟨fun i hd => by rw [hd], fun e hd => ?_⟩
    rw [hd]
    exact congrArg _ (State.raise_of_none (s := s.onTurn rest (busAgent writer)) hf _ _)
  · rw [step_of_read hf hn (by decide) fun _ => by decide]
    simp only [busRead, target_cmd]
    rfl

/-- Settles O13: STATUS is read in any state, and its write fails the BUSY check of R157 before its own. -/
theorem statusShowsPreparedAndBusy : Obligations.StatusShowsPreparedAndBusy := by
  intro s writer rest hf
  refine ⟨fun hn => ⟨statusWord s, ?_, statusWord_bits s⟩, fun v hn => ?_⟩
  · rw [step_of_read hf hn (by decide) fun _ => by decide]
    simp only [busRead, target_status]
    rfl
  · have ha : Access.accepted { width := 32, off := 0x004#17, op := .write v } = true :=
      accepted_of _ (by decide) (by decide) (by decide)
    rcases Bool.eq_false_or_eq_true s.busy with hb | hb
    · rw [step_of_raise hf hn (busAccess_busy ha hb (by rw [target_status]; rfl)), if_pos hb, if_pos hb]
      rfl
    · have refused : busAccess { width := 32, off := 0x004#17, op := .write v } (s.onTurn rest (busAgent writer)) =
          .done (State.raise .busAccess (.bus 0x004 32 true) (s.onTurn rest (busAgent writer))) := by
        rw [busAccess_write ha rfl (by simp [hb])]
        simp only [busWrite, target_status]
        rfl
      rw [step_of_raise hf hn refused, if_neg (by simp [hb]), if_neg (by simp [hb])]

/-- Settles O16: a PARAM register may be written while BUSY, SAMPLE_RATE only while idle (R176). -/
theorem registerWriteStoresWord : Obligations.RegisterWriteStoresWord := by
  intro s writer v rest hf
  refine ⟨fun hidle hn => ?_, fun p hn => ?_⟩
  · refine step_of_write hf hn (accepted_of _ (by decide) (by decide) (by decide)) (by simp [hidle]) ?_
    simp only [busWrite, target_sampleRate]
  · refine ⟨{ s with turns := rest, actor := busAgent writer, param := s.param.set p (some v) }, ?_, rfl,
      PerParam.get_set_self _ _ _, fun p' hp' => PerParam.get_set_ne _ _ hp'⟩
    refine step_of_write hf hn (accepted_param p _) (fun _ => by rw [target_param]; rfl) ?_
    simp only [busWrite, target_param]

/-- Settles O56: R171 gives the fields of the invariants their values, and the rest of them speak of a prepared or
busy machine. -/
theorem resetMeetsInvariants : Obligations.ResetMeetsInvariants := by
  refine ⟨?_, ⟨rfl, rfl, rfl, rfl, rfl, fun p => by cases p <;> rfl, rfl, rfl⟩, ⟨rfl, rfl, by decide⟩,
    fun p => by cases p <;> decide⟩
  rintro s ⟨hmode, hbusy, hseq, -, -, -, hbuf, hdry⟩
  have unprepared : s.mode ≠ .prepared := by simp [hmode]
  refine ⟨⟨?_, ?_⟩, fun h => absurd h unprepared, .inl ⟨hbusy, hseq⟩, fun h => absurd h unprepared, ?_⟩
  · rw [hbuf]; exact .nil
  · rw [hdry]; exact .nil
  · intro h
    rw [hbusy] at h
    cases h
end

section
/-! Proofs of the family 20_memory.md: the window as an interval of bus addresses, the access that fails the checks,
the bytes of a stored sample word, and who may change BUF on whose turn. -/

namespace Sys2Proof.Machine

/-! ## The window (R50) -/

/-- BASE is its index times the size of the window. -/
theorem base_toNat : Config.base.toNat = 0x20000 * Config.baseIndex.toNat := by
  unfold Config.base
  rw [BitVec.toNat_append]
  simp [Nat.shiftLeft_eq, Nat.mul_comm]

/-- The window a bus address lies in. -/
theorem windowIndex_toNat (addr : BitVec 32) : (addr.extractLsb' 17 15).toNat = addr.toNat / 0x20000 := by
  have := addr.isLt
  simp only [BitVec.extractLsb'_toNat, Nat.shiftRight_eq_div_pow]
  omega

/-- An address has an offset exactly when it lies in the window of BASE, and the offset is the rest. -/
theorem windowOffset?_eq (addr : BitVec 32) :
    windowOffset? addr =
      if addr.toNat / 0x20000 = Config.base.toNat / 0x20000 then some (BitVec.ofNat 17 addr.toNat) else none := by
  have hoff : addr.extractLsb' 0 17 = BitVec.ofNat 17 addr.toNat := by
    simp [BitVec.extractLsb']
  simp only [windowOffset?, hoff, ← BitVec.toNat_inj, windowIndex_toNat]

/-! ## The checks and the stored bytes -/

/-- An access that fails the checks raises BUS_ACCESS, busy or not: they come before the check of BUSY (R157). -/
theorem busAccess_not_accepted {x : Access} (h : x.accepted = false) (s : State) :
    busAccess x s = .done (s.raiseBusAccess x) := by
  simp [busAccess, h]

/-- Byte `j` of a stored word holds its bits 8j+7 to 8j (R54). -/
theorem Memory.byte?_setWord_lane (m : Memory) (a : Nat) (v : Word) {j : Nat} (hj : j < 4) :
    (m.setWord a v).byte? (a + j) = some (v.extractLsb' (8 * j) 8) := by
  obtain ⟨h0, h1, h2, h3⟩ := Memory.byte?_setWord m a v
  obtain rfl | rfl | rfl | rfl : j = 0 ∨ j = 1 ∨ j = 2 ∨ j = 3 := by omega
  · exact h0
  · exact h1
  · exact h2
  · exact h3

/-- While idle, the step of a write at the offset of BUF[c][i] stores the word there. -/
theorem step_of_sampleWrite {s : State} {writer : Bool} {off : BitVec 17} {v : Word} {rest : List Turn} {c : Chan}
    {i : Nat} (hf : s.fault = none) (hidle : s.busy = false) (hi : i < 8192)
    (hoff : off.toNat = 0x10000 + 0x8000 * c.index + 4 * i)
    (hn : s.turns = busTurn writer { width := 32, off := off, op := .write v } :: rest) :
    step s = .next
      { s with turns := rest, actor := busAgent writer, buf := s.buf.setWord (bufOffset c i) v } := by
  refine step_of_write hf hn (accepted_of _ (by omega) (by omega) (by omega)) (by simp [hidle]) ?_
  simp only [busWrite, target_sample hi hoff]

/-! ## Who changes BUF (R71) -/

/-- While BUSY no access without a command reaches BUF. -/
theorem AccessLeaves.buf_of_busy {x : Access} {s t : State} (h : AccessLeaves x s t) (hb : s.busy = true) :
    t.buf = s.buf := by
  cases h with
  | sample _ _ _ idle => simp [hb] at idle
  | _ => rfl

end Sys2Proof.Machine

open Sys2Proof Sys2Proof.Machine

/-- Settles O11: each of the four causes fails the checks of R53, R56 and R57, which come first. -/
theorem malformedAccessRaisesBusAccess : Obligations.MalformedAccessRaisesBusAccess := by
  intro s writer x rest hf hn hx
  have halign : x.off.extractLsb' 0 2 ≠ 0#2 → x.off.toNat % 4 ≠ 0 := fun hne h0 =>
    hne (BitVec.eq_of_toNat_eq (by simpa [BitVec.extractLsb'_toNat] using h0))
  have hbad : x.accepted = false :=
    not_accepted_of (hx.imp_right (Or.imp halign (Or.imp_left (congrArg BitVec.toNat))))
  exact step_of_raise hf hn (busAccess_not_accepted hbad _)

/-- Settles O15: an idle write to the sample RAM passes every check, and its four bytes are the whole change. -/
theorem sampleWriteStoresLittleEndianWord : Obligations.SampleWriteStoresLittleEndianWord := by
  intro s writer off v rest c i hf hidle hi hoff hn
  have haddr : off.toNat = bufOffset c i := hoff
  refine ⟨_, step_of_sampleWrite hf hidle hi hoff hn, rfl, Memory.word?_setWord_self _ _ _, ?_, ?_⟩ <;> rw [haddr]
  · exact fun j => Memory.byte?_setWord_lane s.buf _ v
  · exact fun a => Memory.byte?_setWord_of_outside s.buf v

/-- Settles O17: BASE is a multiple of the window's size, so an address lies in the window exactly when its upper
bits are those of BASE, and its lower bits are its distance from BASE. -/
theorem windowLiesAtBase : Obligations.WindowLiesAtBase := by
  have hbase := base_toNat
  refine ⟨by omega, fun addr => ⟨fun hin => ?_, fun hout => ?_⟩⟩ <;> rw [windowOffset?_eq]
  · refine ⟨_, if_pos (by omega), ?_⟩
    rw [BitVec.toNat_ofNat]
    omega
  · exact if_neg (by omega)

/-- Settles O47: while BUSY an access issues no command and stores no sample word, and while idle the sequencer has
no step. -/
theorem bufferHasOneOwner : Obligations.BufferHasOneOwner := by
  refine fun s t h => ⟨fun hbusy ⟨writer, x, rest, hn⟩ => ?_, fun hidle hnoAccess hnoReset => ?_⟩
  · obtain leaves | ⟨w, idle, -, -⟩ := step_busTurn_cases hn h
    · exact leaves.buf_of_busy hbusy
    · simp [hbusy] at idle
  · cases step_takes h with
    | reset rest turn _ => exact absurd turn (hnoReset rest)
    | access writer x rest _ turn _ => exact absurd ⟨writer, x, rest, turn⟩ hnoAccess
    | command writer x rest _ _ _ _ turn _ _ _ _ _ => exact absurd ⟨writer, x, rest, turn⟩ hnoAccess
    | micro _ _ _ _ _ busy _ _ _ _ => simp [hidle] at busy
    | idle _ _ _ _ leaves => rw [leaves]
end

section
/-! Proofs of the family 30_encoding.md: the decoder of each space inverts the encoder, by the fields of the word;
which words are reserved; the sequencer's step on the head of SEQ; and the channels a block's sequence names. -/

namespace Sys2Proof

open Machine

/-! ## The numbers of the operands -/

theorem Kind.ofIndex_eq_some {n : Nat} {k : Kind} : Kind.ofIndex n = some k ↔ n = k.index := by
  unfold Kind.ofIndex
  split <;> cases k <;> simp_all [Kind.index]

theorem Chan.ofIndex_eq_some {n : Nat} {c : Chan} : Chan.ofIndex n = some c ↔ n = c.index := by
  unfold Chan.ofIndex
  split <;> cases c <;> simp_all [Chan.index]

theorem Param.ofIndex_eq_some {n : Nat} {p : Param} : Param.ofIndex n = some p ↔ n = p.index := by
  unfold Param.ofIndex
  split <;> cases p <;> simp_all [Param.index]

theorem Kind.exists_ofIndex {n : Nat} (h : n < 2) : ∃ k, Kind.ofIndex n = some k := by
  interval_cases n <;> exact ⟨_, rfl⟩

theorem Chan.ofIndex_eq_none : ∀ {n : Nat}, Chan.ofIndex n = none ↔ 2 ≤ n
  | 0 | 1 => by decide
  | n + 2 => by simp [Chan.ofIndex]

theorem Param.ofIndex_eq_none : ∀ {n : Nat}, Param.ofIndex n = none ↔ 5 ≤ n
  | 0 | 1 | 2 | 3 | 4 => by decide
  | n + 5 => by simp [Param.ofIndex]

/-! ## The micro-op words (R80, R82) -/

section
variable {i : Instr} {f : Chan → Instr} {cls k opd : Nat}

theorem bare_eq_some {j : Instr} : bare i k opd = some j ↔ (k = 0 ∧ opd = 0) ∧ i = j := by
  simp [bare]

theorem onChannel_eq_some : onChannel f k opd = some i ↔ k = 0 ∧ ∃ c, opd = c.index ∧ f c = i := by
  simp [onChannel, Chan.ofIndex_eq_some]

theorem bare_eq_none : bare i k opd = none ↔ k ≠ 0 ∨ opd ≠ 0 := by
  simp only [bare, ite_eq_right_iff, reduceCtorEq, imp_false]
  omega

theorem onChannel_eq_none : onChannel f k opd = none ↔ k ≠ 0 ∨ 2 ≤ opd := by
  simp only [onChannel, ite_eq_right_iff, Option.map_eq_none_iff, Chan.ofIndex_eq_none]
  omega

/-- The fields that decode to an instruction are the ones it is encoded with. -/
theorem encode_of_decodeFields (h : decodeFields cls k opd = some i) : encode i = .micro (microWord cls k opd) := by
  unfold decodeFields at h
  split at h
  case h_1 | h_9 | h_11 =>
    obtain ⟨⟨rfl, rfl⟩, rfl⟩ := bare_eq_some.1 h
    rfl
  case h_2 | h_4 | h_5 | h_8 | h_10 =>
    obtain ⟨rfl, c, rfl, rfl⟩ := onChannel_eq_some.1 h
    rfl
  case h_3 =>
    obtain ⟨rfl, p, rfl, rfl⟩ : k = 0 ∧ ∃ p : Param, opd = p.index ∧ .snap p = i := by
      simpa [Param.ofIndex_eq_some] using h
    rfl
  case h_6 =>
    obtain ⟨rfl, kind, rfl, rfl⟩ : opd = 0 ∧ ∃ kind : Kind, k = kind.index ∧ .upd kind = i := by
      simpa [Kind.ofIndex_eq_some] using h
    rfl
  case h_7 =>
    obtain ⟨kind, rfl, c, rfl, rfl⟩ :
        ∃ kind : Kind, k = kind.index ∧ ∃ c : Chan, opd = c.index ∧ .run kind c = i := by
      simpa [Option.bind_eq_some_iff, Kind.ofIndex_eq_some, Chan.ofIndex_eq_some] using h
    rfl
  case h_12 => cases h

/-- The five cases of R82, class by class. -/
theorem decodeFields_eq_none (hk : k < 2) : ∀ {cls : Nat},
    decodeFields cls k opd = none ↔
      0xB ≤ cls ∨ (k ≠ 0 ∧ cls ≠ 0x5 ∧ cls ≠ 0x6) ∨ (2 ≤ opd ∧ cls ≠ 0x2) ∨ (cls = 0x2 ∧ 5 ≤ opd) ∨
        (opd ≠ 0 ∧ (cls = 0x0 ∨ cls = 0x5 ∨ cls = 0x8 ∨ cls = 0xA))
  | 0x0 | 0x8 | 0xA => by
    rw [decodeFields, bare_eq_none]
    omega
  | 0x1 | 0x3 | 0x4 | 0x7 | 0x9 => by
    rw [decodeFields, onChannel_eq_none]
    omega
  | 0x2 => by
    rw [decodeFields, ite_eq_right_iff, Option.map_eq_none_iff, Param.ofIndex_eq_none]
    omega
  | 0x5 => by
    obtain ⟨kind, h⟩ := Kind.exists_ofIndex hk
    rw [decodeFields, h, Option.map_some, ite_eq_right_iff, imp_iff_not (Option.some_ne_none _)]
    omega
  | 0x6 => by
    obtain ⟨kind, h⟩ := Kind.exists_ofIndex hk
    simp [decodeFields, h, Chan.ofIndex_eq_none]
  | n + 0xB => by simp [decodeFields]

end

section
variable {u : MicroWord} {i : Instr}

/-- The fields CLASS, K and OPD of a micro-op word, decoded (R80). -/
def decodeSlices (u : MicroWord) : Option Instr :=
  decodeFields (u.extractLsb' 4 4).toNat (u.extractLsb' 3 1).toNat (u.extractLsb' 0 3).toNat

theorem decodeMicro_eq_ok_iff : decodeMicro u = .ok i ↔ decodeSlices u = some i := by
  simp only [decodeMicro, bitField_eq_extractLsb', decodeSlices]
  split <;> simp_all

theorem decodeMicro_eq_error_iff : decodeMicro u = .error (.reservedMicroOp u) ↔ decodeSlices u = none := by
  simp only [decodeMicro, bitField_eq_extractLsb', decodeSlices]
  split <;> simp_all

end

theorem microWord_slices (u : MicroWord) :
    microWord (u.extractLsb' 4 4).toNat (u.extractLsb' 3 1).toNat (u.extractLsb' 0 3).toNat = u := by
  rw [microWord, BitVec.ofNat_toNat, BitVec.ofNat_toNat, BitVec.ofNat_toNat, BitVec.setWidth_eq, BitVec.setWidth_eq,
    BitVec.setWidth_eq, BitVec.extractLsb'_append_extractLsb'_eq_extractLsb' (by decide),
    BitVec.extractLsb'_append_extractLsb'_eq_extractLsb' (by decide), BitVec.extractLsb'_eq_self]

theorem encode_of_decodeMicro {u : MicroWord} {i : Instr} (h : decodeMicro u = .ok i) : encode i = .micro u := by
  rw [encode_of_decodeFields (decodeMicro_eq_ok_iff.1 h), microWord_slices]

theorem encode_of_isMicroOp {i : Instr} (h : i.isMicroOp = true) : encode i = .micro i.seqWord := by
  cases i with
  | prepare | processBlock => cases h
  | _ => rfl

theorem wellFormed_of_isMicroOp {i : Instr} (h : i.isMicroOp = true) : i.wellFormed = true := by
  cases i with
  | prepare | processBlock => cases h
  | _ => rfl

/-! ## The fields of a command word (R74) -/

theorem append_eq_append_iff {n m : Nat} {a a' : BitVec n} {b b' : BitVec m} :
    a ++ b = a' ++ b' ↔ a = a' ∧ b = b' := by
  refine ⟨fun h => ⟨?_, ?_⟩, fun ⟨ha, hb⟩ => ha ▸ hb ▸ rfl⟩
  · simpa only [BitVec.extractLsb'_append_eq_left] using congrArg (BitVec.extractLsb' m n) h
  · simpa only [BitVec.extractLsb'_append_eq_right] using congrArg (BitVec.extractLsb' 0 m) h

theorem wordSlices_append (w : Word) :
    w.extractLsb' 22 10 ++ w.extractLsb' 8 14 ++ w.extractLsb' 6 2 ++ w.extractLsb' 4 2 ++ w.extractLsb' 0 4 = w := by
  rw [BitVec.extractLsb'_append_extractLsb'_eq_extractLsb' (by decide),
    BitVec.extractLsb'_append_extractLsb'_eq_extractLsb' (by decide),
    BitVec.extractLsb'_append_extractLsb'_eq_extractLsb' (by decide),
    BitVec.extractLsb'_append_extractLsb'_eq_extractLsb' (by decide), BitVec.extractLsb'_eq_self]

/-- A command word is its five fields. -/
theorem word_eq_append_iff {w : Word} {rsv : BitVec 10} {len : BitVec 14} {nout nin : BitVec 2} {op : BitVec 4} :
    w = rsv ++ len ++ nout ++ nin ++ op ↔
      w.extractLsb' 22 10 = rsv ∧ w.extractLsb' 8 14 = len ∧ w.extractLsb' 6 2 = nout ∧ w.extractLsb' 4 2 = nin ∧
        w.extractLsb' 0 4 = op := by
  conv_lhs => rw [← wordSlices_append w]
  rw [append_eq_append_iff, append_eq_append_iff, append_eq_append_iff, append_eq_append_iff]
  simp only [and_assoc]

theorem eq_prepareWord_iff (w : Word) :
    w = 0x00000001#32 ↔ w.extractLsb' 0 4 = 0x1#4 ∧ w.extractLsb' 4 28 = 0#28 := by
  have hw : w.extractLsb' 4 28 ++ w.extractLsb' 0 4 = w := by
    rw [BitVec.extractLsb'_append_extractLsb'_eq_extractLsb' (by decide), BitVec.extractLsb'_eq_self]
  conv_lhs => rw [← hw, show 0x00000001#32 = 0#28 ++ 0x1#4 from rfl, append_eq_append_iff]
  exact and_comm

/-- The mask of PROCESS_BLOCK keeps RSV and OP whole and clears the three operands. -/
theorem and_processMask_iff (w : Word) :
    w &&& 0xFFC0000F#32 = 0x00000002#32 ↔ w.extractLsb' 0 4 = 0x2#4 ∧ w.extractLsb' 22 10 = 0#10 := by
  have hrsv : w.extractLsb' 22 10 &&& 0x3FF#10 = w.extractLsb' 22 10 := BitVec.and_allOnes
  have hop : w.extractLsb' 0 4 &&& 0xF#4 = w.extractLsb' 0 4 := BitVec.and_allOnes
  rw [show 0x00000002#32 = 0#10 ++ 0#14 ++ 0#2 ++ 0#2 ++ 0x2#4 from rfl, word_eq_append_iff]
  simp [BitVec.extractLsb'_and, hrsv, hop, and_comm]

/-! ## The command words (R76 to R79) -/

/-- PROCESS_BLOCK with the operands in the fields of a command word (R78). -/
def processOf (w : Word) : Instr :=
  .processBlock (w.extractLsb' 4 2).toNat (w.extractLsb' 6 2).toNat (w.extractLsb' 8 14).toNat

theorem decodeCommand_eq (w : Word) :
    decodeCommand w =
      if w = 0x00000001#32 then .ok .prepare
      else if w &&& 0xFFC0000F#32 = 0x00000002#32 then .ok (processOf w)
      else .error (.reservedCommand w) := by
  simp only [decodeCommand, bitField_eq_extractLsb', processOf]

theorem decodeCommand_eq_ok_iff {w : Word} {i : Instr} :
    decodeCommand w = .ok i ↔
      (w = 0x00000001#32 ∧ i = .prepare) ∨ (w &&& 0xFFC0000F#32 = 0x00000002#32 ∧ i = processOf w) := by
  rw [decodeCommand_eq]
  split
  · next h => simp [h, eq_comm]
  · next h => split <;> simp_all [eq_comm]

theorem decodeCommand_eq_error_iff {w : Word} :
    decodeCommand w = .error (.reservedCommand w) ↔
      w ≠ 0x00000001#32 ∧ w &&& 0xFFC0000F#32 ≠ 0x00000002#32 := by
  rw [decodeCommand_eq]
  split
  · next h => simp [h]
  · next h => split <;> simp_all

theorem encode_processOf {w : Word} (h : w &&& 0xFFC0000F#32 = 0x00000002#32) :
    (processOf w).wellFormed = true ∧ encode (processOf w) = .command w := by
  obtain ⟨hop, hrsv⟩ := (and_processMask_iff w).1 h
  refine ⟨?_, congrArg Encoded.command (word_eq_append_iff.2 ⟨hrsv, ?_, ?_, ?_, hop⟩).symm⟩
  · simp only [processOf, Instr.wellFormed, Bool.and_eq_true, decide_eq_true_eq]
    omega
  all_goals rw [BitVec.ofNat_toNat, BitVec.setWidth_eq]

theorem decodeCommand_commandWord {nin nout len : Nat} (h : (Instr.processBlock nin nout len).wellFormed = true) :
    decodeCommand (commandWord 0x2 nin nout len) = .ok (.processBlock nin nout len) := by
  obtain ⟨⟨hin, hout⟩, hlen⟩ : (nin < 4 ∧ nout < 4) ∧ len < 16384 := by simpa [Instr.wellFormed] using h
  obtain ⟨fRsv, fLen, fOut, fIn, fOp⟩ := word_eq_append_iff.1 (Eq.refl (commandWord 0x2 nin nout len))
  refine decodeCommand_eq_ok_iff.2 (.inr ⟨(and_processMask_iff _).2 ⟨fOp, fRsv⟩, ?_⟩)
  rw [processOf, fIn, fOut, fLen, BitVec.toNat_ofNat, BitVec.toNat_ofNat, BitVec.toNat_ofNat, Nat.mod_eq_of_lt hin,
    Nat.mod_eq_of_lt hout, Nat.mod_eq_of_lt hlen]

/-! ## Both spaces -/

/-- The bytes of a word decode as the word does (R54, R73). -/
theorem decodeBytes_bytes : ∀ e : Encoded, decodeBytes e.bytes = decode e
  | .command w => congrArg decodeCommand (wordOfBytes_extract w)
  | .micro _ => rfl

theorem decode_encode_of_isMicroOp {i : Instr} (h : i.isMicroOp = true) : decode (encode i) = .ok i := by
  rw [encode_of_isMicroOp h]
  exact decodeMicro_seqWord h

theorem decode_encode {i : Instr} (h : i.wellFormed = true) : decode (encode i) = .ok i := by
  cases i with
  | prepare => decide
  | processBlock nin nout len => exact decodeCommand_commandWord h
  | _ => exact decode_encode_of_isMicroOp rfl

theorem encode_decode {e : Encoded} {i : Instr} (h : decode e = .ok i) : i.wellFormed = true ∧ encode i = e := by
  cases e with
  | command w =>
    obtain ⟨rfl, rfl⟩ | ⟨hmask, rfl⟩ := decodeCommand_eq_ok_iff.1 h
    · decide
    · exact encode_processOf hmask
  | micro u => exact ⟨wellFormed_of_isMicroOp (decodeMicro_ok h).1, encode_of_decodeMicro h⟩

end Sys2Proof

namespace Sys2Proof.Machine

/-! ## The sequencer's step (R81, R82) -/

/-- On the sequencer's turn the head of SEQ is fetched. -/
theorem fetch_of_sequencerNext {s : State} {rest : List Turn} (hn : s.sequencerNext rest) :
    fetch s = fetchMicroOp { s with turns := rest, actor := .sequencer } := by
  obtain h | ⟨h, rfl⟩ := hn
  · simp only [fetch, h]
  · simp only [fetch, h]

/-- The sequencer has no step on a head of SEQ that is reserved. -/
theorem step_of_reservedMicroOp {s : State} {rest : List Turn} {u : MicroWord} {tl : List MicroWord}
    (hf : s.fault = none) (hb : s.busy = true) (hn : s.sequencerNext rest) (hs : s.seq = u :: tl)
    (hd : decodeMicro u = .error (.reservedMicroOp u)) : step s = .refused (.reservedMicroOp u) := by
  simp only [step, fetch_of_sequencerNext hn, fetchMicroOp, hf, hb, hs, hd, if_true]

/-- A micro-op is removed from SEQ and leaves FAULT as it was, unless it is a SNAP that raises a fault. -/
theorem exec_micro_retires {i : Instr} {s t : State} (hm : i.isMicroOp = true) (h : exec i s = .next t) :
    (t.fault = s.fault ∧ t.seq = s.seq.tail) ∨ (t.fault ≠ none ∧ ∃ p, i = .snap p) := by
  cases exec_leaves h with
  | raised _ code detail checks => exact .inr ⟨by simp, checks.resolve_left (by simp [hm])⟩
  | prepare | processBlock => cases hm
  | _ => exact .inl ⟨rfl, rfl⟩

/-! ## The micro-ops of a block (R134) -/

/-- The micro-ops of `Sequence(NIN, NOUT)`, each with the channels of its step of the algorithm. -/
inductive InSequence (nin nout : Nat) : Instr → Prop where
  | silence (c : Chan) (h : c ∈ channels nin (max nin nout)) : InSequence nin nout (.silence c)
  | snap (p : Param) : InSequence nin nout (.snap p)
  | dryCopy (c : Chan) (h : c ∈ channels 0 (max nin nout)) : InSequence nin nout (.dryCopy c)
  | shape (c : Chan) (h : c ∈ channels 0 nin) : InSequence nin nout (.shape c)
  | upd (k : Kind) : InSequence nin nout (.upd k)
  | run (k : Kind) (c : Chan) (h : c ∈ channels 0 nin) : InSequence nin nout (.run k c)
  | mix (c : Chan) (h : c ∈ channels 0 (max nin nout)) : InSequence nin nout (.mix c)
  | gainCalc : InSequence nin nout .gainCalc
  | gain (c : Chan) (h : c ∈ channels 0 (max nin nout)) : InSequence nin nout (.gain c)
  | endCommand : InSequence nin nout .endCommand

theorem InSequence.isMicroOp {nin nout : Nat} {i : Instr} (h : InSequence nin nout i) : i.isMicroOp = true := by
  cases h <;> rfl

theorem inSequence_of_mem {nin nout : Nat} {i : Instr} (h : i ∈ blockSequence nin nout) : InSequence nin nout i := by
  simp only [blockSequence, List.mem_flatten, List.mem_cons, List.not_mem_nil, or_false, exists_eq_or_imp,
    exists_eq_left, List.mem_map, List.mem_flatMap] at h
  obtain ⟨c, hc, rfl⟩ | ⟨p, -, rfl⟩ | ⟨c, hc, rfl⟩ | ⟨c, hc, rfl⟩ | ⟨c, hc, rfl | rfl⟩ | ⟨c, hc, rfl | rfl⟩ |
    ⟨c, hc, rfl⟩ | rfl | ⟨c, hc, rfl⟩ | rfl := h
  · exact .silence c hc
  · exact .snap p
  · exact .dryCopy c hc
  · exact .shape c hc
  · exact .upd .lp
  · exact .run .lp c hc
  · exact .upd .hp
  · exact .run .hp c hc
  · exact .mix c hc
  · exact .gainCalc
  · exact .gain c hc
  · exact .endCommand

end Sys2Proof.Machine

open Sys2Proof Sys2Proof.Machine

/-- Settles O2: the fields of a command word are its operands, each micro-op's word decodes to it, and bytes decode as
the word they hold. -/
theorem decodeOfEncodeIsInstruction : Obligations.DecodeOfEncodeIsInstruction := fun _ h =>
  ⟨decode_encode h, (decodeBytes_bytes _).trans (decode_encode h)⟩

/-- Settles O3: the fields that decode to an instruction are the ones it is encoded with, and make up the word. -/
theorem encodeOfDecodeIsWord : Obligations.EncodeOfDecodeIsWord := fun _ _ => encode_decode

/-- Settles O4: PREPARE is one word, PROCESS_BLOCK's mask fixes OP and RSV, and R79 lists the words that are neither. -/
theorem commandWordsAreClassified : Obligations.CommandWordsAreClassified := by
  refine fun w => ⟨?_, fun h => decodeCommand_eq_ok_iff.2 (.inr ⟨h, rfl⟩), ?_⟩
  · rw [decodeCommand_eq_ok_iff]
    simp [processOf]
  · rw [decodeCommand_eq_error_iff, Ne, Ne, eq_prepareWord_iff, and_processMask_iff]
    by_cases h1 : w.extractLsb' 0 4 = 0x1#4
    · simp [h1]
    · by_cases h2 : w.extractLsb' 0 4 = 0x2#4 <;> simp [h1, h2]

/-- Settles O1, by decoding each word. -/
theorem specWordsDecodeToTheirInstructions : Obligations.SpecWordsDecodeToTheirInstructions :=
  ⟨by decide, by decide, by decide⟩

/-- Settles O5: the cases of R82 are those in which no class has an instruction for K and OPD. -/
theorem reservedMicroOpWordsAreRefused : Obligations.ReservedMicroOpWordsAreRefused := by
  refine fun u => ⟨?_, fun hd s rest tl hf hb hn hs => step_of_reservedMicroOp hf hb hn hs hd⟩
  have hopd : (u.extractLsb' 1 2).toNat = (u.extractLsb' 0 3).toNat / 2 := by
    simp only [BitVec.extractLsb'_toNat, Nat.shiftRight_eq_div_pow]
    omega
  rw [decodeMicro_eq_error_iff, decodeSlices, decodeFields_eq_none (u.extractLsb' 3 1).isLt]
  simp only [ne_eq, ← BitVec.toNat_inj, hopd, BitVec.toNat_ofNat]
  omega

/-- Settles O6: without a fault the micro-op was no SNAP that raised one, so it removed the head of SEQ. -/
theorem stepRunsDecodedMicroOp : Obligations.StepRunsDecodedMicroOp := by
  intro s rest u tl i hf hb hn hs hd
  have hstep := step_of_micro hf hb hn hs hd
  refine ⟨hstep, fun t ht hft => ?_⟩
  obtain ⟨-, hseq⟩ | ⟨hraised, -⟩ := exec_micro_retires (decodeMicro_ok hd).1 (hstep.symm.trans ht)
  · exact hseq.trans (congrArg List.tail hs)
  · exact absurd hft hraised

/-- Settles O21: every word is that of a micro-op of the algorithm, on a channel of its step. -/
theorem sequencesKeepToTheirChannels : Obligations.SequencesKeepToTheirChannels := by
  intro nin nout _ _ u hu
  obtain ⟨i, hi, rfl⟩ := List.mem_map.1 hu
  have hin := inSequence_of_mem hi
  refine ⟨i, decodeMicro_seqWord hin.isMicroOp, ?_⟩
  cases hin with
  | silence c hc => exact (mem_channels _ _ c).1 hc
  | dryCopy c hc | shape c hc | run _ c hc | mix c hc | gain c hc => exact ((mem_channels _ _ c).1 hc).2
  | snap | upd | gainCalc | endCommand => trivial

/-- Settles O43: only a SNAP can leave anything but the fault it found and the tail of SEQ. -/
theorem onlySnapRaisesInPipeline : Obligations.OnlySnapRaisesInPipeline := by
  intro i s hm hsnap
  obtain ⟨t, h⟩ := exec_next i s
  obtain ⟨hfault, hseq⟩ | ⟨-, p, hp⟩ := exec_micro_retires hm h
  · exact ⟨t, h, hfault, hseq⟩
  · exact absurd hp (hsnap p)
end

section
/-! Proofs of the family 40_parameter_snapshot.md: the ranges of the parameters in exact values, what SNAP does in each
of its cases, that no other micro-op reads PARAM, and the invariants of the cached cutoffs and the snapshot. -/

namespace Sys2Proof.Machine

/-! ## The ranges (R93) -/

/-- Lying between two numbers, in the order of the words and in exact values. -/
theorem le32_and_le32_iff_units {lo v hi : F32} (hlo : isNaN lo = false) (hhi : isNaN hi = false) :
    (le32 lo v && le32 v hi) = true ↔ isNaN v = false ∧ units lo ≤ units v ∧ units v ≤ units hi := by
  rw [Bool.and_eq_true]
  cases hv : isNaN v with
  | true => simp [lt32_le32_of_isNaN (.inl hv)]
  | false => simp [le32_iff_units hlo hv, le32_iff_units hv hhi]

theorem units_plusZero : units plusZero = 0 := by decide
theorem units_one : units one = 2 ^ 149 := by decide
theorem units_twentyFour : units twentyFour = 24 * 2 ^ 149 := by decide
theorem units_minusTwentyFour : units minusTwentyFour = -24 * 2 ^ 149 := by decide

/-- DRIVE and MIX. -/
theorem unitRange_iff (v : F32) :
    (le32 plusZero v && le32 v one) = true ↔ isNaN v = false ∧ 0 ≤ units v ∧ units v ≤ 2 ^ 149 := by
  rw [le32_and_le32_iff_units (by decide) (by decide), units_plusZero, units_one]

/-- OUTGAIN. -/
theorem gainRange_iff (v : F32) :
    (le32 minusTwentyFour v && le32 v twentyFour) = true ↔
      isNaN v = false ∧ -24 * 2 ^ 149 ≤ units v ∧ units v ≤ 24 * 2 ^ 149 := by
  rw [le32_and_le32_iff_units (by decide) (by decide), units_minusTwentyFour, units_twentyFour]

/-- A NaN is in no parameter's range. -/
theorem isNaN_of_inRange {p : Param} {v : F32} (h : inRange p v = true) : isNaN v = false := by
  cases p with
  | drive | mix => exact ((unitRange_iff v).1 h).1
  | outgain => exact ((gainRange_iff v).1 h).1
  | tone | hpf => exact (Bool.not_eq_true' _).to_iff.1 h

/-! ## SNAP p (R91) -/

section
variable {s : State} {p : Param} {v : F32}

theorem exec_snap_of_inRange (hv : s.param.get p = some v) (h : inRange p v = true) :
    exec (.snap p) s = .next (State.retire { s with snap := s.snap.set p v }) := by
  simp only [exec, execSnap, hv, h, if_true]

theorem exec_snap_of_outOfRange (hv : s.param.get p = some v) (h : inRange p v = false) :
    exec (.snap p) s = .next (s.raise .paramRange (.parameterValue p v)) := by
  simp only [exec, execSnap, hv, h, Bool.false_eq_true, if_false]

theorem exec_snap_of_unwritten (h : s.param.get p = none) :
    exec (.snap p) s = .next (s.raise .unwrittenRead (.parameter p)) := by
  simp only [exec, execSnap, h]

end

/-- The words 0x20 to 0x24 are the SNAPs (R80). -/
theorem decodeMicro_snapWord (p : Param) : decodeMicro (0x20#8 ||| BitVec.ofNat 8 p.index) = .ok (.snap p) := by
  cases p <;> decide

/-! ## The snapshot stays free of NaNs -/

theorem snapshotNumeric_exec {i : Instr} {s t : State} (hs : s.snapshotNumeric) (h : ExecLeaves s i t) :
    t.snapshotNumeric := by
  cases h with
  | snap p v _ valid =>
    intro p'
    by_cases hp : p' = p
    · subst hp
      simpa using isNaN_of_inRange valid
    · simpa [PerParam.get_set_ne _ _ hp] using hs p'
  | _ => exact hs

/-! ## The cached cutoffs stay in [20, 20000] (R110, R113) -/

@[simp] theorem isNaN_abs32 (v : F32) : isNaN (abs32 v) = isNaN v := by simp [isNaN]

/-- A NaN target never passes the hysteresis test: its distance is a NaN. -/
theorem isNaN_of_cutoffMoved {s : State} {i : Nat} {t cached : F32} (h : cutoffMoved (s.fp i) t cached = true) :
    isNaN t = false := by
  cases ht : isNaN t with
  | false => rfl
  | true =>
    have hdist : isNaN (abs32 ((s.fp i).sub 0 t cached)) = true := by
      rw [isNaN_abs32, Fp.sub, sub32_of_isNaN (s.isNaN_fp_nan i 0) (.inl ht)]
      exact s.isNaN_fp_nan i 0
    rw [cutoffMoved, (lt32_le32_of_isNaN (.inr hdist)).1] at h
    cases h

/-- A NaN passes both comparisons of the clamp and stays what it is. -/
theorem clamp32_of_isNaN {v : F32} (hv : isNaN v = true) (lo hi : F32) : clamp32 v lo hi = v := by
  simp [clamp32, lt32_le32_of_isNaN (.inl hv), lt32_le32_of_isNaN (.inr hv)]

/-- A clamped value that is a number lies between the bounds. -/
theorem le32_clamp32 {v lo hi : F32} (hv : isNaN (clamp32 v lo hi) = false) (hle : le32 lo hi = true) :
    le32 lo (clamp32 v lo hi) = true ∧ le32 (clamp32 v lo hi) hi = true := by
  obtain ⟨hlo, hhi, hkey⟩ := (le32_iff _ _).1 hle
  have hv' : isNaN v = false := by
    cases h : isNaN v with
    | false => rfl
    | true => rwa [clamp32_of_isNaN h, h] at hv
  obtain ⟨-, hclamp⟩ := clamp32_spec hv' hlo hhi hkey
  rw [le32_iff, le32_iff, hclamp]
  exact ⟨⟨hlo, hv, le_max_left _ _⟩, hv, hhi, max_le hkey (min_le_right _ _)⟩

/-- The default cutoff is in range. -/
theorem twenty_inRange : le32 twenty twenty = true ∧ le32 twenty twentyThousand = true := by decide

theorem cutoffsInRange_exec {i : Instr} {s t : State} (hs : s.cutoffsInRange) (h : ExecLeaves s i t) :
    t.cutoffsInRange := by
  cases h with
  | updMoved k moved =>
    intro hmode k'
    by_cases hk : k' = k
    · subst hk
      rw [State.cached_retire, PerKind.get_set_self]
      exact le32_clamp32 (isNaN_of_cutoffMoved moved) (by decide)
    · simpa [PerKind.get_set_ne _ _ hk] using hs hmode k'
  | prep => rintro - (_ | _) <;> exact twenty_inRange
  | _ => exact hs

end Sys2Proof.Machine

open Sys2Proof Sys2Proof.Machine

/-- Settles O55: PREP caches 20.0; UPD caches a clamped target, and never a NaN, which fails the hysteresis test; and
SNAP takes only values in range, none of them a NaN. -/
theorem stepKeepsCutoffsInRange : Obligations.StepKeepsCutoffsInRange := fun _ _ h =>
  ⟨fun hs =>
    step_keeps h (reset := fun _ _ hmode => by cases hmode) (turn := fun _ _ => hs)
      (access := fun _ _ _ hu leaves => by rw [leaves.eq_update]; exact hu)
      (run := fun _ _ _ => cutoffsInRange_exec),
    fun noReset hs =>
      step_keeps (P := State.snapshotNumeric) h (reset := fun rest next => absurd next (noReset rest))
        (turn := fun _ _ => hs) (access := fun _ _ _ hu leaves => by rw [leaves.eq_update]; exact hu)
        (run := fun _ _ _ => snapshotNumeric_exec)⟩

/-- Settles O23: the order of the words is that of the exact values, and the bounds are 0, 1 and ±24. -/
theorem parameterRangesAreRealIntervals : Obligations.ParameterRangesAreRealIntervals := fun v =>
  ⟨unitRange_iff v, unitRange_iff v, gainRange_iff v, .of_eq (Bool.not_eq_true' _), .of_eq (Bool.not_eq_true' _)⟩

/-- Settles O22, case by case of what PARAM[p] holds. -/
theorem snapTakesParameterOrFaults : Obligations.SnapTakesParameterOrFaults := by
  refine ⟨decodeMicro_snapWord, fun s p => ⟨fun v hv h => ?_, fun v => exec_snap_of_outOfRange, exec_snap_of_unwritten⟩⟩
  exact ⟨_, exec_snap_of_inRange hv h, rfl, PerParam.get_set_self _ _ _, fun _ => PerParam.get_set_ne _ _⟩

/-- Settles O24: the meaning of each micro-op but SNAP names no PARAM register. -/
theorem microOpsIgnoreParameterWrites : Obligations.MicroOpsIgnoreParameterWrites := by
  intro i s t ps hm hsnap h
  cases i with
  | prepare | processBlock => cases hm
  | snap p => exact absurd rfl (hsnap p)
  | endCommand | silence | dryCopy | shape | upd | run | mix | gainCalc | gain | prep => cases h; exact ⟨rfl, rfl⟩
end

section
/-! Proofs of the family 41_waveshaper.md: what SHAPE writes and leaves unchanged, and its samples where drive is
a zero. -/

namespace Sys2Proof.Machine

/-- The words 0x40 and 0x41 are the SHAPEs (R80). -/
theorem decodeMicro_shapeWord (c : Chan) : decodeMicro (0x40#8 ||| BitVec.ofNat 8 c.index) = .ok (.shape c) := by
  cases c <;> decide

/-- The hyperbolic tangent keeps a zero and its sign (T2). -/
theorem tanh32_ofSignMag_zero (b : Bool) : Config.tanh32 (ofSignMag b 0) = ofSignMag b 0 := by
  obtain ⟨hplus, hminus⟩ := Config.tanhFunction.zeros
  cases b
  · exact hplus
  · exact hminus

section
variable {e : Fp} {d x : F32}

/-- A zero drive and a finite sample: both products are the zero of the sign of `d * x`, 12.0 being positive. -/
theorem shapeSample_of_isZero (hd : isZero d = true) (hx : isFinite x = true) :
    shapeSample e d x = ofSignMag (signBit d ^^ signBit x) 0 := by
  have hprod : e.mul 0 d x = ofSignMag (signBit d ^^ signBit x) 0 :=
    mul32_of_isZero (isFinite_of_isZero hd) hx (.inl hd)
  have hzero := isZero_ofSignMag (signBit d ^^ signBit x)
  have hK : isFinite shapingK = true ∧ signBit shapingK = false := by decide
  rw [shapeSample, hprod, Fp.mul, mul32_of_isZero (isFinite_of_isZero hzero) hK.1 (.inl hzero),
    signBit_ofSignMag _ (by norm_num), hK.2, Bool.xor_false, tanh32_ofSignMag_zero]

/-- A zero drive and a sample that is not finite: the first product is a NaN, the second keeps it one, and so does
the hyperbolic tangent (T5). -/
theorem isNaN_shapeSample_of_isZero (hnan : ∀ site, isNaN (e.nan site) = true) (hd : isZero d = true)
    (hx : isFinite x = false) : isNaN (shapeSample e d x) = true := by
  have hprod : isNaN (e.mul 0 d x) = true := by
    rw [Fp.mul, mul32_of_isZero_of_not_finite (hnan 0) (.inl ⟨hd, hx⟩)]
    exact hnan 0
  refine Config.tanhFunction.nan _ ?_
  rw [Fp.mul, mul32_of_isNaN (hnan 1) (.inl hprod)]
  exact hnan 1

end

end Sys2Proof.Machine

open Sys2Proof Sys2Proof.Machine

/-- Settles O25: SHAPE rewrites each word of the block from itself, and no other byte. -/
theorem shapeWaveshapesChannelInPlace : Obligations.ShapeWaveshapesChannelInPlace :=
  ⟨decodeMicro_shapeWord, fun s c => ⟨_, rfl, rfl, fun _ hi => State.word?_mapBuf s c _ hi,
    fun _ ha => State.byte?_mapBuf_of_outside s c _ ha⟩⟩

/-- Settles O26, by what SHAPE leaves where the sample stood and whether the sample is finite. -/
theorem driveZeroSilencesFiniteSamples : Obligations.DriveZeroSilencesFiniteSamples := by
  intro s t c i x hd hexec hi hw
  refine ⟨_, word?_of_exec_shape hexec hi hw, fun hx => ?_, isNaN_shapeSample_of_isZero (s.isNaN_fp_nan i) hd⟩
  rw [shapeSample_of_isZero hd hx]
  exact ⟨isZero_ofSignMag _, signBit_ofSignMag _ (by norm_num)⟩
end

section
/-! Proofs of the family 42_filter_stage.md: sums with a representable result are exact; the cutoffs lie on a grid on
which nearby ones have such a difference; what UPD does on either side of its test; and what RUN leaves. -/

namespace Sys2Proof.Machine

/-! ## Representable magnitudes -/

/-- A significand of at most 24 bits in any place is the magnitude of a word. -/
theorem exists_unitsOfMag_eq {n : Nat} (k : Nat) (hn : n < 2 ^ 24) : ∃ m, unitsOfMag m = n * 2 ^ k := by
  induction k generalizing n with
  | zero => exact ⟨_, unitsOfMag_scaled hn.le (.inl rfl)⟩
  | succ k ih =>
    rcases Nat.lt_or_ge n (2 ^ 23) with h | h
    · obtain ⟨m, hm⟩ := ih (n := 2 * n) (by omega)
      exact ⟨m, by rw [hm, pow_succ]; ring⟩
    · exact ⟨_, unitsOfMag_scaled hn.le (.inr h)⟩

theorem unitsOfMag_minNormalMag : unitsOfMag minNormalMag = 2 ^ 23 := by decide

/-- A magnitude that is a multiple of `2^23` units is zero or that of a normal value. -/
theorem isSubnormal_of_dvd {v : F32} {k : Nat} (hk : 23 ≤ k) (h : 2 ^ k ∣ magUnits v) : isSubnormal v = false := by
  cases hz : isZero v with
  | true => exact isSubnormal_of_isZero hz
  | false =>
    have hle : 2 ^ 23 ≤ magUnits v := Nat.le_of_dvd (magUnits_pos hz) ((pow_dvd_pow 2 hk).trans h)
    rw [magUnits_eq, ← unitsOfMag_minNormalMag, unitsOfMag_strictMono.le_iff_le] at hle
    exact decide_eq_false fun hsub => Nat.not_lt.2 hle hsub.2

theorem units_abs32 (v : F32) : units (abs32 v) = |units v| := by
  rw [Int.abs_eq_natAbs, natAbs_units, units, signBit_abs32, magUnits_eq, magBits_abs32, ← magUnits_eq]
  rfl

/-! ## Sums with a representable result -/

section
variable {flush : Bool} {nan a b : F32}

/-- Operands that are no subnormal are added as without flushing. -/
theorem add32_eq_flushSub (ha : isSubnormal a = false) (hb : isSubnormal b = false) :
    add32 flush nan a b = flushSub flush (add32 false nan a b) := by
  simp only [add32, flushSub_eq (.inl ha), flushSub_eq (.inl hb), flushSub_eq (.inr (rfl : false = false))]

/-- A sum whose magnitude is that of a finite word is exact. -/
theorem units_add32_of_representable {c : Nat} (ha : isFinite a = true) (hb : isFinite b = true)
    (hc : (units a + units b).natAbs = unitsOfMag c) (hlt : c < infMag) :
    isFinite (add32 false nan a b) = true ∧ units (add32 false nan a b) = units a + units b := by
  have hlt' : c < 2 ^ 31 := hlt.trans (by decide)
  rw [add32_eq_of_isFinite nan ha hb, hc]
  generalize units a + units b = z at hc ⊢
  split
  · next hz =>
    have h0 := isZero_ofSignMag (signBit a && signBit b)
    exact ⟨isFinite_of_isZero h0, by rw [units_of_isZero h0, hz]⟩
  · have hround : roundMag (unitsOfMag c) 1 = c := by simpa using roundMag_exact Nat.one_pos hlt.le
    rw [hround, isFinite_ofSignMag _ hlt', units_ofSignMag _ hlt', ← hc]
    refine ⟨decide_eq_true hlt, ?_⟩
    simp only [decide_eq_true_eq]
    split <;> omega

end

/-! ## The grid of the cutoffs -/

/-- From 20.0 on every value is a multiple of `2^130` units, the last place of 20.0. -/
theorem dvd_magUnits_of_twenty_le {v : F32} (h : le32 twenty v = true) : 2 ^ 130 ∣ magUnits v := by
  obtain ⟨-, -, hkey⟩ := (le32_iff _ _).1 h
  have h20 : orderKey twenty = 0x41A00000 := by decide
  have hmag : 0x41A00000 ≤ magBits v := by
    rw [h20, orderKey] at hkey
    split at hkey <;> omega
  rw [magUnits_eq, unitsOfMag, if_neg (by omega)]
  exact Dvd.dvd.mul_left (pow_dvd_pow 2 (by omega)) _

/-- A cutoff is finite. -/
theorem isFinite_of_cutoff {v : F32} (hlo : le32 twenty v = true) (hhi : le32 v twentyThousand = true) :
    isFinite v = true := by
  have hlo := ((le32_iff _ _).1 hlo).2.2
  have hhi := ((le32_iff _ _).1 hhi).2.2
  have h20 : orderKey twenty = 0x41A00000 := by decide
  have h20000 : orderKey twentyThousand = 0x469C4000 := by decide
  have hi : infMag = 0x7F800000 := rfl
  have := magBits_of_orderKey (v := v) (n := 0x469C4000) (by omega) (by omega)
  exact decide_eq_true (by omega)

section
variable {flush : Bool} {nan t cached : F32}

/-- R111: a difference of at most 3 on the grid of the cutoffs takes fewer than 24 bits, so it is exact. -/
theorem sub32_cutoffs_exact (ht : le32 twenty t = true) (ht' : le32 t twentyThousand = true)
    (hc : le32 twenty cached = true) (hc' : le32 cached twentyThousand = true)
    (hnear : |units t - units cached| ≤ 3 * 2 ^ 149) :
    isFinite (sub32 flush nan t cached) = true ∧
      units (sub32 flush nan t cached) = units t - units cached := by
  have gridT := dvd_magUnits_of_twenty_le ht
  have gridC := dvd_magUnits_of_twenty_le hc
  have grid : 2 ^ 130 ∣ (units t - units cached).natAbs := by
    rw [← natAbs_units] at gridT gridC
    exact Int.natCast_dvd.1 (dvd_sub (Int.natCast_dvd.2 gridT) (Int.natCast_dvd.2 gridC))
  obtain ⟨n, hn⟩ := grid
  have hlt : n < 2 ^ 24 := by
    rw [Int.abs_eq_natAbs, hn] at hnear
    omega
  obtain ⟨c, hcn⟩ := exists_unitsOfMag_eq 130 hlt
  have hsum : (units t + units (neg32 cached)).natAbs = unitsOfMag c := by
    rw [units_neg32, ← sub_eq_add_neg, hn, hcn, Nat.mul_comm]
  have hinf : c < infMag := by
    rw [← unitsOfMag_strictMono.lt_iff_lt, unitsOfMag_infMag.2, hcn]
    omega
  obtain ⟨hfin, hunits⟩ := units_add32_of_representable (nan := nan) (isFinite_of_cutoff ht ht')
    (by rw [isFinite_neg32]; exact isFinite_of_cutoff hc hc') hsum hinf
  have gridC' : 2 ^ 130 ∣ magUnits (neg32 cached) := by rwa [magUnits_eq, magBits_neg32]
  have gridSum : 2 ^ 130 ∣ magUnits (add32 false nan t (neg32 cached)) := by
    rw [← natAbs_units, hunits, hsum, hcn]
    exact Nat.dvd_mul_left _ _
  have normal : ∀ {v : F32}, 2 ^ 130 ∣ magUnits v → isSubnormal v = false := isSubnormal_of_dvd (by norm_num)
  rw [sub32, add32_eq_flushSub (normal gridT) (normal gridC'), flushSub_eq (.inl (normal gridSum)), hunits, units_neg32]
  exact ⟨hfin, rfl⟩

/-- R111: near the threshold the test is the real comparison. -/
theorem hysteresis_iff (ht : le32 twenty t = true) (ht' : le32 t twentyThousand = true)
    (hc : le32 twenty cached = true) (hc' : le32 cached twentyThousand = true)
    (hnear : |units t - units cached| ≤ 3 * 2 ^ 149) :
    lt32 one (abs32 (sub32 flush nan t cached)) = true ↔ 2 ^ 149 < |units t - units cached| := by
  obtain ⟨hfin, hunits⟩ := sub32_cutoffs_exact (flush := flush) (nan := nan) ht ht' hc hc' hnear
  rw [lt32_iff_units (by decide) (by rw [isNaN_abs32]; exact isNaN_of_isFinite hfin), units_abs32, hunits, units_one]

end

/-! ## UPD k (R110) -/

/-- The words 0x50 and 0x58 are the UPDs (R80). -/
theorem decodeMicro_updWord (k : Kind) : decodeMicro (0x50#8 ||| BitVec.ofNat 8 (k.index <<< 3)) = .ok (.upd k) := by
  cases k <;> decide

section
variable {s : State} {k : Kind}

theorem exec_upd_of_moved (h : cutoffMoved (s.fp 0) (targetCutoff k s) (s.cached.get k) = true) :
    exec (.upd k) s = .next (State.retire
      { s with
        coef := s.coef.set k (Config.design k (targetCutoff k s) s.sr)
        cached := s.cached.set k (targetCutoff k s) }) := by
  simp only [exec, execUpd, h, if_true]

theorem exec_upd_of_near (h : cutoffMoved (s.fp 0) (targetCutoff k s) (s.cached.get k) = false) :
    exec (.upd k) s = .next s.retire := by
  simp only [exec, execUpd, h, Bool.false_eq_true, if_false]

/-- What UPD leaves on either side of its test, and that it changes no more. -/
theorem exec_upd_spec (s : State) (k : Kind) :
    ∃ t, exec (.upd k) s = .next t ∧
      t = { s with coef := t.coef, cached := t.cached, seq := s.seq.tail, draws := s.draws + 1 } ∧
      (∀ k', k' ≠ k → t.coef.get k' = s.coef.get k' ∧ t.cached.get k' = s.cached.get k') ∧
      (cutoffMoved (s.fp 0) (targetCutoff k s) (s.cached.get k) = true →
        t.coef.get k = Config.design k (targetCutoff k s) s.sr ∧ t.cached.get k = targetCutoff k s) ∧
      (cutoffMoved (s.fp 0) (targetCutoff k s) (s.cached.get k) = false →
        t.coef.get k = s.coef.get k ∧ t.cached.get k = s.cached.get k) := by
  cases hm : cutoffMoved (s.fp 0) (targetCutoff k s) (s.cached.get k) with
  | false => exact ⟨_, exec_upd_of_near hm, rfl, fun _ _ => ⟨rfl, rfl⟩, nofun, fun _ => ⟨rfl, rfl⟩⟩
  | true =>
    exact ⟨_, exec_upd_of_moved hm, rfl, fun _ hk => ⟨PerKind.get_set_ne _ _ hk, PerKind.get_set_ne _ _ hk⟩,
      fun _ => ⟨PerKind.get_set_self _ _ _, PerKind.get_set_self _ _ _⟩, nofun⟩

/-- The target depends on the snapshot only. -/
theorem targetCutoff_congr {s' : State} (h : s'.snap = s.snap) : targetCutoff k s' = targetCutoff k s := by
  rw [targetCutoff, targetCutoff, h]

/-- A target that is a number is a cutoff (R113). -/
theorem le32_targetCutoff (h : isNaN (targetCutoff k s) = false) :
    le32 twenty (targetCutoff k s) = true ∧ le32 (targetCutoff k s) twentyThousand = true :=
  le32_clamp32 h (by decide)

end

/-! ### The second UPD (R112) -/

/-- The free values do not decide the test: it fails whichever NaN the difference is. -/
theorem cutoffMoved_congr (s s' : State) (t cached : F32) :
    cutoffMoved (s.fp 0) t cached = cutoffMoved (s'.fp 0) t cached := by
  have fails : ∀ u : State, lt32 one (abs32 (flushSub Config.flushSubnormals ((u.fp 0).nan 0))) = false := fun u => by
    have hn := u.isNaN_fp_nan 0 0
    rw [flushSub_of_isNaN hn]
    exact (lt32_le32_of_isNaN (.inr (by rwa [isNaN_abs32]))).1
  simp only [cutoffMoved, Fp.sub, sub32, State.fp_flush]
  rcases add32_nan_irrelevant (flush := Config.flushSubnormals) (nan := (s.fp 0).nan 0) (nan' := (s'.fp 0).nan 0)
    (a := t) (b := neg32 cached) with h | ⟨h, h'⟩
  · rw [h]
  · rw [h, h', fails, fails]

/-- The test fails at the distance 0, on a target that passed it before. -/
theorem cutoffMoved_self {s : State} (s' : State) {k : Kind} {cached : F32}
    (h : cutoffMoved (s.fp 0) (targetCutoff k s) cached = true) :
    cutoffMoved (s'.fp 0) (targetCutoff k s) (targetCutoff k s) = false := by
  obtain ⟨hlo, hhi⟩ := le32_targetCutoff (isNaN_of_cutoffMoved h)
  rw [← Bool.not_eq_true, cutoffMoved, Fp.sub, hysteresis_iff hlo hhi hlo hhi (by simp)]
  simp

/-- After UPD k the test fails for the target it has just seen, from any state. -/
theorem cutoffMoved_after_upd {s t : State} (s' : State) {k : Kind} (h : exec (.upd k) s = .next t) :
    cutoffMoved (s'.fp 0) (targetCutoff k t) (t.cached.get k) = false := by
  obtain ⟨t', h', frame, -, moved, near⟩ := exec_upd_spec s k
  obtain rfl : t' = t := Host.Outcome.next.inj (h'.symm.trans h)
  have hsnap : t'.snap = s.snap := by rw [frame]
  rw [targetCutoff_congr hsnap]
  cases hm : cutoffMoved (s.fp 0) (targetCutoff k s) (s.cached.get k) with
  | false => rw [(near hm).2, cutoffMoved_congr s' s, hm]
  | true => rw [(moved hm).2, cutoffMoved_self s' hm]

/-! ## RUN k,c (R114) -/

/-- The words 0x60, 0x61, 0x68 and 0x69 are the RUNs (R80). -/
theorem decodeMicro_runWord (k : Kind) (c : Chan) :
    decodeMicro (0x60#8 ||| BitVec.ofNat 8 (k.index <<< 3) ||| BitVec.ofNat 8 c.index) = .ok (.run k c) := by
  cases k <;> cases c <;> decide

/-- Every delay memory but one keeps its value when that one is set. -/
theorem dly_get_set_ne {α : Type} (dly : PerKind (PerChan α)) {k k' : Kind} {c c' : Chan} (d : α)
    (h : (k', c') ≠ (k, c)) : ((dly.set k ((dly.get k).set c d)).get k').get c' = (dly.get k').get c' := by
  by_cases hk : k' = k
  · subst hk
    have hc : c' ≠ c := fun hc => h (by rw [hc])
    rw [PerKind.get_set_self, PerChan.get_set_ne _ _ hc]
  · rw [PerKind.get_set_ne _ _ hk]

end Sys2Proof.Machine

open Sys2Proof Sys2Proof.Machine

/-- Settles O29: on the cutoffs' grid of `2^-19` a difference of at most 3 is representable. -/
theorem hysteresisComparesExactly : Obligations.HysteresisComparesExactly := fun _ _ _ _ ht ht' hc hc' hnear =>
  ⟨(sub32_cutoffs_exact ht ht' hc hc' hnear).2, hysteresis_iff ht ht' hc hc' hnear⟩

/-- Settles O30: the first UPD leaves a cached cutoff for which the test fails, whatever the free values are. -/
theorem secondUpdNeverRecomputes : Obligations.SecondUpdNeverRecomputes := by
  intro s t u u' k h hsnap hcached h'
  have near : cutoffMoved (u.fp 0) (targetCutoff k u) (u.cached.get k) = false := by
    rw [targetCutoff_congr hsnap, hcached]
    exact cutoffMoved_after_upd u h
  rw [exec_upd_of_near near] at h'
  cases h'
  exact ⟨rfl, rfl⟩

/-- Settles O31: the loop of RUN is the recursion, and it writes its own channel's words and delay memory. -/
theorem runFollowsRecurrence : Obligations.RunFollowsRecurrence := by
  refine ⟨fun _ _ _ _ => ⟨rfl, rfl⟩, decodeMicro_runWord, fun s k c => ?_⟩
  obtain ⟨t, h⟩ := exec_next (.run k c) s
  obtain ⟨hdly, hwords⟩ := run_recursion h
  refine ⟨t, h, ?_, hwords, fun a ha => byte?_exec_of_outside h ?_, hdly, ?_⟩
  · cases h
    rfl
  · rintro _ ⟨⟩
    exact ha
  · cases h
    exact fun _ _ => dly_get_set_ne _ _

/-- Settles O28, by the outcome of the test; the parameter of each kind is the one of R109. -/
theorem updRedesignsBeyondOneHertz : Obligations.UpdRedesignsBeyondOneHertz := by
  refine ⟨decodeMicro_updWord, fun s k => ?_⟩
  cases k with
  | lp => exact exec_upd_spec s .lp
  | hp => exact exec_upd_spec s .hp
end

section
/-! Proofs of the family 43_mixer.md: what MIX writes and leaves unchanged, and its samples where mix is a zero. -/

namespace Sys2Proof.Machine

/-- The words 0x70 and 0x71 are the MIXes (R80). -/
theorem decodeMicro_mixWord (c : Chan) : decodeMicro (0x70#8 ||| BitVec.ofNat 8 c.index) = .ok (.mix c) := by
  cases c <;> decide

/-- What MIX leaves where a written wet word stood. -/
theorem word?_of_exec_mix {s t : State} {c : Chan} {i : Nat} {dry wet : F32} (h : exec (.mix c) s = .next t)
    (hi : i < s.cur.len) (hdry : s.dry.word? (dryIndex c i) = some dry)
    (hwet : s.buf.word? (bufOffset c i) = some wet) :
    t.buf.word? (bufOffset c i) =
      some (mixSample (s.fp i) s.snap.mix (dryWeight (s.fp 0) s.snap.mix) dry wet) := by
  cases h
  rw [State.buf_retire, State.word?_mapBuf s c _ hi, State.bufWord_of_written hwet, State.dryWord_of_written hdry]

/-- Adding a zero of a given sign: only -0.0 with +0.0 is not the first operand. -/
theorem add32_ofSignMag_zero {flush : Bool} {nan v : F32} (b : Bool) (hv : isNaN v = false)
    (h : isSubnormal v = false ∨ flush = false) :
    add32 flush nan v (ofSignMag b 0) = if v = minusZero ∧ b = false then plusZero else v := by
  cases hz : isZero v with
  | false =>
    have hne : v ≠ minusZero := by
      rintro rfl
      cases hz
    rw [add32_zero hv hz (isZero_ofSignMag b) h, if_neg fun h => hne h.1]
  | true =>
    rw [add32_zeros hz (isZero_ofSignMag b), signBit_ofSignMag _ (by norm_num)]
    rcases isZero_cases hz with rfl | rfl <;> cases b <;> decide

section
variable {e : Fp} {m mc dry wet : F32}

/-- The weight of the dry word is 1.0 where mix is a zero. -/
theorem dryWeight_of_isZero (hm : isZero m = true) : dryWeight e m = one := sub32_one_zero hm

/-- A zero mix and a finite wet word: the dry word, weighted by 1.0, plus a zero of the sign of `wet * m`. -/
theorem mixSample_of_isZero (hm : isZero m = true) (hwet : isFinite wet = true) (hdry : isNaN dry = false)
    (h : isSubnormal dry = false ∨ e.flush = false) :
    mixSample e m one dry wet =
      if dry = minusZero ∧ (signBit wet ^^ signBit m) = false then plusZero else dry := by
  have dryPart : e.mul 0 dry one = dry := mul32_one hdry h
  have wetPart : e.mul 1 wet m = ofSignMag (signBit wet ^^ signBit m) 0 :=
    mul32_of_isZero hwet (isFinite_of_isZero hm) (.inr hm)
  rw [mixSample, dryPart, wetPart, Fp.add, add32_ofSignMag_zero _ hdry h]

/-- A NaN of either product reaches the sum. -/
theorem isNaN_mixSample (hnan : ∀ site, isNaN (e.nan site) = true)
    (h : isNaN (e.mul 0 dry mc) = true ∨ isNaN (e.mul 1 wet m) = true) : isNaN (mixSample e m mc dry wet) = true := by
  rw [mixSample, Fp.add, add32_of_isNaN (hnan 2) h]
  exact hnan 2

theorem isNaN_mixSample_of_dry (hnan : ∀ site, isNaN (e.nan site) = true) (hdry : isNaN dry = true) :
    isNaN (mixSample e m mc dry wet) = true := by
  refine isNaN_mixSample hnan (.inl ?_)
  rw [Fp.mul, mul32_of_isNaN (hnan 0) (.inl hdry)]
  exact hnan 0

/-- A wet word that is not finite times a zero mix is a NaN. -/
theorem isNaN_mixSample_of_wet (hnan : ∀ site, isNaN (e.nan site) = true) (hm : isZero m = true)
    (hwet : isFinite wet = false) : isNaN (mixSample e m mc dry wet) = true := by
  refine isNaN_mixSample hnan (.inr ?_)
  rw [Fp.mul, mul32_of_isZero_of_not_finite (hnan 1) (.inr ⟨hwet, hm⟩)]
  exact hnan 1

end

end Sys2Proof.Machine

open Sys2Proof Sys2Proof.Machine

/-- Settles O33: MIX rewrites each word of the block from itself and its dry word, and no other byte. -/
theorem mixBlendsDryAndWet : Obligations.MixBlendsDryAndWet :=
  ⟨decodeMicro_mixWord, fun s c => ⟨_, rfl, rfl, fun _ hi => State.word?_mapBuf s c _ hi,
    fun _ ha => State.byte?_mapBuf_of_outside s c _ ha⟩⟩

/-- Settles O34: a zero mix weighs the dry word by 1.0 and a finite wet word to a zero, which the sum keeps apart
from the dry word only at -0.0; a NaN of either product reaches the sum. -/
theorem mixZeroReturnsDryWord : Obligations.MixZeroReturnsDryWord := by
  intro s t c i dry wet hm hexec hi hdry hwet
  have hword := word?_of_exec_mix hexec hi hdry hwet
  rw [dryWeight_of_isZero hm] at hword
  refine ⟨fun hfin hnum hsub => ?_, fun _ hnan => ⟨_, hword, isNaN_mixSample_of_dry (s.isNaN_fp_nan i) hnan⟩,
    fun hinf => ⟨_, hword, isNaN_mixSample_of_wet (s.isNaN_fp_nan i) hm hinf⟩⟩
  rw [hword, mixSample_of_isZero hm hfin hnum hsub]
  exact apply_ite some _ _ _
end

section
/-! Proofs of the family 44_output_stage.md: what GAINCALC and GAIN leave, and GAIN's samples at GLIN = 1.0. -/

namespace Sys2Proof.Machine

/-- The words 0x90 and 0x91 are the GAINs (R80). -/
theorem decodeMicro_gainWord (c : Chan) : decodeMicro (0x90#8 ||| BitVec.ofNat 8 c.index) = .ok (.gain c) := by
  cases c <;> decide

/-- What GAIN leaves where a written word stood. -/
theorem word?_of_exec_gain {s t : State} {c : Chan} {i : Nat} {x : F32} (h : exec (.gain c) s = .next t)
    (hi : i < s.cur.len) (hx : s.buf.word? (bufOffset c i) = some x) :
    t.buf.word? (bufOffset c i) = some (gainSample (s.fp i) s.glin x) := by
  cases h
  rw [State.buf_retire, State.word?_mapBuf s c _ hi, State.bufWord_of_written hx]

section
variable {e : Fp} {x : F32}

/-- 1.0 is the unit of the product, but for a subnormal word that is flushed (R127). -/
theorem gainSample_one (hx : isNaN x = false) (h : isSubnormal x = false ∨ e.flush = false) :
    gainSample e one x = x := mul32_one hx h

/-- No gain turns a NaN into a number. -/
theorem isNaN_gainSample (hnan : ∀ site, isNaN (e.nan site) = true) (g : F32) (hx : isNaN x = true) :
    isNaN (gainSample e g x) = true := by
  rw [gainSample, Fp.mul, mul32_of_isNaN (hnan 0) (.inl hx)]
  exact hnan 0

end

end Sys2Proof.Machine

open Sys2Proof Sys2Proof.Machine

/-- Settles O37: GAIN rewrites each word of the block from itself, and no other byte. -/
theorem gainScalesChannelInPlace : Obligations.GainScalesChannelInPlace :=
  ⟨decodeMicro_gainWord, fun s c => ⟨_, rfl, rfl, fun _ hi => State.word?_mapBuf s c _ hi,
    fun _ ha => State.byte?_mapBuf_of_outside s c _ ha⟩⟩

/-- Settles O38, by what GAIN leaves where the sample stood and whether the sample is a NaN. -/
theorem unityGainKeepsSamples : Obligations.UnityGainKeepsSamples := by
  intro s t c i x hg hexec hi hx
  have hword := word?_of_exec_gain hexec hi hx
  refine ⟨fun hnum hsub => ?_, fun hnan => ⟨_, hword, isNaN_gainSample (s.isNaN_fp_nan i) s.glin hnan⟩⟩
  rw [hword, hg]
  exact congrArg some (gainSample_one hnum hsub)

/-- Settles O35: GAINCALC's own equation, its quotient drawn at the first site of the micro-op. -/
theorem gainCalcConvertsDecibels : Obligations.GainCalcConvertsDecibels :=
  ⟨by decide, fun _ => rfl⟩
end

section
/-! Proofs of the family 45_pipeline.md, the commands and the pipeline's own micro-ops: a raised fault as the only
effect of its step; the checks of PROCESS_BLOCK; what PREP, SILENCE, DRYCOPY and END leave; and the run of a command
to its end. -/

namespace Sys2Proof.Machine

/-! ## A step that raises a fault (R152) -/

/-- An instruction that raises a fault does nothing else. -/
theorem eq_raise_of_exec {i : Instr} {s t : State} (hf : s.fault = none) (h : exec i s = .next t)
    (ht : t.fault ≠ none) : ∃ code detail, t = s.raise code detail := by
  cases exec_leaves h with
  | raised _ code detail _ => exact ⟨code, detail, rfl⟩
  | _ => exact absurd hf ht

/-- A bus access that raises a fault does nothing else. -/
theorem AccessLeaves.eq_raise {x : Access} {s t : State} (hf : s.fault = none) (h : AccessLeaves x s t)
    (ht : t.fault ≠ none) : ∃ code detail, t = s.raise code detail := by
  cases h with
  | raised code detail _ => exact ⟨code, detail, rfl⟩
  | _ => exact absurd hf ht

/-- A step that raises a fault takes its turn and does nothing else. -/
theorem eq_raise_of_step {s t : State} (hf : s.fault = none) (h : step s = .next t) (ht : t.fault ≠ none) :
    ∃ rest agent code detail, t = (s.onTurn rest agent).raise code detail := by
  cases step_takes h with
  | reset rest _ leaves =>
    subst leaves
    exact absurd rfl ht
  | access writer x rest _ _ leaves => exact ⟨rest, busAgent writer, leaves.eq_raise hf ht⟩
  | command writer x rest w i _ _ _ _ _ _ _ runs => exact ⟨rest, busAgent writer, eq_raise_of_exec hf runs ht⟩
  | micro rest u tl i _ _ _ _ _ runs => exact ⟨rest, .sequencer, eq_raise_of_exec hf runs ht⟩
  | idle rest _ _ _ leaves =>
    subst leaves
    exact absurd hf ht

/-- With FAULT set no agent has a step (R152). -/
theorem step_of_fault {s : State} {f : FaultRecord} (hf : s.fault = some f) (hn : ∀ rest, s.turns ≠ .reset :: rest) :
    step s = .fault (.quiescent f) := by
  cases hturns : s.turns with
  | nil => simp only [step, fetch, hturns, fetchMicroOp, hf]
  | cons turn rest =>
    cases turn with
    | reset => exact absurd hturns (hn rest)
    | host x | paramWriter x => simp only [step, fetch, hturns, fetchAccess, hf]
    | sequencer => simp only [step, fetch, hturns, fetchMicroOp, hf]

/-! ## The input words of a block (R133) -/

theorem unwrittenIn_eq_some {m : Memory} {c : Chan} {len a : Nat} (h : unwrittenIn m c len = some a) :
    ∃ i, i < len ∧ a = bufOffset c i ∧ m.word? (bufOffset c i) = none := by
  obtain ⟨i, hi, rfl⟩ := List.mem_map.1 (List.mem_of_find?_eq_some h)
  exact ⟨i, List.mem_range.1 hi, rfl, by simpa using List.find?_some (p := fun a => (m.word? a).isNone) h⟩

theorem unwrittenIn_eq_none_iff {m : Memory} {c : Chan} {len : Nat} :
    unwrittenIn m c len = none ↔ ∀ i, i < len → m.word? (bufOffset c i) ≠ none := by
  simp [unwrittenIn]

/-- The word the check finds is an input word that is unwritten. -/
theorem unwrittenInput_eq_some {m : Memory} {nin len a : Nat} (h : unwrittenInput m nin len = some a) :
    ∃ c i, c.index < nin ∧ i < len ∧ a = bufOffset c i ∧ m.word? (bufOffset c i) = none := by
  obtain ⟨c, hc, hfind⟩ := List.exists_of_findSome?_eq_some h
  exact ⟨c, (unwrittenIn_eq_some hfind).imp fun _ hi => ⟨((mem_channels _ _ c).1 hc).2, hi⟩⟩

/-- The check finds no word exactly when all are written. -/
theorem unwrittenInput_eq_none_iff {s : State} {nin len : Nat} :
    unwrittenInput s.buf nin len = none ↔ s.inputsWritten nin len := by
  simp only [unwrittenInput, List.findSome?_eq_none_iff, mem_channels, unwrittenIn_eq_none_iff, State.inputsWritten,
    Nat.zero_le, true_and]

/-! ## PROCESS_BLOCK (R133) -/

section
variable {s : State} {nin nout len : Nat}

theorem legalChannelCount_and_iff :
    (legalChannelCount nin && legalChannelCount nout) = true ↔ (nin = 1 ∨ nin = 2) ∧ (nout = 1 ∨ nout = 2) := by
  rw [Bool.and_eq_true, legalChannelCount_iff, legalChannelCount_iff]

theorem exec_processBlock_of_unprepared (hm : s.mode = .unprepared) :
    exec (.processBlock nin nout len) s =
      .next (s.raise .unpreparedProcess (.command (Instr.processBlock nin nout len).word)) := by
  simp only [exec, execProcessBlock, hm, if_true]

theorem exec_processBlock_of_illegal (hm : s.mode = .prepared)
    (hc : ¬((nin = 1 ∨ nin = 2) ∧ (nout = 1 ∨ nout = 2))) :
    exec (.processBlock nin nout len) s =
      .next (s.raise .channelConfig (.command (Instr.processBlock nin nout len).word)) := by
  rw [← legalChannelCount_and_iff, Bool.not_eq_true] at hc
  simp only [exec, execProcessBlock, hm, hc, reduceCtorEq, Bool.not_false, if_false, if_true]

theorem exec_processBlock_of_tooLong (hm : s.mode = .prepared) (hc : (nin = 1 ∨ nin = 2) ∧ (nout = 1 ∨ nout = 2))
    (hl : 8192 < len) :
    exec (.processBlock nin nout len) s =
      .next (s.raise .blockTooLong (.command (Instr.processBlock nin nout len).word)) := by
  have hl : maxBlockLen < len := hl
  simp only [exec, execProcessBlock, hm, legalChannelCount_and_iff.2 hc, hl, reduceCtorEq, Bool.not_true,
    Bool.false_eq_true, if_false, if_true]

/-- Where the checks of mode, channels and length pass, the input words decide. -/
theorem exec_processBlock_of_legal (hm : s.mode = .prepared) (hc : (nin = 1 ∨ nin = 2) ∧ (nout = 1 ∨ nout = 2))
    (hl : len ≤ 8192) :
    (∀ a, unwrittenInput s.buf nin len = some a →
      exec (.processBlock nin nout len) s = .next (s.raise .unwrittenRead (.offset a))) ∧
    (unwrittenInput s.buf nin len = none →
      exec (.processBlock nin nout len) s = .next
        { s with
          cur := { nin := nin, nout := nout, len := len }, busy := true,
          seq := sequenceWords (blockSequence nin nout) }) := by
  have hl : ¬maxBlockLen < len := Nat.not_lt.2 hl
  refine ⟨fun a ha => ?_, fun ha => ?_⟩ <;>
    simp only [exec, execProcessBlock, hm, legalChannelCount_and_iff.2 hc, hl, ha, reduceCtorEq, Bool.not_true,
      Bool.false_eq_true, if_false]

end

/-! ## The pipeline's own micro-ops -/

/-- The words 0x10 and 0x11 are the SILENCEs (R80). -/
theorem decodeMicro_silenceWord (c : Chan) : decodeMicro (0x10#8 ||| BitVec.ofNat 8 c.index) = .ok (.silence c) := by
  cases c <;> decide

/-- The words 0x30 and 0x31 are the DRYCOPYs (R80). -/
theorem decodeMicro_dryCopyWord (c : Chan) : decodeMicro (0x30#8 ||| BitVec.ofNat 8 c.index) = .ok (.dryCopy c) := by
  cases c <;> decide

/-- What DRYCOPY leaves where a written word stands. -/
theorem word?_of_exec_dryCopy {s t : State} {c : Chan} {i : Nat} {x : F32} (h : exec (.dryCopy c) s = .next t)
    (hi : i < s.cur.len) (hx : s.buf.word? (bufOffset c i) = some x) : t.dry.word? (dryIndex c i) = some x := by
  cases h
  rw [State.dry_retire, Memory.word?_mapWords (dryIndex_spaced c) _ hi, State.bufWord_of_written hx]

/-- END stands at the head of SEQ only where it is the last word. -/
theorem State.seqInProgress.tail_eq_nil {s : State} {tl : List MicroWord} (h : s.seqInProgress)
    (hs : s.seq = 0x00#8 :: tl) : tl = [] := by
  cases hb : s.busy with
  | true =>
    obtain ⟨ws, hend, hsuf, -⟩ := h.sequence hb
    exact (hend.head_eq_iff (hs ▸ hsuf)).1 rfl
  | false => simp [State.seqInProgress, hb, hs] at h

theorem EndsWithEnd.getLast? {ws : List MicroWord} (h : EndsWithEnd ws) : ws.getLast? = some 0x00#8 := by
  rw [h.1, List.getLast?_concat]

/-- STATUS of an idle prepared machine. -/
theorem statusWord_idle {s : State} (hm : s.mode = .prepared) (hb : s.busy = false) : statusWord s = 0x00000001#32 := by
  simp only [statusWord, busyBit, preparedBit, hm, hb]
  decide

/-! ## An empty block (R145) -/

@[simp] theorem PerKind.set_get {α : Type} (t : PerKind α) (k : Kind) : t.set k (t.get k) = t := by cases k <;> rfl
@[simp] theorem PerChan.set_get {α : Type} (t : PerChan α) (c : Chan) : t.set c (t.get c) = t := by cases c <;> rfl

theorem exec_of_emptyBlock {i : Instr} {s t : State} (hm : i.isMicroOp = true) (hp : i ≠ .prep) (hl : s.cur.len = 0)
    (h : exec i s = .next t) : t.buf = s.buf ∧ t.dry = s.dry ∧ t.dly = s.dly := by
  cases exec_leaves h with
  | rewritten _ c f _ => simp [State.mapBuf, hl, Memory.mapWords]
  | dryCopy c => simp [hl, Memory.mapWords]
  | run k c r loop =>
    rw [hl] at loop
    subst loop
    simp [filterLoop]
  | prep => exact absurd rfl hp
  | _ => exact ⟨rfl, rfl, rfl⟩

/-! ## A command runs to its end (R147, R189) -/

/-- The sequencer alone will move, from a state without a fault and with every parameter written and in range. -/
structure State.Undisturbed (s : State) : Prop where
  seqInProgress : s.seqInProgress
  fault : s.fault = none
  turns : s.turns = []
  params : s.paramsInRange

/-- Every word of SEQ is a micro-op, and there are at most 23 (R134). -/
theorem State.seqInProgress.words {s : State} (h : s.seqInProgress) :
    (∀ u ∈ s.seq, ∃ i, decodeMicro u = .ok i) ∧ s.seq.length ≤ 23 := by
  have decodes : ∀ is : List Instr, (∀ i ∈ is, i.isMicroOp = true) → s.seq <:+ sequenceWords is →
      ∀ u ∈ s.seq, ∃ i, decodeMicro u = .ok i := fun is his hs u hu => by
    obtain ⟨i, hi, rfl⟩ := List.mem_map.1 (hs.subset hu)
    exact ⟨i, decodeMicro_seqWord (his i hi)⟩
  obtain ⟨-, hs⟩ | ⟨-, -, hs | ⟨⟨hin, hout, -⟩, hs⟩⟩ := h
  · simp [hs]
  · exact ⟨decodes _ (by decide) hs, hs.length_le.trans (by decide)⟩
  · refine ⟨decodes _ (fun i hi => (blockSequence_channels hin hout i hi).1) hs, hs.length_le.trans ?_⟩
    rcases legalChannelCount_iff.1 hin with hin | hin <;> rcases legalChannelCount_iff.1 hout with hout | hout <;>
      rw [hin, hout] <;> decide

/-- With the parameters in range no micro-op raises a fault. -/
theorem fault_exec_of_paramsInRange {i : Instr} {s t : State} (hm : i.isMicroOp = true) (hp : s.paramsInRange)
    (h : exec i s = .next t) : t.fault = s.fault ∧ t.seq = s.seq.tail := by
  obtain hnext | ⟨-, p, rfl⟩ := exec_micro_retires hm h
  · exact hnext
  · obtain ⟨v, hv, hin⟩ := hp p
    cases (exec_snap_of_inRange hv hin).symm.trans h
    exact ⟨rfl, rfl⟩

/-- Undisturbed, the sequencer performs the next micro-op. -/
theorem State.Undisturbed.step {s : State} (h : s.Undisturbed) (hne : s.seq ≠ []) :
    ∃ t, step s = .next t ∧ t.Undisturbed ∧ t.seq = s.seq.tail := by
  obtain ⟨u, tl, hu⟩ := List.exists_cons_of_ne_nil hne
  have hb : s.busy = true := h.seqInProgress.elim (fun hidle => absurd hidle.2 hne) And.left
  obtain ⟨i, hd⟩ := h.seqInProgress.words.1 u (by simp [hu])
  obtain ⟨t, hexec⟩ := exec_next i (s.onTurn [] .sequencer)
  have hstep : Machine.step s = .next t := (step_of_micro h.fault hb (.inr ⟨h.turns, rfl⟩) hu hd).trans hexec
  obtain ⟨hfault, hseq⟩ := fault_exec_of_paramsInRange (s := s.onTurn [] .sequencer) (decodeMicro_ok hd).1 h.params hexec
  have hparam : t.param = s.param := (eachRegisterHasItsWriters i _ t hexec).1
  refine ⟨t, hstep, ⟨seqInProgress_step h.seqInProgress hstep, hfault.trans h.fault, turns_exec hexec, ?_⟩, hseq⟩
  rw [State.paramsInRange, hparam]
  exact h.params

/-- Undisturbed, a command ends after as many steps as SEQ has words. -/
theorem State.Undisturbed.run {s : State} (h : s.Undisturbed) :
    ∃ t, Host.Core.run Sys2Proof.core s.seq.length s = .next t ∧ t.Undisturbed ∧ t.seq = [] := by
  generalize hw : s.seq = ws
  induction ws generalizing s with
  | nil => exact ⟨s, rfl, h, hw⟩
  | cons u tl ih =>
    obtain ⟨s', hstep, h', hseq⟩ := h.step (by simp [hw])
    obtain ⟨t, hrun, ht⟩ := ih h' (by rw [hseq, hw, List.tail_cons])
    exact ⟨t, (run_succ hstep).trans hrun, ht⟩

theorem State.Undisturbed.endedWell {s : State} (h : s.Undisturbed) (hs : s.seq = []) :
    s.busy = false ∧ s.endedWell := by
  have hb : s.busy = false := by simpa [State.seqInProgress, hs] using h.seqInProgress
  exact ⟨hb, by simp [h.turns], hb, h.fault⟩

/-- The two micro-ops of PREPARE (R132), alone with the sequencer. -/
theorem State.Ready.run_prepare {s : State} (h : s.Ready prepareSequence) :
    ∃ t, Host.Core.run Sys2Proof.core 2 s = .next t ∧ t.mode = .prepared ∧ t.busy = false ∧ t.seq = [] ∧
      t.sr = latchedRate s ∧
      t = { s with
            mode := t.mode, busy := t.busy, seq := t.seq, sr := t.sr, coef := t.coef, cached := t.cached, dly := t.dly,
            actor := t.actor, draws := t.draws } := by
  obtain ⟨u, hprep⟩ := exec_next .prep { s with actor := .sequencer }
  have prepared := (h.step rfl).trans hprep
  have hu : u.Ready [.endCommand] := by
    cases hprep
    exact h.next rfl rfl rfl rfl
  refine ⟨_, (run_succ prepared).trans (run_succ (hu.step rfl)), ?_⟩
  have hseq : u.seq.tail = [] := congrArg List.tail hu.seq
  cases hprep
  exact ⟨rfl, rfl, hseq, rfl, rfl⟩

end Sys2Proof.Machine

open Sys2Proof Sys2Proof.Machine

/-- Settles O18, by whether SAMPLE_RATE is written. -/
theorem prepareLoadsPrepSequence : Obligations.PrepareLoadsPrepSequence := by
  refine ⟨by decide, fun s => ⟨fun fs hfs => ?_, fun hfs => ?_⟩⟩ <;> simp only [exec, execPrepare, hfs]
  rfl

/-- Settles O20, by evaluating the algorithm for the four channel configurations. -/
theorem blockSequencesAreTheTabledWords : Obligations.BlockSequencesAreTheTabledWords := by
  refine ⟨by decide, by decide, ?_⟩
  rintro nout (rfl | rfl) <;> decide

/-- Settles O39, from the state PREP leaves. -/
theorem prepResetsFiltersAndPrepares : Obligations.PrepResetsFiltersAndPrepares := by
  refine ⟨by decide, fun s => ⟨_, rfl, rfl, fun fs hfs => ?_, fun k => ?_, fun k c => ?_⟩⟩
  · exact congrArg (Option.getD · _) hfs
  · cases k <;> exact ⟨rfl, rfl⟩
  · cases k <;> cases c <;> rfl

/-- Settles O8: a raised fault is the record and the turn, and `fetch` looks at FAULT before anything but a reset. -/
theorem raisedFaultFreezesMachine : Obligations.RaisedFaultFreezesMachine := by
  refine ⟨fun s t hf h ht => ?_, fun s code detail hf => State.raise_of_none hf code detail, fun s code detail hf => ?_,
    fun s f => step_of_fault, fun s hf ⟨_, _, hnone⟩ => hf hnone⟩
  · have hturns := turns_step h
    obtain ⟨rest, agent, code, detail, rfl⟩ := eq_raise_of_step hf h ht
    obtain rfl : rest = s.turns.tail := hturns
    rw [State.raise_of_none (s := s.onTurn _ agent) hf]
    exact ⟨rfl, code, detail, rfl⟩
  · obtain ⟨f, hf⟩ := Option.ne_none_iff_exists'.1 hf
    exact State.raise_of_some hf code detail

/-- Settles O19, check by check. -/
theorem processBlockChecksThenLoads : Obligations.ProcessBlockChecksThenLoads := by
  intro s nin nout len hf
  refine ⟨fun hm => ?_, fun hm hc => ?_, fun hm hc hl => ?_, fun hm hc hl hw => ?_, fun hm hc hl hw => ?_⟩
  · rw [exec_processBlock_of_unprepared hm, State.raise_of_none hf]
  · rw [exec_processBlock_of_illegal hm hc, State.raise_of_none hf]
  · rw [exec_processBlock_of_tooLong hm hc hl, State.raise_of_none hf]
  · obtain ⟨a, ha⟩ := Option.ne_none_iff_exists'.1 (mt unwrittenInput_eq_none_iff.1 hw)
    obtain ⟨c, i, hc', hi, rfl, hnone⟩ := unwrittenInput_eq_some ha
    exact ⟨c, i, hc', hi, hnone, by rw [(exec_processBlock_of_legal hm hc hl).1 _ ha, State.raise_of_none hf]⟩
  · exact (exec_processBlock_of_legal hm hc hl).2 (unwrittenInput_eq_none_iff.2 hw)

/-- Settles O40: SILENCE rewrites each word of the block with +0.0, and no other byte. -/
theorem silenceClearsChannel : Obligations.SilenceClearsChannel :=
  ⟨decodeMicro_silenceWord, fun s c => ⟨_, rfl, rfl, fun _ hi => State.word?_mapBuf s c (fun _ _ => plusZero) hi,
    fun _ ha => State.byte?_mapBuf_of_outside s c (fun _ _ => plusZero) ha⟩⟩

/-- Settles O41: DRYCOPY writes each word of the block with the word of BUF, and no other byte. -/
theorem dryCopyCopiesBitForBit : Obligations.DryCopyCopiesBitForBit :=
  ⟨decodeMicro_dryCopyWord, fun s _ => ⟨_, rfl, rfl, fun _ _ hi hx => word?_of_exec_dryCopy rfl hi hx,
    fun _ ha => Memory.byte?_mapWords_of_outside s.dry ha⟩⟩

/-- Settles O42: every sequence ends with END, and END stands nowhere else. -/
theorem endClearsBusy : Obligations.EndClearsBusy := by
  refine ⟨by decide, fun s => rfl, fun s hs tl => hs.tail_eq_nil, fun nin nout hin hout => ?_, fun s t hm h => ?_⟩
  · exact (endsWithEnd_blockSequence (legalChannelCount_iff.2 hin) (legalChannelCount_iff.2 hout)).getLast?
  · cases h
    exact statusWord_idle hm rfl

/-- Settles O48: every loop over the samples of an empty block is over before it begins. -/
theorem emptyBlockChangesNoSample : Obligations.EmptyBlockChangesNoSample := fun i s hm hp hl =>
  (exec_next i s).imp fun _ h => ⟨h, exec_of_emptyBlock hm hp hl h⟩

/-- Settles O58: every micro-op but a SNAP out of range is followed by the next, and SEQ has at most 23 words. -/
theorem commandEndsWithinTwentyThreeSteps : Obligations.CommandEndsWithinTwentyThreeSteps := by
  intro s hs _ hf hn hp
  obtain ⟨t, hrun, ht, hseq⟩ := State.Undisturbed.run ⟨hs, hf, hn, hp⟩
  obtain ⟨hb, hend⟩ := ht.endedWell hseq
  exact ⟨_, t, hs.words.2, hrun, hb, hseq, ht.fault, hend⟩

/-- Settles O59: the write issues PREPARE, which loads PREP and END. -/
theorem prepareRunsToPrepared : Obligations.PrepareRunsToPrepared := by
  intro s writer fs hf hidle hfs hn
  obtain ⟨hword, loads⟩ := prepareLoadsPrepSequence
  have issued := (((stepRunsIssuedCommand s writer [] hf).1 _ hidle hn).1 _ hword).trans
    ((loads (s.onTurn [] (busAgent writer))).1 fs hfs)
  have ready : State.Ready { s with turns := [], actor := busAgent writer, busy := true, seq := [0xA0#8, 0x00#8] }
      prepareSequence := ⟨rfl, hf, rfl, rfl⟩
  obtain ⟨t, hrun, hmode, hbusy, hseq, hsr, hframe⟩ := ready.run_prepare
  refine ⟨t, (run_succ issued).trans hrun, statusWord_idle hmode hbusy, ?_, hsr.trans (congrArg (Option.getD · _) hfs),
    hseq, ?_⟩ <;> rw [hframe]
  · exact hf
  · exact ⟨rfl, rfl, rfl, rfl, rfl, rfl, rfl⟩
end

section
/-! Proofs of the family 45_pipeline.md, the whole chain of a block (R140, R141): the silent channel through mix and
gain; the phases of a block that follow one another, as the words they leave on each channel; and the block. -/

namespace Sys2Proof.Machine

/-! ## A silent channel through mix and gain (R140) -/

/-- The value of a parameter between two bounds of opposite keys is bounded in magnitude. -/
theorem magBits_le_of_le32 {lo v hi : F32} (h : (le32 lo v && le32 v hi) = true) {n : Nat}
    (hlo : -(n : Int) ≤ orderKey lo) (hhi : orderKey hi ≤ n) : magBits v ≤ n := by
  obtain ⟨h1, h2⟩ := Bool.and_eq_true_iff.1 h
  exact magBits_of_orderKey (hlo.trans ((le32_iff _ _).1 h1).2.2) (((le32_iff _ _).1 h2).2.2.trans hhi)

section
variable {flush : Bool} {nan a b : F32}

/-- Two values of magnitude at most 1.0 have a finite sum. -/
theorem isFinite_add32 (ha : magBits a ≤ 0x3F800000) (hb : magBits b ≤ 0x3F800000) :
    isFinite (add32 flush nan a b) = true := by
  obtain ⟨hfa, hua⟩ := units_le_of_orderKey (magBits_flushSub_le (flush := flush) ha)
  obtain ⟨hfb, hub⟩ := units_le_of_orderKey (magBits_flushSub_le (flush := flush) hb)
  have hsum : isFinite (add32 false nan (flushSub flush a) (flushSub flush b)) = true :=
    (roundsTo_add32 nan hfa hfb).1.2 ((abs_add_le _ _).trans_lt ((add_le_add hua hub).trans_lt (by norm_num)))
  simp only [add32, flushSub_eq (.inr (rfl : false = false))] at hsum
  exact isFinite_flushSub hsum

/-- A gain in decibels over 20.0 lies in the range of P2. -/
theorem div32_twenty_inRange (ha : magBits a ≤ 0x41C00000) :
    isFinite (div32 flush nan a twenty) = true ∧ le32 (abs32 (div32 flush nan a twenty)) pow10Limit = true := by
  have hmag : magBits (flushSub flush a) ≤ 0x41C00000 := magBits_flushSub_le ha
  have hfin : isFinite (flushSub flush a) = true := decide_eq_true (hmag.trans_lt (by decide))
  have hround : roundMag (magUnits (flushSub flush a) * 2 ^ 149) (magUnits twenty) ≤ 0x3F99999A := by
    refine roundMag_le_of_le (by decide) ?_
    have h24 : magUnits (flushSub flush a) ≤ unitsOfMag 0x41C00000 := unitsOfMag_strictMono.monotone hmag
    exact (Nat.mul_le_mul_right _ h24).trans (by decide)
  have hquot : magBits (div32 flush nan a twenty) ≤ 0x3F99999A := by
    have hexact := div32_eq_of_isFinite nan hfin (b := twenty) (by decide) (by decide)
    simp only [div32, flushSub_eq (.inr (rfl : false = false))] at hexact
    rw [div32, flushSub_eq (v := twenty) (.inl (by decide)), hexact]
    exact magBits_flushSub_le (by rwa [magBits_ofSignMag _ (roundMag_lt _ _)])
  have hfinite : isFinite (div32 flush nan a twenty) = true := decide_eq_true (hquot.trans_lt (by decide))
  have hkey : orderKey (abs32 (div32 flush nan a twenty)) ≤ orderKey pow10Limit := by
    have hlimit : orderKey pow10Limit = 0x3F99999A := by decide
    rw [orderKey, signBit_abs32, magBits_abs32, hlimit, if_neg Bool.false_ne_true]
    exact_mod_cast hquot
  exact ⟨hfinite, (le32_iff _ _).2 ⟨by rw [isNaN_abs32]; exact isNaN_of_isFinite hfinite, by decide, hkey⟩⟩

end

/-- Above +0.0 the sign bit is clear. -/
theorem signBit_of_plusZero_lt {v : F32} (h : lt32 plusZero v = true) : signBit v = false := by
  have hkey : orderKey plusZero < orderKey v := ((lt32_iff _ _).1 h).2.2
  have hzero : orderKey plusZero = 0 := by decide
  cases hs : signBit v with
  | false => rfl
  | true =>
    rw [hzero, orderKey, hs, if_pos rfl] at hkey
    omega

/-- The linear gain of a parameter in range is finite and positive (P2). -/
theorem linearGain_of_inRange {g : F32} (e : Fp) (hg : inRange .outgain g = true) :
    isFinite (linearGain e g) = true ∧ signBit (linearGain e g) = false := by
  obtain ⟨hfin, hlimit⟩ := div32_twenty_inRange (flush := e.flush) (nan := e.nan 0)
    (magBits_le_of_le32 hg (n := 0x41C00000) (by decide) (by decide))
  obtain ⟨hgain, hpos⟩ := Config.pow10Function.positive _ hfin hlimit
  exact ⟨hgain, signBit_of_plusZero_lt hpos⟩

/-- A positive gain keeps +0.0. -/
theorem gainSample_plusZero {g : F32} (e : Fp) (hfin : isFinite g = true) (hpos : signBit g = false) :
    gainSample e g plusZero = plusZero := by
  rw [gainSample, Fp.mul, mul32_of_isZero (by decide) hfin (.inl (by decide)), hpos]
  rfl

/-- Mixing +0.0 with +0.0 gives +0.0: where the wet product is -0.0, mix is a zero and the dry weight 1.0. -/
theorem mixSample_plusZero {m : F32} (e e' : Fp) (hm : inRange .mix m = true) :
    mixSample e m (dryWeight e' m) plusZero plusZero = plusZero := by
  have hmag : magBits m ≤ 0x3F800000 := magBits_le_of_le32 hm (by decide) (by decide)
  cases hz : isZero m with
  | true => rw [dryWeight_of_isZero hz, mixSample_of_isZero hz (by decide) (by decide) (.inl (by decide)), ite_self]
  | false =>
    have hs : signBit m = false := by
      have hnonneg : 0 ≤ units m := ((unitRange_iff m).1 hm).2.1
      have hpos := magUnits_pos hz
      cases hs : signBit m with
      | false => rfl
      | true =>
        rw [units, hs, if_pos rfl] at hnonneg
        omega
    have hweight : isFinite (dryWeight e' m) = true := isFinite_add32 (by decide) (by rwa [magBits_neg32])
    have hfin : isFinite m = true := (units_le_of_orderKey hmag).1
    rw [mixSample, Fp.mul, Fp.mul, mul32_of_isZero (by decide) hweight (.inl (by decide)),
      mul32_of_isZero (by decide) hfin (.inl (by decide)), Fp.add, add32_zeros (isZero_ofSignMag _) (isZero_ofSignMag _),
      signBit_ofSignMag _ (by norm_num), signBit_ofSignMag _ (by norm_num), hs]
    simp [plusZero, signBit, ofSignMag]

/-! ## The words of a block -/

/-- The words of the block on channel `c` of BUF are written and hold `x`. -/
def State.BufHolds (s : State) (c : Chan) (x : Nat → F32) : Prop :=
  ∀ i, i < s.cur.len → s.buf.word? (bufOffset c i) = some (x i)

/-- The words of the block on channel `c` of DRY are written and hold `x`. -/
def State.DryHolds (s : State) (c : Chan) (x : Nat → F32) : Prop :=
  ∀ i, i < s.cur.len → s.dry.word? (dryIndex c i) = some (x i)

/-- A phase that works on one channel of BUF after the other, as the words it leaves: each from the word of `x` where
BUF holds `x`, and from some word in any case. -/
theorem run_inPlace_holds {op : Chan → Instr} {f : State → Chan → Nat → F32 → F32} {cs : List Chan} {s : State}
    {js : List Instr} (hop : ∀ c s, exec (op c) s = .next (State.retire (s.mapBuf c (f s c))))
    (hm : ∀ c, (op c).isMicroOp = true) (hd : cs.Nodup) (h : s.Ready (cs.map op ++ js)) (hl : s.cur.len ≤ maxBlockLen) :
    ∃ t : State, Host.Core.run Sys2Proof.core cs.length s = .next t ∧ t.Ready js ∧
      t = { s with buf := t.buf, seq := t.seq, draws := t.draws, actor := t.actor } ∧
      (∀ c ∉ cs, ∀ x, s.BufHolds c x → t.BufHolds c x) ∧
      ∀ c ∈ cs, ∃ u : State, u = { s with buf := u.buf, seq := u.seq, draws := u.draws, actor := u.actor } ∧
        (∀ x, s.BufHolds c x → t.BufHolds c fun i => f u c i (x i)) ∧
        (∀ i, i < s.cur.len → ∃ x, t.buf.word? (bufOffset c i) = some (f u c i x)) := by
  obtain ⟨t, hrun, ht, hframe, hout, hin⟩ := run_inPlace hop hm cs s js hd h hl
  have hcur : t.cur = s.cur := by rw [hframe]
  refine ⟨t, hrun, ht, hframe, fun c hc x hx i hi => ?_, fun c hc => ?_⟩
  · rw [hcur] at hi
    rw [hout c hc i hi, hx i hi]
  · obtain ⟨u, hu, hub, hut⟩ := hin c hc
    refine ⟨u, hu, fun x hx i hi => ?_, fun i hi => ⟨_, hut i hi⟩⟩
    rw [hcur] at hi
    rw [hut i hi, State.bufWord_of_written ((hub i hi).trans (hx i hi))]

/-! ## The filter phases -/

/-- COEF and CACHED as UPD k leaves them (R110). -/
def State.updated (s : State) (k : Kind) : State :=
  let moved := cutoffMoved (s.fp 0) (targetCutoff k s) (s.cached.get k)
  { s with
    coef := if moved then s.coef.set k (Config.design k (targetCutoff k s) s.sr) else s.coef
    cached := if moved then s.cached.set k (targetCutoff k s) else s.cached }

theorem exec_upd_eq (s : State) (k : Kind) : exec (.upd k) s = .next (s.updated k).retire := rfl

/-- A second UPD of the kind would change nothing (R112). -/
theorem State.settled_updated (s : State) (k : Kind) : (s.updated k).Settled k := fun u hsnap hcached => by
  rw [targetCutoff_congr hsnap, hcached]
  exact cutoffMoved_after_upd (t := (s.updated k).retire) u (exec_upd_eq s k)

theorem State.coef_updated (s : State) (k : Kind) :
    (s.updated k).coef.get k =
      (if cutoffMoved (s.fp 0) (targetCutoff k s) (s.cached.get k) then Config.design k (targetCutoff k s) s.sr
        else s.coef.get k) := by
  dsimp only [State.updated]
  split
  · exact PerKind.get_set_self _ _ _
  · rfl

/-- The other kind's coefficients and cached cutoff stay. -/
theorem State.updated_other (s : State) {k k' : Kind} (hk : k' ≠ k) :
    (s.updated k).coef.get k' = s.coef.get k' ∧ (s.updated k).cached.get k' = s.cached.get k' := by
  dsimp only [State.updated]
  split
  · exact ⟨PerKind.get_set_ne _ _ hk, PerKind.get_set_ne _ _ hk⟩
  · exact ⟨rfl, rfl⟩

/-- UPD finds the same to do in a state that has already been updated, so a run may begin there instead. -/
theorem run_updated {s : State} {k : Kind} {is : List Instr} (h : s.Ready (.upd k :: is)) (n : Nat) :
    Host.Core.run Sys2Proof.core (n + 1) s = Host.Core.run Sys2Proof.core (n + 1) (s.updated k) := by
  have h' : (s.updated k).Ready (.upd k :: is) := ⟨h.busy, h.fault, h.turns, h.seq⟩
  have hstep : step s = .next (State.retire { s.updated k with actor := .sequencer }) := h.step rfl
  have hstep' : step (s.updated k) = .next (State.retire { s.updated k with actor := .sequencer }) :=
    (h'.step rfl).trans (exec_upd_of_near (s.settled_updated k _ rfl rfl))
  rw [run_succ hstep, run_succ hstep']

/-- UPD and RUN of a list of channels: the first UPD may move the cutoff, the others find nothing to do. -/
theorem run_filters {k : Kind} {cs : List Chan} {s : State} {js : List Instr} (hne : cs ≠ []) (hd : cs.Nodup)
    (h : s.Ready (cs.flatMap (fun c => [Instr.upd k, Instr.run k c]) ++ js)) (hl : s.cur.len ≤ maxBlockLen) :
    ∃ t : State, Host.Core.run Sys2Proof.core (2 * cs.length) s = .next t ∧ t.Ready js ∧
      t = { s with
            coef := (s.updated k).coef, cached := (s.updated k).cached, buf := t.buf, dly := t.dly, seq := t.seq,
            draws := t.draws, actor := t.actor } ∧
      (∀ k' c, k' ≠ k → (t.dly.get k').get c = (s.dly.get k').get c) ∧
      (∀ c ∉ cs, ∀ x, s.BufHolds c x → t.BufHolds c x) ∧
      ∀ c ∈ cs, ∃ u : State, ∀ x, s.BufHolds c x →
        t.BufHolds c (filterOutput u.fp ((s.updated k).coef.get k) x ((s.dly.get k).get c)) := by
  have h' : (s.updated k).Ready (cs.flatMap (fun c => [Instr.upd k, Instr.run k c]) ++ js) :=
    ⟨h.busy, h.fault, h.turns, h.seq⟩
  obtain ⟨t, hrun, ht, hframe, hother, hout, -, hin⟩ := run_filters_settled k cs _ js hd h' hl (s.settled_updated k)
  have hcur : t.cur = s.cur := by rw [hframe]; rfl
  refine ⟨t, ?_, ht, hframe, hother, fun c hc x hx i hi => ?_, fun c hc => ?_⟩
  · obtain ⟨c, cs, rfl⟩ := List.exists_cons_of_ne_nil hne
    exact (run_updated h (2 * cs.length + 1)).trans hrun
  · rw [hcur] at hi
    exact (hout c hc i hi).trans (hx i hi)
  · obtain ⟨u, hu⟩ := hin c hc
    exact ⟨u, fun x hx i hi => hu x hx i (hcur ▸ hi)⟩

/-! ## The phases of a block in a row (R134, R141) -/

section
variable {s : State} {js : List Instr}

/-- SILENCE, SNAP and DRYCOPY: the silent channels hold +0.0, the snapshot holds the parameters, and DRY holds what
BUF holds. -/
theorem run_capture {silent all : List Chan} (hsilent : silent.Nodup) (hall : all.Nodup)
    (h : s.Ready (silent.map Instr.silence ++ (allParams.map Instr.snap ++ (all.map Instr.dryCopy ++ js))))
    (hl : s.cur.len ≤ maxBlockLen) (hp : s.paramsInRange) :
    ∃ t : State, Host.Core.run Sys2Proof.core (silent.length + (5 + all.length)) s = .next t ∧ t.Ready js ∧
      t = { s with
            buf := t.buf, dry := t.dry, snap := t.snap, seq := t.seq, draws := t.draws, actor := t.actor } ∧
      (∀ p, s.param.get p = some (t.snap.get p)) ∧
      (∀ c ∈ silent, t.BufHolds c fun _ => plusZero) ∧
      (∀ c ∉ silent, ∀ x, s.BufHolds c x → t.BufHolds c x) ∧
      ∀ c ∈ all, ∀ x, t.BufHolds c x → t.DryHolds c x := by
  obtain ⟨s1, run1, ready1, frame1, kept, silenced⟩ :=
    run_inPlace_holds (f := fun _ _ _ _ => plusZero) (fun _ _ => rfl) (fun _ => rfl) hsilent h hl
  have hcur1 : s1.cur = s.cur := by rw [frame1]
  have hparam : s1.param = s.param := by rw [frame1]
  obtain ⟨s2, run2, ready2, frame2, -, snapped⟩ := run_snaps allParams s1 _ ready1 (by rwa [State.paramsInRange, hparam])
  have hcur2 : s2.cur = s.cur := by rw [frame2, hcur1]
  obtain ⟨t, run3, ready3, frame3, -, copied⟩ := run_dryCopy all s2 _ hall ready2 (hcur2 ▸ hl)
  have hcur3 : t.cur = s.cur := by rw [frame3, hcur2]
  have hsnap : t.snap = s2.snap := by rw [frame3]
  have hbuf : t.buf = s1.buf := by rw [frame3, frame2]
  have hbuf2 : s2.buf = t.buf := by rw [frame3]
  refine ⟨t, (run_add run1).trans ((run_add run2).trans run3), ready3, ?_, fun p => ?_, fun c hc i hi => ?_,
    fun c hc x hx i hi => ?_, fun c hc x hx i hi => ?_⟩
  · rw [frame3, frame2, frame1]
  · rw [← hparam, hsnap]
    exact snapped p (by cases p <;> decide)
  · obtain ⟨-, -, -, hword⟩ := silenced c hc
    obtain ⟨-, hword⟩ := hword i (hcur3 ▸ hi)
    rw [hbuf, hword]
  · rw [hbuf]
    exact kept c hc x hx i (by rwa [hcur1, ← hcur3])
  · exact copied c hc i (x i) (by rwa [hcur2, ← hcur3]) (hbuf2 ▸ hx i hi)

/-- The samples of an input channel before the mix (R141): the input shaped, through the lowpass and then the highpass;
`shape`, `lp` and `hp` are the primitives of the three phases at each sample. -/
def wetSample (shape lp hp : Nat → Fp) (drive : F32) (coef : PerKind Coef) (dly : PerKind (PerChan Delay)) (c : Chan)
    (x : Nat → F32) : Nat → F32 :=
  filterOutput hp (coef.get .hp)
    (filterOutput lp (coef.get .lp) (fun i => shapeSample (shape i) drive (x i)) ((dly.get .lp).get c))
    ((dly.get .hp).get c)

/-- SHAPE and the two filters. -/
theorem run_wet {cs : List Chan} (hne : cs ≠ []) (hd : cs.Nodup)
    (h : s.Ready (cs.map Instr.shape ++ (cs.flatMap (fun c => [Instr.upd .lp, Instr.run .lp c]) ++
      (cs.flatMap (fun c => [Instr.upd .hp, Instr.run .hp c]) ++ js))))
    (hl : s.cur.len ≤ maxBlockLen) :
    ∃ t : State, Host.Core.run Sys2Proof.core (cs.length + (2 * cs.length + 2 * cs.length)) s = .next t ∧ t.Ready js ∧
      t = { s with
            coef := t.coef, cached := t.cached, buf := t.buf, dly := t.dly, seq := t.seq, draws := t.draws,
            actor := t.actor } ∧
      (∀ k, ∃ u : State, t.coef.get k =
        if cutoffMoved (u.fp 0) (targetCutoff k s) (s.cached.get k) then Config.design k (targetCutoff k s) s.sr
          else s.coef.get k) ∧
      (∀ c ∉ cs, ∀ x, s.BufHolds c x → t.BufHolds c x) ∧
      ∀ c ∈ cs, ∃ shape lp hp : State, ∀ x, s.BufHolds c x →
        t.BufHolds c (wetSample shape.fp lp.fp hp.fp s.snap.drive t.coef s.dly c x) := by
  obtain ⟨s1, run1, ready1, frame1, kept1, shaped⟩ :=
    run_inPlace_holds (f := fun u _ i x => shapeSample (u.fp i) u.snap.drive x) (fun _ _ => rfl) (fun _ => rfl) hd h hl
  have hcur1 : s1.cur = s.cur := by rw [frame1]
  obtain ⟨s2, run2, ready2, frame2, dly2, kept2, low⟩ := run_filters hne hd ready1 (hcur1 ▸ hl)
  have hcur2 : s2.cur = s.cur := by rw [frame2, hcur1]
  obtain ⟨t, run3, ready3, frame3, -, kept3, high⟩ := run_filters hne hd ready2 (hcur2 ▸ hl)
  have coefLp : t.coef.get .lp = (s1.updated .lp).coef.get .lp := by
    rw [frame3, (s2.updated_other (by decide)).1, frame2]
  have coefHp : t.coef.get .hp = (s2.updated .hp).coef.get .hp := by rw [frame3]
  have hpKept : s2.coef.get .hp = s.coef.get .hp ∧ s2.cached.get .hp = s.cached.get .hp := by
    rw [frame2, (s1.updated_other (by decide)).1, (s1.updated_other (by decide)).2, frame1]
    exact ⟨rfl, rfl⟩
  have hsr2 : s2.sr = s.sr := by rw [frame2, frame1]
  have hsnap2 : s2.snap = s.snap := by rw [frame2, frame1]
  have hdly1 : s1.dly = s.dly := by rw [frame1]
  refine ⟨t, (run_add run1).trans ((run_add run2).trans run3), ready3, ?_, fun k => ?_, fun c hc x hx => ?_,
    fun c hc => ?_⟩
  · rw [frame3, frame2, frame1]
  · cases k with
    | lp =>
      refine ⟨s1, ?_⟩
      rw [coefLp, State.coef_updated, frame1]
      rfl
    | hp =>
      refine ⟨s2, ?_⟩
      rw [coefHp, State.coef_updated, targetCutoff_congr hsnap2, hpKept.1, hpKept.2, hsr2]
  · exact kept3 c hc x (kept2 c hc x (kept1 c hc x hx))
  · obtain ⟨u1, hu1, hshape, -⟩ := shaped c hc
    obtain ⟨u2, hlow⟩ := low c hc
    obtain ⟨u3, hhigh⟩ := high c hc
    have hsnap : u1.snap = s.snap := by rw [hu1]
    refine ⟨u1, u2, u3, fun x hx => ?_⟩
    have hwet := hhigh _ (hlow _ (hshape x hx))
    rw [dly2 .hp c (by decide), hdly1, ← coefLp, ← coefHp, hsnap] at hwet
    exact hwet

/-- The samples of a channel from the mix on (R141): the dry and the wet samples mixed, times the gain; `mix` and
`gain` are the primitives of the two phases at each sample. -/
def outSample (mix gain : Nat → Fp) (m g : F32) (dry wet : Nat → F32) (i : Nat) : F32 :=
  gainSample (gain i) g (mixSample (mix i) m (dryWeight (mix 0) m) (dry i) (wet i))

/-- MIX, GAINCALC, GAIN and END. -/
theorem run_output {cs : List Chan} (hd : cs.Nodup)
    (h : s.Ready (cs.map Instr.mix ++ (Instr.gainCalc :: (cs.map Instr.gain ++ [Instr.endCommand]))))
    (hl : s.cur.len ≤ maxBlockLen) :
    ∃ t : State, Host.Core.run Sys2Proof.core (cs.length + (cs.length + 1 + 1)) s = .next t ∧
      t.busy = false ∧ t.fault = none ∧ t.seq = [] ∧ t.cur = s.cur ∧ t.coef = s.coef ∧
      (∃ u : State, t.glin = linearGain (u.fp 0) s.snap.outgain) ∧
      ∀ c ∈ cs, ∃ mix gain : State, ∀ dry wet, s.DryHolds c dry → s.BufHolds c wet →
        t.BufHolds c (outSample mix.fp gain.fp s.snap.mix t.glin dry wet) := by
  obtain ⟨s1, run1, ready1, frame1, -, mixed⟩ :=
    run_inPlace_holds (op := Instr.mix)
      (f := fun u c i wet => mixSample (u.fp i) u.snap.mix (dryWeight (u.fp 0) u.snap.mix) (u.dryWord c i) wet)
      (fun _ _ => rfl) (fun _ => rfl) hd h hl
  obtain ⟨s2, step2, frame2⟩ : ∃ s2, step s1 = .next s2 ∧
      s2 = State.retire { s1 with actor := .sequencer, glin := linearGain (s1.fp 0) s1.snap.outgain } :=
    ⟨_, ready1.step rfl, rfl⟩
  have ready2 : s2.Ready (cs.map Instr.gain ++ [Instr.endCommand]) := by
    rw [frame2]
    exact ready1.next rfl rfl rfl rfl
  have hcur2 : s2.cur = s.cur := by rw [frame2, State.cur_retire, frame1]
  obtain ⟨s3, run3, ready3, frame3, -, gained⟩ :=
    run_inPlace_holds (f := fun u _ i x => gainSample (u.fp i) u.glin x) (fun _ _ => rfl) (fun _ => rfl) hd ready2
      (hcur2 ▸ hl)
  obtain ⟨t, step4, frame4⟩ : ∃ t, step s3 = .next t ∧ t = State.retire { s3 with actor := .sequencer, busy := false } :=
    ⟨_, ready3.step rfl, rfl⟩
  have hglin : t.glin = s2.glin := by rw [frame4, State.glin_retire, frame3]
  have hbuf2 : s2.buf = s1.buf := by rw [frame2]; rfl
  have hbuf4 : t.buf = s3.buf := by rw [frame4]; rfl
  have hcur1 : s1.cur = s.cur := by rw [frame1]
  have hcur3 : s3.cur = s.cur := by rw [frame3, hcur2]
  have hcur4 : t.cur = s.cur := by rw [frame4, State.cur_retire, hcur3]
  refine ⟨t, ?_, ?_, ?_, ?_, hcur4, ?_, ⟨s1, ?_⟩, fun c hc => ?_⟩
  · exact (run_add run1).trans ((run_succ step2).trans ((run_add run3).trans (run_succ step4)))
  · rw [frame4]
    rfl
  · rw [frame4]
    exact ready3.fault
  · rw [frame4, State.seq_retire, ready3.seq]
    rfl
  · rw [frame4, State.coef_retire, frame3, frame2, State.coef_retire, frame1]
  · rw [hglin, frame2, State.glin_retire, frame1]
  · obtain ⟨u1, hu1, hmix, -⟩ := mixed c hc
    obtain ⟨u3, hu3, hgain, -⟩ := gained c hc
    refine ⟨u1, u3, fun dry wet hdry hwet i hi => ?_⟩
    have hsnap : u1.snap = s.snap := by rw [hu1]
    have hdryWord : u1.dryWord c i = dry i := State.dryWord_of_written (by rw [hu1]; exact hdry i (hcur4 ▸ hi))
    have hmixed : s2.BufHolds c _ := fun j hj => by
      rw [hbuf2]
      exact hmix wet hwet j (by rwa [hcur1, ← hcur2])
    have hglin3 : u3.glin = t.glin := by rw [hu3, hglin]
    have hword := hgain _ hmixed i (by rwa [hcur3, ← hcur4])
    rw [hglin3, hsnap] at hword
    rw [hbuf4, hword, outSample, ← hdryWord]

end

/-! ## The block (R140, R141) -/

theorem blockSequence_eq (nin nout : Nat) :
    blockSequence nin nout =
      (channels nin (max nin nout)).map Instr.silence ++ (allParams.map Instr.snap ++
        ((channels 0 (max nin nout)).map Instr.dryCopy ++ ((channels 0 nin).map Instr.shape ++
          ((channels 0 nin).flatMap (fun c => [Instr.upd .lp, Instr.run .lp c]) ++
            ((channels 0 nin).flatMap (fun c => [Instr.upd .hp, Instr.run .hp c]) ++
              ((channels 0 (max nin nout)).map Instr.mix ++ (Instr.gainCalc ::
                ((channels 0 (max nin nout)).map Instr.gain ++ [Instr.endCommand])))))))) := by
  simp [blockSequence]

/-- The three parts of a block: up to DRYCOPY, up to the second filter, and the rest. -/
theorem length_blockSequence {nin nout : Nat} (hin : legalChannelCount nin = true) (hout : legalChannelCount nout = true) :
    (sequenceWords (blockSequence nin nout)).length =
      (channels nin (max nin nout)).length + (5 + (channels 0 (max nin nout)).length) +
      ((channels 0 nin).length + (2 * (channels 0 nin).length + 2 * (channels 0 nin).length) +
      ((channels 0 (max nin nout)).length + ((channels 0 (max nin nout)).length + 1 + 1))) := by
  rcases legalChannelCount_iff.1 hin with rfl | rfl <;> rcases legalChannelCount_iff.1 hout with rfl | rfl <;> decide

theorem mem_channels_zero {n : Nat} {c : Chan} : c ∈ channels 0 n ↔ c.index < n := by simp [mem_channels]

theorem channels_ne_nil {nin : Nat} (hin : legalChannelCount nin = true) : channels 0 nin ≠ [] := by
  rcases legalChannelCount_iff.1 hin with rfl | rfl <;> decide

/-- What was read of the parameters is in range where they are. -/
theorem State.paramsInRange.inRange_of_get {s : State} {snap : PerParam F32} (h : s.paramsInRange)
    (hsnap : ∀ p, s.param.get p = some (snap.get p)) (p : Param) : inRange p (snap.get p) = true := by
  obtain ⟨v, hv, hin⟩ := h p
  rw [hsnap p] at hv
  cases hv
  exact hin

/-- A record of parameters is its five values. -/
theorem PerParam.eq_of_get {α : Type} {t : PerParam α} {f : Param → α} (h : ∀ p, t.get p = f p) :
    t = { drive := f .drive, tone := f .tone, hpf := f .hpf, mix := f .mix, outgain := f .outgain } := by
  simp only [← h]
  rfl

/-- A silent channel stays +0.0 through the mix and the gain (R140). -/
theorem outSample_plusZero {m g : F32} {e : Fp} (mix gain : Nat → Fp) (hm : inRange .mix m = true)
    (hg : inRange .outgain g = true) (i : Nat) :
    outSample mix gain m (linearGain e g) (fun _ => plusZero) (fun _ => plusZero) i = plusZero := by
  obtain ⟨hfin, hpos⟩ := linearGain_of_inRange e hg
  rw [outSample, mixSample_plusZero _ _ hm, gainSample_plusZero _ hfin hpos]

/-- The whole block: what each part leaves, put together. -/
theorem run_block {s : State} {x : Chan → Nat → F32} (hlegal : s.cur.legal)
    (h : s.Ready (blockSequence s.cur.nin s.cur.nout)) (hp : s.paramsInRange)
    (hx : ∀ c, c.index < s.cur.nin → s.BufHolds c (x c)) :
    ∃ (t : State) (snap : PerParam F32), Host.Core.run Sys2Proof.core s.seq.length s = .next t ∧
      t.busy = false ∧ t.fault = none ∧ t.seq = [] ∧ t.cur = s.cur ∧
      (∀ p, s.param.get p = some (snap.get p)) ∧
      (∃ u : State, t.glin = linearGain (u.fp 0) snap.outgain) ∧
      (∀ k, ∃ u : State,
        let target := clamp32 (snap.get (cutoffParam k)) twenty twentyThousand
        t.coef.get k =
          if cutoffMoved (u.fp 0) target (s.cached.get k) then Config.design k target s.sr else s.coef.get k) ∧
      (∀ c, c.index < s.cur.nin → ∃ shape lp hp mix gain : State,
        t.BufHolds c (outSample mix.fp gain.fp snap.mix t.glin (x c)
          (wetSample shape.fp lp.fp hp.fp snap.drive t.coef s.dly c (x c)))) ∧
      ∀ c, s.cur.nin ≤ c.index → c.index < max s.cur.nin s.cur.nout → t.BufHolds c fun _ => plusZero := by
  obtain ⟨hin, hout, hl⟩ := hlegal
  have hlength := (congrArg List.length h.seq).trans (length_blockSequence hin hout)
  rw [blockSequence_eq] at h
  obtain ⟨s1, run1, ready1, frame1, hsnap1, silent1, kept1, copied⟩ :=
    run_capture (channels_nodup _ _) (channels_nodup _ _) h hl hp
  obtain ⟨hcur1, hcached1, hsr1, hcoef1, hdly1⟩ : s1.cur = s.cur ∧ s1.cached = s.cached ∧ s1.sr = s.sr ∧
      s1.coef = s.coef ∧ s1.dly = s.dly := by
    rw [frame1]
    exact ⟨rfl, rfl, rfl, rfl, rfl⟩
  have hl1 : s1.cur.len ≤ maxBlockLen := hcur1 ▸ hl
  obtain ⟨s2, run2, ready2, frame2, hcoef2, kept2, wet⟩ :=
    run_wet (channels_ne_nil hin) (channels_nodup _ _) ready1 hl1
  obtain ⟨hcur2, hsnap2, hdry2⟩ : s2.cur = s1.cur ∧ s2.snap = s1.snap ∧ s2.dry = s1.dry := by
    rw [frame2]
    exact ⟨rfl, rfl, rfl⟩
  obtain ⟨t, run3, hbusy, hfault, hseq, hcur3, hcoef3, ⟨uGlin, hglin⟩, out⟩ :=
    run_output (channels_nodup _ _) ready2 (hcur2 ▸ hl1)
  have copied2 : ∀ c, c.index < max s.cur.nin s.cur.nout → ∀ y, s1.BufHolds c y → s2.DryHolds c y := fun c hc y hy => by
    rw [State.DryHolds, hcur2, hdry2]
    exact copied c (mem_channels_zero.2 hc) y hy
  refine ⟨t, s1.snap, ?_, hbusy, hfault, hseq, hcur3.trans (hcur2.trans hcur1), hsnap1, ⟨uGlin, ?_⟩, fun k => ?_,
    fun c hc => ?_, fun c hc hc' => ?_⟩
  · rw [hlength]
    exact (run_add run1).trans ((run_add run2).trans run3)
  · rw [hglin, hsnap2]
  · obtain ⟨u, hu⟩ := hcoef2 k
    refine ⟨u, ?_⟩
    rw [hcoef3, hu, hcached1, hsr1, hcoef1]
    rfl
  · have hblock : c.index < max s.cur.nin s.cur.nout := hc.trans_le (le_max_left _ _)
    obtain ⟨uShape, uLp, uHp, hwet⟩ := wet c (mem_channels_zero.2 hc)
    obtain ⟨uMix, uGain, hout⟩ := out c (mem_channels_zero.2 hblock)
    have hx1 : s1.BufHolds c (x c) := kept1 c (by rw [mem_channels]; omega) _ (hx c hc)
    have hchain := hout _ _ (copied2 c hblock _ hx1) (hwet _ hx1)
    rw [hsnap2, hdly1, ← hcoef3] at hchain
    exact ⟨uShape, uLp, uHp, uMix, uGain, hchain⟩
  · obtain ⟨uMix, uGain, hout⟩ := out c (mem_channels_zero.2 hc')
    have hzero1 := silent1 c ((mem_channels _ _ c).2 ⟨hc, hc'⟩)
    have hzero2 := kept2 c (by rw [mem_channels_zero]; omega) _ hzero1
    intro i hi
    rw [hout _ _ (copied2 c hc' _ hzero1) hzero2 i hi, hglin, hsnap2]
    exact congrArg some (outSample_plusZero _ _ (hp.inRange_of_get hsnap1 .mix) (hp.inRange_of_get hsnap1 .outgain) i)

end Sys2Proof.Machine

open Sys2Proof Sys2Proof.Machine

/-- Settles O60: the three parts of a block leave on each channel the words of the chain, computed by the primitives of
the states in which its micro-ops ran. -/
theorem blockComputesWholeChain : Obligations.BlockComputesWholeChain := by
  intro s x hlegal hseq hb hf hn hp hx
  obtain ⟨t, snap, hrun, hbusy, hfault, hempty, hcur, hparam, ⟨uGlin, hglin⟩, hcoef, hin, hsilent⟩ :=
    run_block hlegal ⟨hb, hf, hn, hseq⟩ hp fun c hc i hi => hx c i hc hi
  have : Nonempty State := ⟨s⟩
  choose uUpd hcoef using hcoef
  choose! uShape uLp uHp uMix uGain hin using hin
  have hconfig : ∀ (u : Chan → State) (c : Chan) (i : Nat), ((u c).fp i).flush = Config.flushSubnormals ∧
      ∀ j, isNaN (((u c).fp i).nan j) = true := fun u c i => ⟨rfl, (u c).isNaN_fp_nan i⟩
  refine ⟨t, fun c i => (uShape c).fp i, fun c i => (uLp c).fp i, fun c i => (uHp c).fp i, fun c i => (uMix c).fp i,
    fun c i => (uGain c).fp i, fun k => ((uUpd k).fp 0).nan 0, (uGlin.fp 0).nan 0, snap.drive, snap.tone, snap.hpf,
    snap.mix, snap.outgain, hrun, hbusy, hfault, hempty, hconfig _, hconfig _, hconfig _, hconfig _, hconfig _,
    fun k => (uUpd k).isNaN_fp_nan 0 0, uGlin.isNaN_fp_nan 0 0, PerParam.eq_of_get hparam, hglin, fun k => ?_,
    fun c i hc hi => hin c hc i (hcur ▸ hi), fun c i hc hc' hi => hsilent c hc hc' i (hcur ▸ hi)⟩
  cases k
  · exact hcoef .lp
  · exact hcoef .hp
end

section
/-! Proofs of the family 60_exceptions.md: which faults the duties of R158 leave to the access of an outside agent, to
the command it issues and to a micro-op; what the duties keep of the parameters of a block in progress; and the idle
turn of the sequencer. -/

namespace Sys2Proof.Machine

/-! ## The faults the duties do not rule out (R158) -/

/-- A malformed access, a reserved command word and a word that holds no value. -/
def FaultCode.LeftByDuties (code : FaultCode) : Prop :=
  code = .busAccess ∨ code = .reservedCommand ∨ code = .unwrittenRead

/-- A fault, where there is one, is of an access and one of those. -/
def State.FaultsFromAccess (s : State) : Prop :=
  ∀ f, s.fault = some f → f.agent ≠ .sequencer ∧ f.code.LeftByDuties

theorem busAgent_ne_sequencer (writer : Bool) : busAgent writer ≠ .sequencer := by cases writer <;> decide

section
variable {s t : State}

theorem State.faultsFromAccess_of_none (h : s.fault = none) : s.FaultsFromAccess := by
  intro f hf
  rw [h] at hf
  cases hf

theorem State.faultsFromAccess_raise {code : FaultCode} (hf : s.fault = none) (ha : s.actor ≠ .sequencer)
    (hc : code.LeftByDuties) (detail : FaultDetail) : (s.raise code detail).FaultsFromAccess := by
  rw [State.raise_of_none hf]
  rintro _ ⟨⟩
  exact ⟨ha, hc⟩

/-! ## The parameters of a block in progress -/

theorem State.blockParamsInRange_of_idle (h : s.busy = false) : s.blockParamsInRange := by
  intro hb
  rw [h] at hb
  cases hb

/-- Writing a value in its range keeps every parameter in range. -/
theorem State.paramsInRange_setParam (h : s.paramsInRange) {p : Param} {v : F32} (hv : inRange p v = true) :
    State.paramsInRange { s with param := s.param.set p (some v) } := by
  intro p'
  by_cases hp : p' = p
  · subst hp
    exact ⟨v, PerParam.get_set_self _ _ _, hv⟩
  · obtain ⟨w, hw, hin⟩ := h p'
    exact ⟨w, (PerParam.get_set_ne _ _ hp).trans hw, hin⟩

/-! ## An access without command -/

theorem AccessLeaves.blockParamsInRange {x : Access} (h : AccessLeaves x s t) (hd : s.accessDuty x)
    (hp : s.blockParamsInRange) : t.blockParamsInRange := by
  cases h with
  | param p v accepted op there =>
    exact fun hb => (hp hb).imp_left fun hr => State.paramsInRange_setParam hr ((hd.2 accepted v op).1 p there)
  | _ => exact hp

/-- The access that R176 does not allow while BUSY breaks a duty, and every other cause is left. -/
theorem AccessLeaves.faultsFromAccess {x : Access} (h : AccessLeaves x s t) (hd : s.accessDuty x)
    (hf : s.fault = none) (ha : s.actor ≠ .sequencer) : t.FaultsFromAccess := by
  cases h with
  | raised code detail cause =>
    have left : code.LeftByDuties := by
      obtain rfl | rfl | rfl | ⟨-, hb, hrefused⟩ := cause
      · exact .inl rfl
      · exact .inr (.inr rfl)
      · exact .inr (.inl rfl)
      · rw [(hd.1 hb).2] at hrefused
        cases hrefused
    exact State.faultsFromAccess_raise hf ha left detail
  | _ => exact State.faultsFromAccess_of_none hf

/-! ## A command -/

/-- PREPARE raises a fault only where SAMPLE_RATE is unwritten, and else loads its own sequence. -/
theorem exec_prepare_of_duty (h : exec .prepare s = .next t) (hf : s.fault = none) (ha : s.actor ≠ .sequencer)
    (hp : s.blockParamsInRange) : t.blockParamsInRange ∧ t.FaultsFromAccess := by
  obtain ⟨loads, raises⟩ := prepareLoadsPrepSequence.2 s
  cases hrate : s.sampleRate with
  | none =>
    cases (raises hrate).symm.trans h
    exact ⟨hp, State.faultsFromAccess_raise hf ha (.inr (.inr rfl)) _⟩
  | some fs =>
    cases (loads fs hrate).symm.trans h
    exact ⟨fun _ => .inr List.suffix_rfl, State.faultsFromAccess_of_none hf⟩

/-- A command issued with its duties kept: the checks of PROCESS_BLOCK (R133) are duties, and so are the parameters it
will need. -/
theorem exec_command_of_duty {w : Word} {i : Instr} (h : exec i s = .next t) (hw : decodeCommand w = .ok i)
    (hd : s.commandDuty w) (hf : s.fault = none) (ha : s.actor ≠ .sequencer) (hp : s.blockParamsInRange) :
    t.blockParamsInRange ∧ t.FaultsFromAccess := by
  obtain rfl | ⟨nin, nout, len, rfl⟩ := decodeCommand_ok hw
  · exact exec_prepare_of_duty h hf ha hp
  · obtain ⟨hmode, hin, hout, hlen, hinputs, hparams⟩ := hd nin nout len hw
    have counts := And.intro (legalChannelCount_iff.1 hin) (legalChannelCount_iff.1 hout)
    have loads := (exec_processBlock_of_legal hmode counts hlen).2 (unwrittenInput_eq_none_iff.2 hinputs)
    cases loads.symm.trans h
    exact ⟨fun _ => .inl hparams, State.faultsFromAccess_of_none hf⟩

/-! ## A micro-op -/

/-- PREPARE's micro-ops are no SNAPs. -/
theorem prepareSequence_no_snap (p : Param) : Instr.snap p ∉ prepareSequence := by simp [prepareSequence]

/-- A micro-op of PREPARE is no SNAP, and a SNAP of a block finds its parameter in range. -/
theorem exec_micro_of_duty {u : MicroWord} {tl : List MicroWord} {i : Instr} (h : exec i s = .next t)
    (hd : decodeMicro u = .ok i) (hu : s.seq = u :: tl) (hb : s.busy = true) (hp : s.blockParamsInRange) :
    t.blockParamsInRange ∧ t.fault = s.fault := by
  have hm : i.isMicroOp = true := (decodeMicro_ok hd).1
  obtain hparams | hprep := hp hb
  · have hparam : t.param = s.param := (eachRegisterHasItsWriters i s t h).1
    refine ⟨fun _ => .inl ?_, (fault_exec_of_paramsInRange hm hparams h).1⟩
    rw [State.paramsInRange, hparam]
    exact hparams
  · have hmem : i ∈ prepareSequence :=
      mem_of_decodeMicro (fun j hj => (prepareSequence_channels j hj).1) (hprep.subset (by simp [hu])) hd
    obtain ⟨hfault, hseq⟩ | ⟨-, p, rfl⟩ := exec_micro_retires hm h
    · exact ⟨fun _ => .inr (hseq ▸ (List.tail_suffix _).trans hprep), hfault⟩
    · exact absurd hmem (prepareSequence_no_snap p)

/-! ## A step that keeps the duties, and runs of such steps -/

/-- A step from a state whose FAULT is set is the reset, so the premise on FAULT is not needed. -/
theorem step_of_duty (hp : s.blockParamsInRange) (hd : s.nextAccessDuty) (h : step s = .next t) :
    t.blockParamsInRange ∧ t.FaultsFromAccess := by
  cases step_takes h with
  | reset rest _ leaves =>
    subst leaves
    exact ⟨State.blockParamsInRange_of_idle rfl, State.faultsFromAccess_of_none rfl⟩
  | access writer x rest hf turn leaves =>
    have duty : (s.onTurn rest (busAgent writer)).accessDuty x := hd writer x rest turn
    exact ⟨leaves.blockParamsInRange duty hp, leaves.faultsFromAccess duty hf (busAgent_ne_sequencer writer)⟩
  | command writer x rest w i hf _ turn accepted there op decodes runs =>
    have duty : (s.onTurn rest (busAgent writer)).commandDuty w :=
      ((hd writer x rest turn).2 accepted w op).2 there
    exact exec_command_of_duty runs decodes duty hf (busAgent_ne_sequencer writer) hp
  | micro rest u tl i hf busy _ head decodes runs =>
    obtain ⟨hparams, hfault⟩ := exec_micro_of_duty runs decodes head busy hp
    exact ⟨hparams, State.faultsFromAccess_of_none (hfault.trans hf)⟩
  | idle rest hf idle _ leaves =>
    subst leaves
    exact ⟨hp, State.faultsFromAccess_of_none hf⟩

theorem State.dutiesKept.nextAccessDuty (h : s.dutiesKept) : s.nextAccessDuty := h 0 s (run_zero s)

theorem State.dutiesKept.step (h : s.dutiesKept) (hs : step s = .next t) : t.dutiesKept :=
  fun n u hu => h (n + 1) u ((run_succ hs).trans hu)

/-- What holds all along a run from the launch premise. -/
structure State.Dutiful (s : State) : Prop where
  params : s.blockParamsInRange
  duties : s.dutiesKept
  faults : s.FaultsFromAccess

theorem State.launchPremise.dutiful (h : s.launchPremise) : s.Dutiful := by
  obtain ⟨⟨-, hidle, -, hfault, -⟩, hduties⟩ := h
  exact ⟨State.blockParamsInRange_of_idle hidle, hduties, State.faultsFromAccess_of_none hfault⟩

theorem State.Dutiful.step (hs : s.Dutiful) (h : step s = .next t) : t.Dutiful := by
  obtain ⟨hparams, hfaults⟩ := step_of_duty hs.params hs.duties.nextAccessDuty h
  exact ⟨hparams, hs.duties.step h, hfaults⟩

end

end Sys2Proof.Machine

open Sys2Proof Sys2Proof.Machine

/-- Settles O57: an access the duties allow passes the BUSY check, the checks of a command are duties themselves, and
the parameters in range when a block is issued stay so while it is in progress. -/
theorem keptDutiesRuleFaultsOut : Obligations.KeptDutiesRuleFaultsOut := by
  refine ⟨fun s t hseq hparams hduty _ h => ⟨seqInProgress_step hseq h, step_of_duty hparams hduty h⟩,
    fun s t n hlaunch hrun => ?_⟩
  exact (run_induction (fun _ _ hs => hs.step) n s t hlaunch.dutiful hrun).faults

/-- Settles O10: while BUSY = 0 the sequencer's fetch is settled with the turn taken. -/
theorem idleMachineHoldsItsState : Obligations.IdleMachineHoldsItsState := by
  intro s rest hf hb hn
  simp only [step, fetch_of_sequencerNext hn, fetchMicroOp, hf, hb, Bool.false_eq_true, if_false]
end

section
/-! Proofs of the family 70_reset_and_hazards.md: the accesses R176 lists, by their offsets and by what they do, and
the state the reset input leaves. -/

namespace Sys2Proof.Machine

/-! ## The accesses listed while BUSY (R176) -/

theorem Access.isWrite_eq_false_iff {x : Access} : x.isWrite = false ↔ x.op = .read := by
  cases h : x.op <;> simp [Access.isWrite, h]

/-- The offsets R176 lists: CMD, STATUS and SAMPLE_RATE for a read, and the PARAM registers. -/
theorem allowedWhileBusy_target_iff {off : BitVec 17} (ha : off.toNat % 4 = 0) (h12 : off.toNat ≠ 0x00C)
    (hr : ¬(0x024 ≤ off.toNat ∧ off.toNat ≤ 0x0FFFF)) (isWrite : Bool) :
    allowedWhileBusy (target off) isWrite = true ↔
      (isWrite = false ∧ off.toNat ≤ 0x008) ∨ (0x010 ≤ off.toNat ∧ off.toNat ≤ 0x020) := by
  rcases Nat.lt_or_ge off.toNat 0x10000 with hreg | hram
  · rw [target_of_lt hreg]
    rcases register_offsets (by omega) ha h12 with h | h | h | h | h | h | h | h <;> rw [h] <;>
      simp [registerTarget, allowedWhileBusy]
  · obtain ⟨c, i, hsample⟩ := target_ram hram
    rw [hsample]
    simp only [allowedWhileBusy, Bool.false_eq_true, false_iff]
    omega

/-- PARAM is all that may be written while BUSY. -/
theorem allowedWhileBusy_write_iff {t : Target} : allowedWhileBusy t true = true ↔ ∃ p, t = .param p := by
  cases t <;> simp [allowedWhileBusy]

/-- A fault, where there is one, is UNWRITTEN_READ. -/
def State.FaultsUnwrittenOnly (s : State) : Prop := ∀ f, s.fault = some f → f.code = .unwrittenRead

section
variable {s : State}

theorem State.faultsUnwrittenOnly_of_none (hf : s.fault = none) : s.FaultsUnwrittenOnly := fun f h => by
  simp [hf] at h

theorem State.faultsUnwrittenOnly_readTagged (hf : s.fault = none) (off : BitVec 17) (held : Option Word) :
    (s.readTagged off held).FaultsUnwrittenOnly := by
  obtain ⟨returned, raised⟩ := readTagged_eq hf off held
  cases held with
  | none =>
    rw [raised rfl]
    rintro _ ⟨⟩
    rfl
  | some v =>
    rw [returned v rfl]
    exact State.faultsUnwrittenOnly_of_none hf

/-- A read of any offset that is not reserved raises nothing but UNWRITTEN_READ. -/
theorem State.faultsUnwrittenOnly_busRead {x : Access} (hf : s.fault = none) (ht : target x.off ≠ .reserved) :
    (busRead x s).FaultsUnwrittenOnly := by
  cases h : target x.off <;> simp only [busRead, h]
  case cmd | status => exact State.faultsUnwrittenOnly_of_none hf
  case sampleRate | param | sample => exact State.faultsUnwrittenOnly_readTagged hf _ _
  case reserved => exact absurd h ht

/-- An access that R176 allows issues no command: it is a read, or it stores a parameter. -/
theorem busAccess_allowed {x : Access} (hf : s.fault = none) (hacc : x.accepted = true)
    (hallowed : allowedWhileBusy (target x.off) x.isWrite = true) :
    ∃ t, busAccess x s = .done t ∧ t.FaultsUnwrittenOnly := by
  cases hop : x.op with
  | read =>
    rw [Access.isWrite_eq_false_iff.2 hop] at hallowed
    have unreserved : target x.off ≠ .reserved := fun h => by
      rw [h] at hallowed
      cases hallowed
    exact ⟨_, busAccess_read hacc hop fun _ => hallowed, State.faultsUnwrittenOnly_busRead hf unreserved⟩
  | write v =>
    have hwrite : x.isWrite = true := by simp [Access.isWrite, hop]
    rw [hwrite] at hallowed
    obtain ⟨p, hp⟩ := allowedWhileBusy_write_iff.1 hallowed
    refine ⟨{ s with param := s.param.set p (some v) }, ?_, State.faultsUnwrittenOnly_of_none hf⟩
    rw [busAccess_write hacc hop fun _ => hallowed]
    simp only [busWrite, hp]

end

/-! ## The reset input (R171) -/

theorem step_of_reset {s : State} {rest : List Turn} (hn : s.turns = .reset :: rest) :
    step s = .next (s.afterReset rest) := by
  simp only [step, fetch, hn]

/-- The turns and the draw counter, which go on, are no part of a clean launch. -/
theorem State.cleanLaunch_afterReset (s : State) (rest : List Turn) : (s.afterReset rest).cleanLaunch := by
  obtain ⟨-, clean, -⟩ := resetMeetsInvariants
  exact clean

theorem Memory.word?_nil (a : Nat) : Memory.word? [] a = none := rfl

theorem statusWord_unprepared {s : State} (hm : s.mode = .unprepared) (hb : s.busy = false) :
    statusWord s = 0x00000000#32 := by
  simp [statusWord, busyBit, preparedBit, hm, hb]

end Sys2Proof.Machine

open Sys2Proof Sys2Proof.Machine

/-- Settles O12: the listed offsets are those the BUSY check of R157 lets pass, a read or a write of PARAM; every other
access fails that check, and nothing comes before it. -/
theorem busyMachineAcceptsOnlyListedAccesses : Obligations.BusyMachineAcceptsOnlyListedAccesses := by
  rintro s writer ⟨_, off, op⟩ rest hf hb hn rfl halign h12 hreserved
  have ha : off.toNat % 4 = 0 := by simpa [BitVec.extractLsb'_toNat] using congrArg BitVec.toNat halign
  have h12 : off.toNat ≠ 0x00C := fun h => h12 (BitVec.eq_of_toNat_eq h)
  have hacc := accepted_of op ha h12 hreserved
  simp only [← Access.isWrite_eq_false_iff (x := { width := 32, off := off, op := op })]
  rw [← allowedWhileBusy_target_iff ha h12 hreserved]
  refine ⟨fun hallowed => ?_, fun hrefused => ?_⟩
  · obtain ⟨t, ht, hfault⟩ := busAccess_allowed (s := s.onTurn rest (busAgent writer)) hf hacc hallowed
    exact ⟨t, step_of_done hf hn ht, hfault⟩
  · exact step_of_raise hf hn (busAccess_busy hacc hb (Bool.eq_false_of_not_eq_true hrefused))

/-- Settles O9: the state after a reset is a clean launch, whose fields are the ones the rule names. -/
theorem resetInputRestartsMachine : Obligations.ResetInputRestartsMachine := by
  intro s rest hn
  obtain ⟨hmode, hbusy, hseq, hfault, hrate, hparam, hbuf, -⟩ := s.cleanLaunch_afterReset rest
  refine ⟨s.afterReset rest, step_of_reset hn, rfl, s.cleanLaunch_afterReset rest, hmode, hbusy, hseq, hfault, hrate,
    hparam, fun c i => ?_, statusWord_unprepared hmode hbusy⟩
  rw [hbuf]
  exact Memory.word?_nil _
end
